-- ==== Sys2Proof/Word.lean ====
section
/-! DEFINITION. The word types of HAP-FWE: bytes, 32-bit words and flash addresses (R5, R10). Arithmetic on addresses is
done in `Nat` and never wraps (R10, D4); checksum arithmetic is done on `Word` and wraps modulo 2^32 (R87). -/

namespace Sys2Proof

/-- `u8`: one byte of flash, of a slot's buffer, of the DATA stream or of a packet (R10). -/
abbrev Byte := BitVec 8

/-- `u32`: a vector word, the checksum word, CW, LEN (R10). -/
abbrev Word := BitVec 32

/-- `Address`: an unsigned 32-bit byte address of flash (R5, D20). -/
abbrev Address := BitVec 32

end Sys2Proof
end

