-- ==== Sys2Proof/Syntax.lean ====
section
/-! DEFINITION. The ten operations of the block (R60), one constructor per row of spec/opcode_table.json. -/

namespace Sys2Proof

/-- An operation of the block with its operands (R60). -/
inductive Instr where
  /-- `init()` (R80) -/
  | init
  /-- `write(address, length, data)` (R81); `length` is the number of bytes of `data` (R60: `data: [u8; length]`) -/
  | write (address : Address) (data : List Byte)
  /-- `erase(address, length)` (R82) -/
  | erase (address : Address) (length : Word)
  /-- `write_checksum()` (R83) -/
  | writeChecksum
  /-- `verify_checksum()` (R84) -/
  | verifyChecksum
  /-- `finalize()` (R85) -/
  | finalize
  /-- `no_byte_this_tick()` (R133, R134) -/
  | noByteThisTick
  /-- `byte_received(b)` (R131, R132) -/
  | byteReceived (b : Byte)
  /-- `frame_received(payload)` (R135) -/
  | frameReceived (payload : List Byte)
  /-- `resolve(clock, rate)` (R150) -/
  | resolve (clock : Word) (rate : Word)
deriving DecidableEq, Repr, Inhabited

end Sys2Proof
end

