-- ==== Sys2Proof/WellFormed.lean ====
section
/-! DEFINITION. Which terms of `Instr` the command port can carry (R62, R63). -/

namespace Sys2Proof

/-- The operands fit their fields: `write`'s length fits LEN (32 bits) and a frame's length fits ARG8 (8 bits) (R62, R63).
The other operands are bit vectors of their field's width. -/
def Instr.wellFormed : Instr → Bool
  | .init => true
  | .write _ data => decide (data.length < 2 ^ 32)
  | .erase _ _ => true
  | .writeChecksum => true
  | .verifyChecksum => true
  | .finalize => true
  | .noByteThisTick => true
  | .byteReceived _ => true
  | .frameReceived payload => decide (payload.length < 2 ^ 8)
  | .resolve _ _ => true

end Sys2Proof
end

