-- ==== Sys2Proof/Decode.lean ====
section
/-! DEFINITION. The command port's decoder and encoder (R61 to R65, R67): the opcode table of R64 as match and mask, the
formats of R62, and the refusal of every word that is no row of the table. -/

namespace Sys2Proof

/-- The operation an opcode names (R64). -/
inductive Op where
  | init
  | write
  | erase
  | writeChecksum
  | verifyChecksum
  | finalize
  | noByteThisTick
  | byteReceived
  | frameReceived
  | resolve
deriving DecidableEq, Repr, Inhabited

/-- A row of the opcode map (R64): a command word `cw` belongs to it when `cw` masked by `mask` is `pattern`. -/
structure OpcodeRow where
  op : Op
  pattern : Word
  mask : Word
deriving DecidableEq, Repr, Inhabited

/-- Why a command is not an operation of the block (R67). -/
inductive DecodeError where
  /-- the command word matches no row of R64: an unknown OPC, reserved bits set, or ARG8 set in a format without it -/
  | illegalWord
  /-- the DATA stream holds fewer bytes than the command's format names (R62, R65; log 16) -/
  | dataUnderrun
deriving DecidableEq, Repr, Inhabited

/-- What the issuer presents at the port: the in-registers CW, ADDR and LEN, and bytes of the DATA stream (R31, R61). -/
structure PortCommand where
  cw : Word
  addr : Word
  len : Word
  data : List Byte
deriving DecidableEq, Repr, Inhabited

/-- The opcode map of R64, row by row. -/
def opcodeTable : List OpcodeRow :=
  [ ⟨.init, 0x00000001, 0xFFFFFFFF⟩,
    ⟨.write, 0x00000002, 0xFFFFFFFF⟩,
    ⟨.erase, 0x00000003, 0xFFFFFFFF⟩,
    ⟨.writeChecksum, 0x00000004, 0xFFFFFFFF⟩,
    ⟨.verifyChecksum, 0x00000005, 0xFFFFFFFF⟩,
    ⟨.finalize, 0x00000006, 0xFFFFFFFF⟩,
    ⟨.noByteThisTick, 0x00000010, 0xFFFFFFFF⟩,
    ⟨.byteReceived, 0x00000011, 0xFFFF00FF⟩,
    ⟨.frameReceived, 0x00000012, 0xFFFF00FF⟩,
    ⟨.resolve, 0x00000020, 0xFFFFFFFF⟩ ]

/-- The row a command word matches, or none: then it is illegal (R64, R67). -/
def findOp (cw : Word) : Option Op :=
  (opcodeTable.find? fun r => cw &&& r.mask == r.pattern).map (·.op)

/-- OPC = CW[7:0] (R61). -/
def opcOf (cw : Word) : Byte := cw.extractLsb' 0 8

/-- ARG8 = CW[15:8] (R61). -/
def arg8Of (cw : Word) : Byte := cw.extractLsb' 8 8

/-- The reserved half CW[31:16] (R61). -/
def reservedOf (cw : Word) : BitVec 16 := cw.extractLsb' 16 16

/-- Takes `n` bytes off the DATA stream; none if it holds fewer (R63, R65). -/
def takeData (n : Nat) (stream : List Byte) : Option (List Byte × List Byte) :=
  if n ≤ stream.length then some (stream.take n, stream.drop n) else none

/-- The bytes of the DATA stream that the command takes (R62, R65): LEN for format ALD, ARG8 for format F, else none. -/
def dataCount (op : Op) (cw len : Word) : Nat :=
  match op with
  | .write => len.toNat
  | .frameReceived => (arg8Of cw).toNat
  | _ => 0

/-- The instruction of an operation, its operands assembled as R63 says. -/
def assemble (op : Op) (cw addr len : Word) (bytes : List Byte) : Instr :=
  match op with
  | .init => .init
  | .write => .write addr bytes
  | .erase => .erase addr len
  | .writeChecksum => .writeChecksum
  | .verifyChecksum => .verifyChecksum
  | .finalize => .finalize
  | .noByteThisTick => .noByteThisTick
  | .byteReceived => .byteReceived (arg8Of cw)
  | .frameReceived => .frameReceived bytes
  | .resolve => .resolve addr len

/-- The instruction a presented command stands for, with what is left of the DATA stream; or why it is refused. -/
def decode (c : PortCommand) : Except DecodeError (Instr × List Byte) :=
  match findOp c.cw with
  | none => .error .illegalWord
  | some op =>
    match takeData (dataCount op c.cw c.len) c.data with
    | none => .error .dataUnderrun
    | some (bytes, rest) => .ok (assemble op c.cw c.addr c.len bytes, rest)

/-- A command word from its fields (R61): reserved half zero, then ARG8, then OPC. -/
def commandWord (opc arg8 : Byte) : Word := (0 : BitVec 16) ++ arg8 ++ opc

/-- What the issuer presents for an instruction (R61 to R64). The registers a format does not use are zero. -/
def encode : Instr → PortCommand
  | .init => ⟨commandWord 0x01 0, 0, 0, []⟩
  | .write address data => ⟨commandWord 0x02 0, address, BitVec.ofNat 32 data.length, data⟩
  | .erase address length => ⟨commandWord 0x03 0, address, length, []⟩
  | .writeChecksum => ⟨commandWord 0x04 0, 0, 0, []⟩
  | .verifyChecksum => ⟨commandWord 0x05 0, 0, 0, []⟩
  | .finalize => ⟨commandWord 0x06 0, 0, 0, []⟩
  | .noByteThisTick => ⟨commandWord 0x10 0, 0, 0, []⟩
  | .byteReceived b => ⟨commandWord 0x11 b, 0, 0, []⟩
  | .frameReceived payload =>
    ⟨commandWord 0x12 (BitVec.ofNat 8 (payload.take 255).length), 0, 0, payload.take 255⟩
  | .resolve clock rate => ⟨commandWord 0x20 0, clock, rate, []⟩

/-- `n` bytes of a number from bit `lo` up, the lowest first. -/
def bytesFrom (w lo : Nat) : Nat → List Byte
  | 0 => []
  | n + 1 => BitVec.ofNat 8 (w >>> lo) :: bytesFrom w (lo + 8) n

/-- The port command whose bits are the low `nbits` of `w` (log 27): bits 31..0 are CW; for the formats AL, ALD and CR bits
63..32 are ADDR and 95..64 LEN; the stream bytes of ALD follow from bit 96, those of F from bit 32; every bit above `nbits`
is 0. -/
def tableCommand (nbits w : Nat) : PortCommand :=
  let v := w % 2 ^ nbits
  let cw : Word := BitVec.ofNat 32 v
  let addr : Word := BitVec.ofNat 32 (v >>> 32)
  let len : Word := BitVec.ofNat 32 (v >>> 64)
  match findOp cw with
  | some .write => ⟨cw, addr, len, bytesFrom v 96 len.toNat⟩
  | some .erase => ⟨cw, addr, len, []⟩
  | some .resolve => ⟨cw, addr, len, []⟩
  | some .frameReceived => ⟨cw, 0, 0, bytesFrom v 32 (arg8Of cw).toNat⟩
  | _ => ⟨cw, 0, 0, []⟩

/-- The instruction the decoder reads from an instruction whose bits are `w`, numbered as spec/opcode_table.json numbers
them. -/
def decodeTableWord (nbits w : Nat) : Option Instr :=
  match decode (tableCommand nbits w) with
  | .ok (i, _) => some i
  | .error _ => none

end Sys2Proof
end

