-- ==== Sys2Proof/Machine/Memory.lean ====
section
/-! DEFINITION. The flash array as plain data (R25, R40): a list of (address, byte) cells in one canonical form, and the raw
reads and writes of it (R11 `MemRead`, `MemWrite`; R47). -/

namespace Sys2Proof.Machine

/-- The content of the flash array: addresses strictly rising, and no cell that holds what an unlisted address reads as. -/
abbrev Flash := List Host.Cell

/-- What a flash byte that nothing has written reads as. DESIGN CHOICE (log 8), unsafe: the spec gives the array no initial
content; the default ERASED_BYTE (R6) is taken, as of a device never programmed. -/
def Flash.unlisted : Byte := 0xFF

/-- The canonical form from address `lo` up: addresses rise strictly from `lo`, and no cell holds the unlisted byte. -/
def Flash.wfFrom (lo : Nat) : Flash → Bool
  | [] => true
  | (k, v) :: rest => decide (lo ≤ k) && (v != Flash.unlisted) && Flash.wfFrom (k + 1) rest

/-- The canonical form of the flash array, in which equal contents are equal data. -/
def Flash.wf (f : Flash) : Bool := Flash.wfFrom 0 f

/-- The byte at an address: a raw read, no side effect (R44, R47). -/
def Flash.read : Flash → Nat → Byte
  | [], _ => Flash.unlisted
  | (k, v) :: rest, a => if a = k then v else Flash.read rest a

/-- Replaces the byte at an address, keeping the canonical form. -/
def Flash.write : Flash → Nat → Byte → Flash
  | [], a, v => if v = Flash.unlisted then [] else [(a, v)]
  | (k, w) :: rest, a, v =>
    if a < k then (if v = Flash.unlisted then (k, w) :: rest else (a, v) :: (k, w) :: rest)
    else if a = k then (if v = Flash.unlisted then rest else (a, v) :: rest)
    else (k, w) :: Flash.write rest a v

/-- `MemRead(addr, n)` (R11): `n` bytes in increasing address order. -/
def Flash.readBytes (f : Flash) (a : Nat) : Nat → List Byte
  | 0 => []
  | n + 1 => f.read a :: Flash.readBytes f (a + 1) n

/-- `MemWrite(addr, n, v)` (R11): byte `i` of the list goes to `addr + i`. -/
def Flash.writeBytes (f : Flash) (a : Nat) : List Byte → Flash
  | [] => f
  | v :: rest => Flash.writeBytes (f.write a v) (a + 1) rest

end Sys2Proof.Machine
end

