-- ==== Sys2Proof/Config.lean ====
section
/-! DEFINITION. The configuration record CFG (R5 to R8), whose values the spec leaves open, and the answers the environment
gives (R109, R192). A configuration is a field of the state, read by every operation and written by none (R20), so a
statement about all states is a statement about all configurations. The constants without a body at the end are the free
values: nothing in Lean can evaluate them. -/

namespace Sys2Proof

/-- One entry of the Sector Table `T` (R5, R20). -/
structure Sector where
  start : Address
  size : Word
  number : Byte
deriving DecidableEq, Repr, Inhabited

/-- One entry of CAN_TABLE (R8, R30, R151). -/
structure CanEntry where
  tseg1 : Byte
  tseg2 : Byte
deriving DecidableEq, Repr, Inhabited

/-- WORD_ORDER (R6, R41, D18): how a 32-bit word lies in flash and in the boot buffer. -/
inductive WordOrder where
  | le
  | be
deriving DecidableEq, Repr, Inhabited

/-- ZERO_LEN_RESULT (R6, D6): the result of a `write` or `erase` of length zero. -/
inductive ZeroLenResult where
  | ok
  | outOfRange
deriving DecidableEq, Repr, Inhabited

/-- TRANSPORT_KIND (R7, R68): what one poll of the transport delivers. -/
inductive TransportKind where
  | stream
  | frame
deriving DecidableEq, Repr, Inhabited

/-- CFG: every implementation parameter the spec leaves open (R5 to R8, and the list at the end of 92_eei_decisions.md). -/
structure Config where
  /-- `T`, the Sector Table (R5, R20) -/
  sectors : List Sector
  /-- BLOCK_SIZE (R5) -/
  blockSize : Nat
  /-- CHECKSUM_OFFSET (R6) -/
  checksumOffset : Nat
  /-- PROGRAM_TIMEOUT_MS (R6) -/
  programTimeout : Nat
  /-- ERASE_TIMEOUT_MS (R6) -/
  eraseTimeout : Nat
  /-- ERASED_BYTE (R6) -/
  erasedByte : Byte
  /-- WORD_ORDER (R6) -/
  wordOrder : WordOrder
  /-- ZERO_LEN_RESULT (R6) -/
  zeroLenResult : ZeroLenResult
  /-- ERASE_DROPS_BUFFERS (R6) -/
  eraseDropsBuffers : Bool
  /-- MAX_PAYLOAD (R7) -/
  maxPayload : Byte
  /-- RX_TIMEOUT in milliseconds (R7) -/
  rxTimeout : Nat
  /-- SIG0, first byte of CONNECT_SIG (R7, R70) -/
  sig0 : Byte
  /-- SIG1, second byte of CONNECT_SIG (R7, R70) -/
  sig1 : Byte
  /-- TRANSPORT_KIND (R7) -/
  transportKind : TransportKind
  /-- CAN_TABLE (R8) -/
  canTable : List CanEntry
  /-- PRESCALER_MIN (R8) -/
  prescalerMin : Nat
  /-- PRESCALER_MAX (R8) -/
  prescalerMax : Nat
deriving DecidableEq, Repr, Inhabited

/-- What `Poll` returns (R107). -/
inductive PollOutcome where
  | inTime
  | late
deriving DecidableEq, Repr, Inhabited

/-- `nvm.status` (R27). -/
inductive NvmStatus where
  | ok
  | fault
deriving DecidableEq, Repr, Inhabited

/-- The draw `(fin, status, content, dt)` of the NVM oracle for one physical operation (R109), with the number of service
callbacks made while it was polled (R111). It is raw input: an operation takes it through `Machine.legalDraw`, which makes
it meet the constraints of R109. -/
structure NvmDraw where
  fin : PollOutcome
  status : NvmStatus
  content : List Byte
  dt : Nat
  services : Nat
deriving DecidableEq, Repr, Inhabited

/-- How the environment answers one physical operation that the engine is about to start. -/
inductive NvmAnswer where
  /-- the operation runs and its outcome is this draw (R109) -/
  | outcome (d : NvmDraw)
  /-- the device of the premises R110: an erase, and a program of a range that reads ERASED_BYTE throughout, succeed as
  intended, taking the draw's `dt` and `services`; for a program of any other range the draw stands as it is (log 21) -/
  | sound (d : NvmDraw)
  /-- power is lost after the engine's last step and before this operation is started (R192) -/
  | cutBefore
  /-- power is lost while this operation is in flight; its range then holds these bytes, any value (R192) -/
  | cutDuring (content : List Byte)
deriving DecidableEq, Repr, Inhabited

/-- FREE VALUE (log 9): the NVM oracle's answer when the state's own list of answers is used up, one for each value of the
state's counter (R109; U2, U9, U13). -/
opaque Config.freeNvmAnswer : Nat → NvmAnswer

/-- FREE VALUE (log 11): byte `i` of the content an operation leaves where its draw lists no byte, one for each value of the
state's counter (R109: content is one byte for every address of the range). -/
opaque Config.freeContentByte : Nat → Nat → Byte

/-- FREE VALUE (log 13): FLAG after a flash command other than `verify_checksum`, one for each value of the state's counter
(R66, U8). -/
opaque Config.freeFlag : Nat → Bool

/-- FREE VALUE (log 12): PRESC after a `resolve` that failed, a value of its 16 bits (R66, U8). -/
opaque Config.freePresc : Nat → BitVec 16

/-- FREE VALUE (log 12): TSEG1 after a `resolve` that failed (R66, U8). -/
opaque Config.freeTseg1 : Nat → Byte

/-- FREE VALUE (log 12): TSEG2 after a `resolve` that failed (R66, U8). -/
opaque Config.freeTseg2 : Nat → Byte

end Sys2Proof
end

