-- ==== Sys2Proof/Machine/Parameters.lean ====
section
/-! DEFINITION. What is computed from CFG alone: the derived constants of R21, the sector lookup of R100, the
well-formedness of R9, and the configuration the reset state carries. -/

namespace Sys2Proof

/-- `SectorEnd` of an entry (R21): the first address after the sector, at most 2^32. -/
def Sector.stop (x : Sector) : Nat := x.start.toNat + x.size.toNat

/-- The sector holds the address (R100). -/
def Sector.has (x : Sector) (a : Nat) : Bool := decide (x.start.toNat ≤ a) && decide (a < x.stop)

/-- NSECT (R21). -/
def Config.nsect (c : Config) : Nat := c.sectors.length

/-- ADDR_LO, the start of `T[0]` (R21). -/
def Config.addrLo (c : Config) : Nat :=
  match c.sectors with
  | [] => 0
  | x :: _ => x.start.toNat

/-- ADDR_HI, the end of the last sector (R21). -/
def Config.addrHi (c : Config) : Nat :=
  match c.sectors.getLast? with
  | none => 0
  | some x => x.stop

/-- BOOT_BASE, "the boot sector's base" (R21). -/
def Config.bootBase (c : Config) : Nat := c.addrLo

/-- CHK_ADDR, the address of the checksum word (R21). -/
def Config.chkAddr (c : Config) : Nat := c.bootBase + c.checksumOffset

/-- VEC(j), the address of vector word `j` (R21). -/
def Config.vec (c : Config) (j : Nat) : Nat := c.bootBase + 4 * j

/-- BlockBase(a) (R21). -/
def Config.blockBase (c : Config) (a : Nat) : Nat := a - a % c.blockSize

/-- The index, counted from `k`, of the first sector of the list that holds the address. -/
def findSector (a : Nat) : List Sector → Nat → Option Nat
  | [], _ => none
  | x :: rest, k => if x.has a then some k else findSector a rest (k + 1)

/-- `SectorOf(a)` (R100). -/
def Config.sectorOf (c : Config) (a : Nat) : Option Nat := findSector a c.sectors 0

/-- Every address of `[a, a + n)` lies in some sector of `T`. -/
def Config.covered (c : Config) (a : Nat) : Nat → Bool
  | 0 => true
  | n + 1 => (c.sectorOf a).isSome && Config.covered c (a + 1) n

/-- R9(c), (d): each sector ends before the next begins, and starts and numbers rise strictly. -/
def sectorsOrdered : List Sector → Bool
  | [] => true
  | [_] => true
  | x :: y :: rest =>
    decide (x.start.toNat < y.start.toNat) && decide (x.stop ≤ y.start.toNat) &&
      decide (x.number.toNat < y.number.toNat) && sectorsOrdered (y :: rest)

/-- R9(b), (e) for one sector. -/
def Config.sectorOk (c : Config) (x : Sector) : Bool :=
  decide (0 < x.size.toNat) && decide (x.stop ≤ 2 ^ 32) &&
    (x.start.toNat % c.blockSize == 0) && (x.size.toNat % c.blockSize == 0)

/-- Total time quanta of an entry of CAN_TABLE (R151). -/
def CanEntry.quanta (e : CanEntry) : Nat := 1 + e.tseg1.toNat + e.tseg2.toNat

/-- R9(i): the entries are in non-decreasing order of their time quanta. -/
def canOrdered : List CanEntry → Bool
  | [] => true
  | [_] => true
  | x :: y :: rest => decide (x.quanta ≤ y.quanta) && canOrdered (y :: rest)

/-- Well-formedness of CFG, R9 (a) to (i). -/
def Config.wf (c : Config) : Bool :=
  !c.sectors.isEmpty && decide (c.sectors.length ≤ 256) &&
    c.sectors.all c.sectorOk &&
    sectorsOrdered c.sectors &&
    decide (0 < c.blockSize) &&
    decide (24 ≤ c.checksumOffset) && decide (c.checksumOffset + 4 ≤ c.blockSize) &&
    decide (1 ≤ c.maxPayload.toNat) &&
    decide (1 ≤ c.prescalerMin) && decide (c.prescalerMin ≤ c.prescalerMax) &&
    c.canTable.all (fun e => decide (8 ≤ e.quanta) && decide (e.quanta ≤ 25)) &&
    canOrdered c.canTable

/-- The default CAN_TABLE of R154. -/
def defaultCanTable : List CanEntry :=
  [⟨5, 2⟩, ⟨6, 2⟩, ⟨6, 3⟩, ⟨7, 3⟩, ⟨8, 3⟩, ⟨9, 3⟩, ⟨9, 4⟩, ⟨10, 4⟩, ⟨11, 4⟩,
    ⟨12, 4⟩, ⟨12, 5⟩, ⟨13, 5⟩, ⟨14, 5⟩, ⟨15, 5⟩, ⟨15, 6⟩, ⟨16, 6⟩, ⟨16, 7⟩, ⟨16, 8⟩]

/-- CFG-A of 95_test_vectors.md, section 1, the configuration the reset state carries. DESIGN CHOICE (log 1): the spec leaves
these values open and gives CFG-A as its example. -/
def Config.cfgA : Config where
  sectors := [⟨0x2000, 0x40, 2⟩, ⟨0x2040, 0x40, 3⟩, ⟨0x2100, 0x80, 5⟩]
  blockSize := 32
  checksumOffset := 24
  programTimeout := 10
  eraseTimeout := 500
  erasedByte := 0xFF
  wordOrder := .le
  zeroLenResult := .ok
  eraseDropsBuffers := true
  maxPayload := 64
  rxTimeout := 100
  sig0 := 0xFF
  sig1 := 0x00
  transportKind := .stream
  canTable := defaultCanTable
  prescalerMin := 1
  prescalerMax := 1024

end Sys2Proof
end

