-- ==== Sys2Proof/Machine/State.lean ====
section
/-! DEFINITION. The state of HAP-FWE (R20 to R36), the reasons a step stops, and the state after reset. Everything is plain
data. -/

namespace Sys2Proof.Machine

/-- Why a step faults. The machine stops. -/
inductive Fault where
  /-- A raw read, a program or an erase reaches an address in no sector of `T`, where the model knows no device (R25, R46;
  log 18). Raised by `load`, `physicalOp` and `verify_checksum`; never in a state that meets the invariant R23. Safe: the
  machine stops. -/
  | noDevice (address : Nat)
deriving DecidableEq, Repr

/-- Why a step is refused: no step is defined, and the refusal is the mark on the run. -/
inductive Refusal where
  /-- An instruction that has no meaning in this model yet; raised by `exec` only. Safe. -/
  | notModelled (mnemonic : String)
  /-- The presented command is no operation of the block (R67, U6), or its DATA bytes are missing (log 16). Raised by
  `step`. Safe. -/
  | illegalCommand (e : DecodeError)
  /-- CFG is not well formed (R9, U7). Raised by every operation, and by `step` whatever arrives or does not. Safe. -/
  | illFormedConfig
  /-- `write`, `erase`, `write_checksum` or `finalize` before the first `init` since reset (R86(c), U3). Safe. -/
  | notInitialised
  /-- A physical operation would be started after a command raised Timeout (R86(d), R199, U4). Safe. -/
  | afterTimeout
  /-- A physical operation would be started while `nvm.busy` is true (R108, U5). Safe. -/
  | nvmBusy
  /-- The activation event of the transport kind this build does not have (R68, U14). Safe. -/
  | wrongTransport
deriving DecidableEq, Repr

/-- An event of the trace (R33). -/
inductive Event where
  | program (base : Address)
  | erase (start : Address)
  | trigger
  | service
deriving DecidableEq, Repr

/-- A WriteBlock that holds staged data (R22): `base` is the flash address of `buffer[0]`. -/
structure WriteBlock where
  base : Address
  buffer : List Byte
deriving DecidableEq, Repr

/-- The two WriteBlock slots (R22). -/
inductive Slot where
  | generic
  | boot
deriving DecidableEq, Repr

/-- The activation machine's state (R28, R29). The length, the start time and the payload exist in Receiving only (U12);
`payload` holds the bytes appended so far, oldest first. -/
inductive ApmState where
  | idle
  | receiving (length : Byte) (startTime : Nat) (payload : List Byte)
deriving DecidableEq, Repr

/-- `apm.received` (R28): the payload bytes appended so far (log 24). -/
def ApmState.received : ApmState → Nat
  | .idle => 0
  | .receiving _ _ payload => payload.length

/-- The flash range of a physical operation (R109). -/
structure FlashRange where
  start : Nat
  size : Nat
deriving DecidableEq, Repr

/-- What arrives at the block from outside. -/
inductive PortInput where
  /-- a command presented at the port after `elapsed` milliseconds (R12(1), R130) -/
  | command (elapsed : Nat) (c : PortCommand)
  /-- a reset, which a loss of power between two commands also is (R190, R192); `content` is what the range of an operation
  still in flight then holds, any value -/
  | reset (content : List Byte)
  /-- the NVM hardware ends an operation that was still busy after a Timeout, at a time it chooses (R32, R199): the fault it
  then reports, if any, and what the range of the operation then holds, any value (U2) -/
  | nvmDone (status : NvmStatus) (content : List Byte)
deriving DecidableEq, Repr

/-- Everything the spec gives the machine (INVENTORY.md, State), and three fields of the model's own at the end. -/
structure State where
  /-- CFG, read-only (R20, R36) -/
  cfg : Config
  /-- `init` has run since reset (R86(c); log 3) -/
  initialised : Bool
  /-- a command has raised Timeout since reset (R86(d), R199; log 4) -/
  timedOut : Bool
  /-- `blk[Generic]`: none when `valid` is false (R22) -/
  generic : Option WriteBlock
  /-- `blk[Boot]`: none when `valid` is false (R22) -/
  boot : Option WriteBlock
  /-- the flash array (R25) -/
  flash : Flash
  /-- the millisecond counter (R26) -/
  now : Nat
  /-- the range of the operation the NVM hardware is busy with, if any (R35(c), R36; log 28); `nvm.busy` is
  `State.nvmBusy` -/
  inFlight : Option FlashRange
  /-- `nvm.status` (R27) -/
  nvmStatus : NvmStatus
  /-- the activation machine (R28, R29) -/
  apm : ApmState
  /-- in-register CW (R31) -/
  cw : Word
  /-- in-register ADDR (R31) -/
  addr : Word
  /-- in-register LEN (R31) -/
  len : Word
  /-- the DATA stream (R31) -/
  data : List Byte
  /-- out-register RESULT (R31, R66) -/
  result : BitVec 8
  /-- out-register FLAG (R31, R66) -/
  flag : Bool
  /-- out-register PRESC, held as a number (R31, R153; log 14) -/
  presc : Nat
  /-- out-register TSEG1 (R31) -/
  tseg1 : Byte
  /-- out-register TSEG2 (R31) -/
  tseg2 : Byte
  /-- the event trace, oldest first (R33) -/
  trace : List Event
  /-- the model's own: the inputs still to arrive, in order (log 15) -/
  inbox : List PortInput
  /-- the model's own: the NVM oracle's next answers, in order (log 9) -/
  nvmAnswers : List NvmAnswer
  /-- the model's own: the counter the free values are applied to (log 20) -/
  freeCount : Nat
deriving DecidableEq, Repr

/-- `nvm.busy` (R27): a started program or erase has not completed. -/
def State.nvmBusy (s : State) : Bool := s.inFlight.isSome

/-- The machine right after reset, as R36 gives it. The registers R36 leaves unspecified hold the values logs 2, 5, 6 and 7
name; the configuration is log 1's; no flash byte is listed (log 8). -/
def State.reset : State where
  cfg := Config.cfgA
  initialised := false
  timedOut := false
  generic := none
  boot := none
  flash := []
  now := 0
  inFlight := none
  nvmStatus := .ok
  apm := .idle
  cw := 0
  addr := 0
  len := 0
  data := []
  result := 0
  flag := false
  presc := 0
  tseg1 := 0
  tseg2 := 0
  trace := []
  inbox := []
  nvmAnswers := []
  freeCount := 0

end Sys2Proof.Machine
end

