-- ==== Sys2Proof/Machine/Flags.lean ====
section
/-! DEFINITION. The error kinds and RESULT codes (R66, R160) and the out-registers of the port (R31, R66). The block has no
condition codes (R32). -/

namespace Sys2Proof.Machine

/-- The five error kinds, a closed taxonomy (R160). -/
inductive EngineError where
  | outOfRange
  | unknownSector
  | timeout
  | hardwareFault
  | verifyMismatch
deriving DecidableEq, Repr

/-- The RESULT code of an error kind (R66, R160). -/
def EngineError.code : EngineError → BitVec 8
  | .outOfRange => 0x01
  | .unknownSector => 0x02
  | .timeout => 0x03
  | .hardwareFault => 0x04
  | .verifyMismatch => 0x05

/-- The RESULT code of `Ok` (R66). -/
def codeOk : BitVec 8 := 0x00

/-- Writes RESULT (R66). The other out-registers keep their values (R31). -/
def State.setResult (s : State) (code : BitVec 8) : State := { s with result := code }

/-- Writes FLAG (R66). -/
def State.setFlag (s : State) (b : Bool) : State := { s with flag := b }

/-- The out-registers after a flash command other than `verify_checksum` (R66): RESULT holds the code, FLAG is any value (U8),
the free value of the state's counter (log 13), and PRESC, TSEG1 and TSEG2 keep theirs (R31). -/
def State.answer (s : State) (code : BitVec 8) : State :=
  { s with result := code, flag := Config.freeFlag s.freeCount, freeCount := s.freeCount + 1 }

/-- RESULT and FLAG after an activation event (R66): RESULT is 0, FLAG says whether the event fired the trigger. -/
def State.setEventFlags (s : State) (fired : Bool) : State := (s.setResult codeOk).setFlag fired

/-- The out-registers after a `resolve` that succeeded (R66, R150). -/
def State.setTiming (s : State) (p : Nat) (e : CanEntry) : State :=
  { s with result := codeOk, flag := true, presc := p, tseg1 := e.tseg1, tseg2 := e.tseg2 }

/-- The out-registers after a `resolve` that failed: FLAG is 0 and PRESC, TSEG1 and TSEG2 are unspecified (R66, U8), free
values of the state's counter (log 12). -/
def State.setTimingFailed (s : State) : State :=
  { s with
    result := codeOk
    flag := false
    presc := (Config.freePresc s.freeCount).toNat
    tseg1 := Config.freeTseg1 s.freeCount
    tseg2 := Config.freeTseg2 s.freeCount
    freeCount := s.freeCount + 1 }

end Sys2Proof.Machine
end

