-- ==== Sys2Proof/Machine/Operands.lean ====
section
/-! DEFINITION. The operand forms that carry a number: the 32-bit vector and checksum words under WORD_ORDER (R10 `Word` and
`Bytes`, R41) and the checksum function (R87). -/

namespace Sys2Proof.Machine

/-- `Word(b0, b1, b2, b3)` of four bytes at increasing addresses (R10). -/
def wordOf (order : WordOrder) (b0 b1 b2 b3 : Byte) : Word :=
  match order with
  | .le => b3 ++ b2 ++ b1 ++ b0
  | .be => b0 ++ b1 ++ b2 ++ b3

/-- `Bytes(w)`, the inverse of `Word` (R10): the four bytes at increasing addresses. -/
def bytesOf (order : WordOrder) (w : Word) : List Byte :=
  match order with
  | .le => [w.extractLsb' 0 8, w.extractLsb' 8 8, w.extractLsb' 16 8, w.extractLsb' 24 8]
  | .be => [w.extractLsb' 24 8, w.extractLsb' 16 8, w.extractLsb' 8 8, w.extractLsb' 0 8]

/-- The word at byte offset `i` of a buffer. In a buffer shorter than `i + 4` bytes, which no state that meets the invariant
holds, a missing byte counts as 0. -/
def wordInBuffer (order : WordOrder) (buffer : List Byte) (i : Nat) : Word :=
  wordOf order (buffer.getD i 0) (buffer.getD (i + 1) 0) (buffer.getD (i + 2) 0) (buffer.getD (i + 3) 0)

/-- The word at a flash address, read raw (R84). -/
def wordInFlash (order : WordOrder) (f : Flash) (a : Nat) : Word :=
  wordOf order (f.read a) (f.read (a + 1)) (f.read (a + 2)) (f.read (a + 3))

/-- The sum of the six vector words modulo 2^32 (R87). -/
def vectorSum (w : Nat → Word) : Word := w 0 + w 1 + w 2 + w 3 + w 4 + w 5

/-- `Checksum(w0, ..., w5)`: the two's complement of the sum (R87). -/
def checksum (w : Nat → Word) : Word := -vectorSum w

/-- The checksum of the six vector words in a boot block's buffer (R83). -/
def bufferChecksum (order : WordOrder) (buffer : List Byte) : Word :=
  checksum fun j => wordInBuffer order buffer (4 * j)

/-- The sum `verify_checksum` tests: the six vector words and the checksum word, read raw from flash (R84). -/
def flashSum (c : Config) (f : Flash) : Word :=
  vectorSum (fun j => wordInFlash c.wordOrder f (c.vec j)) + wordInFlash c.wordOrder f c.chkAddr

end Sys2Proof.Machine
end

