-- ==== Sys2Proof/Machine/Ops.lean ====
section
/-! DEFINITION. The named operations over the state: the slots, the trace, the command port, reset and power loss (R190,
R192), the way an engine command runs and ends, `raise` among them (R86, R167), and the physical operation of the NVM
hardware (R107 to R111). -/

namespace Sys2Proof.Machine

/-! ### Slots and trace -/

/-- `blk[S]`: none when its `valid` flag is false (R22). -/
def State.slot (s : State) : Slot → Option WriteBlock
  | .generic => s.generic
  | .boot => s.boot

/-- Writes `blk[S]`; none clears `valid` (R22, R32). -/
def State.setSlot (s : State) (S : Slot) (b : Option WriteBlock) : State :=
  match S with
  | .generic => { s with generic := b }
  | .boot => { s with boot := b }

/-- `emit ev` (R33). -/
def State.emit (s : State) (ev : Event) : State := { s with trace := s.trace ++ [ev] }

/-- `Trigger()`, the Activation Trigger: an event and nothing else (R137; log 26). -/
def State.fireTrigger (s : State) : State := s.emit .trigger

/-! ### Reset and power loss -/

/-- Exactly `n` bytes of content: the given ones, then free bytes of the counter `k` where none is listed (R109; log 11). -/
def fitContent (k : Nat) : Nat → List Byte → List Byte
  | 0, _ => []
  | n + 1, [] => Config.freeContentByte k n :: fitContent k n []
  | n + 1, v :: rest => v :: fitContent k n rest

/-- Flash once an operation in flight is over, because power was lost (R36, R192) or because the hardware ended it after a
Timeout (R199, U2): kept, but for the range of that operation, which holds any value. -/
def State.flashSettled (s : State) (content : List Byte) : Flash :=
  match s.inFlight with
  | none => s.flash
  | some r => s.flash.writeBytes r.start (fitContent s.freeCount r.size content)

/-- The state after a reset or a loss of power (R36, R190, R192): CFG and flash stay, everything in RAM and every register is
as right after reset, the hardware is idle and the trace empty. Time does not run backwards (log 7), and what the outside
will do next stays its own choice (log 17). -/
def State.powerReset (s : State) (content : List Byte) : State :=
  { State.reset with
    cfg := s.cfg
    flash := s.flashSettled content
    now := s.now
    inbox := s.inbox
    nvmAnswers := s.nvmAnswers
    freeCount := s.freeCount + 1 }

/-! ### How an engine command runs -/

/-- Where a piece of an engine command's pseudocode stands. -/
inductive Run (α : Type) where
  /-- it goes on with this value and state -/
  | ok (a : α) (s : State)
  /-- `raise e`: the command ends in this state (R167) -/
  | raised (e : EngineError) (s : State)
  /-- power was lost in this state; the range of an operation in flight then holds this content (R192) -/
  | powerLost (content : List Byte) (s : State)
  /-- the spec defines no step (R199, R108) -/
  | refused (r : Refusal)
  /-- the machine stops -/
  | fault (f : Fault)
deriving DecidableEq, Repr

/-- Sequencing: the rest of the pseudocode runs only where the piece before it went on (R86(b)). -/
def Run.andThen {α β : Type} (r : Run α) (k : α → State → Run β) : Run β :=
  match r with
  | .ok a s => k a s
  | .raised e s => .raised e s
  | .powerLost content s => .powerLost content s
  | .refused r => .refused r
  | .fault f => .fault f

/-- `raise e`, the entry of every error (R167): the command stops, RESULT takes the code (FLAG is U8's any value, log 13),
control goes back to the issuer; nothing is saved, no mode changes and no handler runs. There is no return operation beside it (R170): the issuer issues its
next command. -/
def State.takeError (s : State) (e : EngineError) : State := s.answer e.code

/-- The end of an engine command (R86, R167, R192). -/
def finish (r : Run Unit) : Host.Outcome State Fault Refusal :=
  match r with
  | .ok _ s => .next (s.answer codeOk)
  | .raised e s => .next (s.takeError e)
  | .powerLost content s => .next (s.powerReset content)
  | .refused r => .refused r
  | .fault f => .fault f

/-- Every operation is defined for a well-formed CFG only (R9, U7). -/
def configured (s : State) (k : Host.Outcome State Fault Refusal) : Host.Outcome State Fault Refusal :=
  if s.cfg.wf then k else .refused .illFormedConfig

/-- An engine command that needs `init` to have run since reset (R86(c), U3; the order of these tests: log 22). -/
def engineCommand (body : State → Run Unit) (s : State) : Host.Outcome State Fault Refusal :=
  configured s (if s.initialised then finish (body s) else .refused .notInitialised)

/-! ### The physical operation of the NVM hardware -/

/-- The two physical operations the engine starts (R108): the program of a WriteBlock at its base, the erase of a sector. -/
inductive NvmOp where
  | program (b : WriteBlock)
  | erase (x : Sector)
deriving DecidableEq, Repr

/-- The first address of the operation's range (R109). -/
def NvmOp.start : NvmOp → Nat
  | .program b => b.base.toNat
  | .erase x => x.start.toNat

/-- The number of bytes of the operation's range (R109). -/
def NvmOp.span (c : Config) : NvmOp → Nat
  | .program _ => c.blockSize
  | .erase x => x.size.toNat

/-- T_MAX of the operation (R105, R106). -/
def NvmOp.limit (c : Config) : NvmOp → Nat
  | .program _ => c.programTimeout
  | .erase _ => c.eraseTimeout

/-- The event the start emits (R105, R106). -/
def NvmOp.event : NvmOp → Event
  | .program b => .program b.base
  | .erase x => .erase x.start

/-- What the range holds when the operation does what it is for (R109(c), R110). -/
def NvmOp.intended (c : Config) : NvmOp → List Byte
  | .program b => b.buffer
  | .erase x => List.replicate x.size.toNat c.erasedByte

/-- The operation's range (R109). -/
def NvmOp.range (c : Config) (op : NvmOp) : FlashRange := ⟨op.start, op.span c⟩

/-- The operation is an erase that its draw reports as completed in time without fault (R109(c)). -/
def eraseSucceeds (op : NvmOp) (d : NvmDraw) : Bool :=
  match op with
  | .program _ => false
  | .erase _ => decide (d.fin = .inTime) && decide (d.status = .ok)

/-- A draw made to meet the constraints of R109 (log 10): (b) Late takes longer than T_MAX; (c) an erase that completes in
time with status Ok leaves ERASED_BYTE throughout; (d) otherwise the content is the draw's, one byte for every address. -/
def legalDraw (c : Config) (k : Nat) (op : NvmOp) (d : NvmDraw) : NvmDraw :=
  { d with
    content := if eraseSucceeds op d then op.intended c else fitContent k (op.span c) d.content
    dt := if d.fin = .late then max d.dt (op.limit c + 1) else d.dt }

/-- Every byte of `[a, a + n)` reads ERASED_BYTE. -/
def erasedRange (c : Config) (f : Flash) (a n : Nat) : Bool :=
  (f.readBytes a n).all (fun v => decide (v = c.erasedByte))

/-- The premises R110 apply to the operation: it is an erase of a sector, or a program of a range that is erased. -/
def premisesApply (c : Config) (f : Flash) (op : NvmOp) : Bool :=
  match op with
  | .program b => erasedRange c f b.base.toNat c.blockSize
  | .erase _ => true

/-- What an operation that works as intended draws (R110), with the draw's own duration and service count. -/
def intendedDraw (c : Config) (op : NvmOp) (d : NvmDraw) : NvmDraw :=
  { fin := .inTime, status := .ok, content := op.intended c, dt := d.dt, services := d.services }

/-- `clear_status()` (R108). -/
def State.clearStatus (s : State) : State := { s with nvmStatus := .ok }

/-- `start_program(address, data)` and `start_erase(address)`: the hardware is busy; the start is on the trace (R105, R106,
R108). -/
def State.startNvm (s : State) (op : NvmOp) : State := { s.emit op.event with inFlight := some (op.range s.cfg) }

/-- The step of R109: the range holds the drawn content, `now` advances by `dt`, `busy` and `status` are as drawn, and the
service callback ran as often as drawn (R111; log 19). After Late the operation is still in flight (R35(c); logs 23 and
28). -/
def State.completeNvm (s : State) (op : NvmOp) (d : NvmDraw) : State :=
  { s with
    flash := s.flash.writeBytes op.start d.content
    now := s.now + d.dt
    inFlight := if d.fin = .late then s.inFlight else none
    nvmStatus := d.status
    trace := s.trace ++ List.replicate d.services .service }

/-- A driver flag after the hardware reported: Fault sticks until `clear_status` (R27, R32). -/
def reportedStatus (sticky status : NvmStatus) : NvmStatus :=
  match status with
  | .fault => .fault
  | .ok => sticky

/-- The hardware ends the operation it was still busy with after a Timeout: it clears `nvm.busy`, may set `nvm.status` to Fault
(R32), and leaves any value in the range of the operation (U2; log 28). Where none is in flight nothing happens. The mark of
the Timeout stays (R199). -/
def State.endFlight (s : State) (status : NvmStatus) (content : List Byte) : State :=
  match s.inFlight with
  | none => s
  | some _ =>
    { s with
      flash := s.flashSettled content
      inFlight := none
      nvmStatus := reportedStatus s.nvmStatus status
      freeCount := s.freeCount + 1 }

/-- The NVM oracle's next answer: the head of the state's list, or the free value of its counter (log 9). The counter
advances, so that no free value is used twice. -/
def State.nextAnswer (s : State) : NvmAnswer × State :=
  match s.nvmAnswers with
  | a :: rest => (a, { s with nvmAnswers := rest, freeCount := s.freeCount + 1 })
  | [] => (Config.freeNvmAnswer s.freeCount, { s with freeCount := s.freeCount + 1 })

/-- The operation runs to the outcome its draw gives and the sequencer checks timeout, then status (R105 to R107, R168): Late
raises Timeout, after which no physical operation is started until reset (R199); status Fault raises HardwareFault. -/
def runDraw (op : NvmOp) (d : NvmDraw) (s : State) : Run Unit :=
  let t := (s.clearStatus.startNvm op).completeNvm op d
  match d.fin with
  | .late => .raised .timeout { t with timedOut := true }
  | .inTime =>
    match t.nvmStatus with
    | .fault => .raised .hardwareFault t
    | .ok => .ok () t

/-- One physical operation, from `clear_status` to the status check: the part `ProgramBlock` and `EraseSector` share (R105,
R106). It is refused after a Timeout (R199) and while the hardware is busy (R108), and power may be lost before or in it
(R192). -/
def physicalOp (op : NvmOp) (s : State) : Run Unit :=
  if s.timedOut then .refused .afterTimeout
  else if s.nvmBusy then .refused .nvmBusy
  else if !s.cfg.covered op.start (op.span s.cfg) then .fault (.noDevice op.start)
  else
    match s.nextAnswer with
    | (.outcome d, t) => runDraw op (legalDraw s.cfg s.freeCount op d) t
    | (.sound d, t) =>
      if premisesApply s.cfg s.flash op then runDraw op (intendedDraw s.cfg op d) t
      else runDraw op (legalDraw s.cfg s.freeCount op d) t
    | (.cutBefore, t) => .powerLost [] t
    | (.cutDuring content, t) => .powerLost content (t.clearStatus.startNvm op)

/-! ### The command port -/

/-- What the block takes from its port. -/
inductive Taken where
  /-- nothing has arrived: the block is passive (R190) -/
  | nothing
  /-- the input was no command but a reset, or the end of an operation in flight: the state after it -/
  | outside (s : State)
  /-- a command arrived that is no operation of the block (R67) -/
  | illegal (e : DecodeError)
  /-- an operation to run, in the state with its operands latched -/
  | instr (i : Instr) (s : State)
deriving DecidableEq, Repr

/-- The port latches a presented command (R31): time has advanced, CW, ADDR and LEN hold the presented words, and the
presented bytes are at the end of the DATA stream (logs 16 and 28). -/
def State.latch (s : State) (elapsed : Nat) (c : PortCommand) : State :=
  { s with now := s.now + elapsed, cw := c.cw, addr := c.addr, len := c.len, data := s.data ++ c.data }

/-- Takes the next input and decodes it. A command's stream bytes leave the DATA stream (R63, R65). -/
def takeInput (s : State) : Taken :=
  match s.inbox with
  | [] => .nothing
  | .reset content :: rest => .outside ({ s with inbox := rest }.powerReset content)
  | .nvmDone status content :: rest => .outside ({ s with inbox := rest }.endFlight status content)
  | .command elapsed c :: rest =>
    let t := { s with inbox := rest }.latch elapsed c
    match decode ⟨t.cw, t.addr, t.len, t.data⟩ with
    | .error e => .illegal e
    | .ok (i, left) => .instr i { t with data := left }

end Sys2Proof.Machine
end

