-- ==== Sys2Proof/Machine/Activation.lean ====
section
/-! DEFINITION. The Activation Packet State Machine (R130 to R139): one event, one transition. -/

namespace Sys2Proof.Machine

/-- `Match(p, n)` (R136): the payload's first two bytes are CONNECT_SIG; a payload of fewer bytes never matches. -/
def matchConnect (c : Config) (payload : List Byte) : Bool :=
  match payload with
  | b0 :: b1 :: _ => decide (b0 = c.sig0) && decide (b1 = c.sig1)
  | _ => false

/-- A complete payload is inspected: the trigger fires if it is CONNECT, and FLAG says so (R132, R135, R136, R137). -/
def inspect (payload : List Byte) (s : State) : State :=
  if matchConnect s.cfg payload then s.fireTrigger.setEventFlags true else s.setEventFlags false

/-- `Idle + byte_received(len_byte)` (R131). -/
def acceptLength (b : Byte) (s : State) : State :=
  if 0 < b.toNat ∧ b.toNat ≤ s.cfg.maxPayload.toNat then
    { s.setEventFlags false with apm := .receiving b s.now [] }
  else s.setEventFlags false

/-- `Receiving + byte_received(b)` (R132): the byte is appended; a complete packet is inspected and dropped. -/
def acceptPayload (length : Byte) (startTime : Nat) (payload : List Byte) (b : Byte) (s : State) : State :=
  if (payload ++ [b]).length = length.toNat then { inspect (payload ++ [b]) s with apm := .idle }
  else { s.setEventFlags false with apm := .receiving length startTime (payload ++ [b]) }

/-- A tick with no unit available (R133, R134): a packet older than RX_TIMEOUT is abandoned. -/
def emptyTick (s : State) : State :=
  match s.apm with
  | .idle => s.setEventFlags false
  | .receiving _ startTime _ =>
    if startTime + s.cfg.rxTimeout < s.now then { s.setEventFlags false with apm := .idle }
    else s.setEventFlags false

/-- An event that only one kind of transport delivers (R68, U14). -/
def onTransport (kind : TransportKind) (s t : State) : Host.Outcome State Fault Refusal :=
  configured s (if s.cfg.transportKind = kind then .next t else .refused .wrongTransport)

/-- `no_byte_this_tick` (R133, R134): legal under either transport kind (R68). -/
def execNoByteThisTick (s : State) : Host.Outcome State Fault Refusal := configured s (.next (emptyTick s))

/-- `byte_received` (R131 in Idle, R132 in Receiving). -/
def execByteReceived (b : Byte) (s : State) : Host.Outcome State Fault Refusal :=
  onTransport .stream s
    (match s.apm with
    | .idle => acceptLength b s
    | .receiving length startTime payload => acceptPayload length startTime payload b s)

/-- `frame_received` (R135): the whole frame is the payload; the machine's state is not touched. -/
def execFrameReceived (payload : List Byte) (s : State) : Host.Outcome State Fault Refusal :=
  onTransport .frame s (inspect payload s)

end Sys2Proof.Machine
end

