-- ==== Sys2Proof/Machine/Can.lean ====
section
/-! DEFINITION. The CAN Bit-Timing Resolver (R150 to R153). -/

namespace Sys2Proof.Machine

/-- The entry divides the clock exactly with a prescaler in range (R150). A rate of zero divides nothing. -/
def canCandidate (c : Config) (clock rate : Nat) (e : CanEntry) : Bool :=
  decide (rate * e.quanta ≠ 0) && decide (clock % (rate * e.quanta) = 0) &&
    decide (c.prescalerMin ≤ clock / (rate * e.quanta)) && decide (clock / (rate * e.quanta) ≤ c.prescalerMax)

/-- The search of R150: the first candidate in table order, with its prescaler, or none. All arithmetic is in `Nat` (R153). -/
def resolveTiming (c : Config) (clock rate : Nat) : Option (Nat × CanEntry) :=
  (c.canTable.find? (canCandidate c clock rate)).map fun e => (clock / (rate * e.quanta), e)

/-- `resolve(clock, rate)` (R150, R66). -/
def execResolve (clock rate : Word) (s : State) : Host.Outcome State Fault Refusal :=
  configured s
    (match resolveTiming s.cfg clock.toNat rate.toNat with
    | some (p, e) => .next (s.setTiming p e)
    | none => .next s.setTimingFailed)

end Sys2Proof.Machine
end

