-- ==== Sys2Proof/Machine/Sequencer.lean ====
section
/-! DEFINITION. The internal procedures of the Flash Write Engine (R100 to R106, R112, R113). -/

namespace Sys2Proof.Machine

/-- The range test both requests begin with: `[a, a + n)` lies in `[ADDR_LO, ADDR_HI)`, in `Nat` (R101, D4). -/
def inRegion (c : Config) (a n : Nat) : Bool := decide (c.addrLo ≤ a) && decide (a + n ≤ c.addrHi)

/-- `Validate_write(address, length)` (R101): the error it raises, or none. -/
def validateWrite (c : Config) (a n : Nat) : Option EngineError :=
  if !inRegion c a n then some .outOfRange
  else if !c.covered a n then some .unknownSector
  else none

/-- `Validate_erase(address, length)` (R101): the error it raises, or the sector indices of the first and the last byte. -/
def validateErase (c : Config) (a n : Nat) : Except EngineError (Nat × Nat) :=
  if !inRegion c a n then .error .outOfRange
  else
    match c.sectorOf a, c.sectorOf (a + n - 1) with
    | some kf, some kl => .ok (kf, kl)
    | _, _ => .error .unknownSector

/-- `Route(address)` (R102). -/
def route (c : Config) (a : Nat) : Slot := if c.blockBase a = c.bootBase then .boot else .generic

/-- Cases 1 and 2 of the block switch (R103): the slot that is to hold base `B` when the current slot is `S`. -/
def activeSlot (c : Config) (S : Slot) (B : Nat) : Slot :=
  match S with
  | .boot => if B = c.bootBase then .boot else .generic
  | .generic => if B = c.bootBase then .boot else .generic

/-- The block switch as the pure function of R112: the slot to flush, if any, and the new active slot, from the current slot,
the new base and the generic slot's state. -/
def switchPlan (c : Config) (S : Slot) (B : Nat) (generic : Option WriteBlock) : Option Slot × Slot :=
  match activeSlot c S B with
  | .boot => (none, .boot)
  | .generic =>
    match generic with
    | none => (none, .generic)
    | some b => (if b.base.toNat = B then none else some .generic, .generic)

/-- `Load(S, B)`: the slot holds the block at `B` as flash has it (R104, D8). -/
def load (S : Slot) (B : Nat) (s : State) : Run Slot :=
  if s.cfg.covered B s.cfg.blockSize then
    .ok S (s.setSlot S (some ⟨BitVec.ofNat 32 B, s.flash.readBytes B s.cfg.blockSize⟩))
  else .fault (.noDevice B)

/-- `Stage(S, a, v)`: one byte of a valid slot (R113). -/
def stage (S : Slot) (a : Nat) (v : Byte) (s : State) : State :=
  match s.slot S with
  | none => s
  | some b => s.setSlot S (some { b with buffer := b.buffer.set (a - b.base.toNat) v })

/-- The read-back of `ProgramBlock` (R105): every byte of the block against the buffer. -/
def readBack (b : WriteBlock) (s : State) : Run Unit :=
  if s.flash.readBytes b.base.toNat s.cfg.blockSize = b.buffer then .ok () s else .raised .verifyMismatch s

/-- `ProgramBlock(S)` for the block the slot holds (R105): one physical program operation, then the read-back. -/
def programBlock (b : WriteBlock) (s : State) : Run Unit :=
  (physicalOp (.program b) s).andThen fun _ t => readBack b t

/-- `EraseSector(k)` for the sector of that index (R106): no read-back follows. -/
def eraseSector (x : Sector) (s : State) : Run Unit := physicalOp (.erase x) s

/-- `Target(S, B)`, the block switch (R103): the slot that holds base `B` afterwards. -/
def target (S : Slot) (B : Nat) (s : State) : Run Slot :=
  match s.slot (activeSlot s.cfg S B) with
  | none => load (activeSlot s.cfg S B) B s
  | some b =>
    if b.base.toNat = B then .ok (activeSlot s.cfg S B) s
    else (programBlock b s).andThen fun _ t => load (activeSlot s.cfg S B) B t

/-- The slot is valid and holds base `B` (R81, R103). -/
def State.holdsBase (s : State) (S : Slot) (B : Nat) : Bool :=
  match s.slot S with
  | none => false
  | some b => decide (b.base.toNat = B)

/-- The slot the next byte goes to: the current one if it holds the byte's block, else `Target`'s (R81). -/
def nextSlot (S : Slot) (B : Nat) (s : State) : Run Slot :=
  if s.holdsBase S B then .ok S s else target S B s

/-- The loop of `write` over the bytes still to stage, the next one at address `a` (R81). -/
def writeLoop : List Byte → Slot → Nat → State → Run Unit
  | [], _, _, s => .ok () s
  | v :: rest, S, a, s =>
    (nextSlot S (s.cfg.blockBase a) s).andThen fun S' t => writeLoop rest S' (a + 1) (stage S' a v t)

/-- The loop of `erase` over the sectors still to erase, ascending (R82, D13). -/
def eraseLoop : List Sector → State → Run Unit
  | [], s => .ok () s
  | x :: rest, s => (eraseSector x s).andThen fun _ t => eraseLoop rest t

/-- The slot's block lies in a sector of index `kf` to `kl` (R82). -/
def blockInSectors (c : Config) (kf kl : Nat) (b : WriteBlock) : Bool :=
  match c.sectorOf b.base.toNat with
  | none => false
  | some k => decide (kf ≤ k) && decide (k ≤ kl)

/-- Under ERASE_DROPS_BUFFERS every valid slot whose base lies in a sector to be erased becomes invalid (R82, D12). -/
def dropSlots (kf kl : Nat) (s : State) : State :=
  if s.cfg.eraseDropsBuffers then
    { s with
      generic := s.generic.filter fun b => !blockInSectors s.cfg kf kl b
      boot := s.boot.filter fun b => !blockInSectors s.cfg kf kl b }
  else s

/-- The sectors of index `kf` to `kl`, in table order (R82, R100). -/
def sectorsBetween (c : Config) (kf kl : Nat) : List Sector := (c.sectors.drop kf).take (kl + 1 - kf)

/-- `return ZERO_LEN_RESULT`, the result of a request of length zero (R81, R82, D6). -/
def zeroLength (s : State) : Run Unit :=
  match s.cfg.zeroLenResult with
  | .ok => .ok () s
  | .outOfRange => .raised .outOfRange s

/-- Commits one slot if it is valid, and makes it invalid (R85). -/
def commitSlot (S : Slot) (s : State) : Run Unit :=
  match s.slot S with
  | none => .ok () s
  | some b => (programBlock b s).andThen fun _ t => .ok () (t.setSlot S none)

end Sys2Proof.Machine
end

