-- ==== Sys2Proof/Machine/Engine.lean ====
section
/-! DEFINITION. The six commands of the Flash Write Engine (R80 to R85), under the conventions of R86. -/

namespace Sys2Proof.Machine

/-- The body of `init()` (R80): both slots become invalid. It starts no operation and needs no earlier `init`. -/
def runInit (s : State) : Run Unit :=
  .ok () { (s.setSlot .generic none).setSlot .boot none with initialised := true }

/-- The body of `write(address, length, data)` (R81). -/
def runWrite (address : Nat) (bytes : List Byte) (s : State) : Run Unit :=
  if bytes.length = 0 then zeroLength s
  else
    match validateWrite s.cfg address bytes.length with
    | some e => .raised e s
    | none => writeLoop bytes (route s.cfg address) address s

/-- The body of `erase(address, length)` (R82). -/
def runErase (address length : Nat) (s : State) : Run Unit :=
  if length = 0 then zeroLength s
  else
    match validateErase s.cfg address length with
    | .error e => .raised e s
    | .ok (kf, kl) => eraseLoop (sectorsBetween s.cfg kf kl) (dropSlots kf kl s)

/-- The body of `write_checksum()` (R83): nothing if the boot slot is invalid, else a `write` of the checksum of the words the
boot buffer holds. -/
def runWriteChecksum (s : State) : Run Unit :=
  match s.boot with
  | none => .ok () s
  | some b =>
    runWrite s.cfg.chkAddr (bytesOf s.cfg.wordOrder (bufferChecksum s.cfg.wordOrder b.buffer)) s

/-- The body of `finalize()` (R85): the generic slot first, the boot slot last (D14). -/
def runFinalize (s : State) : Run Unit :=
  (commitSlot .generic s).andThen fun _ t => commitSlot .boot t

/-- `init` (R80). -/
def execInit (s : State) : Host.Outcome State Fault Refusal := configured s (finish (runInit s))

/-- `write` (R81). -/
def execWrite (address : Address) (bytes : List Byte) (s : State) : Host.Outcome State Fault Refusal :=
  engineCommand (runWrite address.toNat bytes) s

/-- `erase` (R82). -/
def execErase (address : Address) (length : Word) (s : State) : Host.Outcome State Fault Refusal :=
  engineCommand (runErase address.toNat length.toNat) s

/-- `write_checksum` (R83). -/
def execWriteChecksum (s : State) : Host.Outcome State Fault Refusal := engineCommand runWriteChecksum s

/-- `verify_checksum` (R84): a raw read of the seven words; it needs no `init`. FLAG is the answer, RESULT is 0. -/
def execVerifyChecksum (s : State) : Host.Outcome State Fault Refusal :=
  configured s
    (if s.cfg.covered s.cfg.bootBase 24 && s.cfg.covered s.cfg.chkAddr 4 then
      .next ((s.setResult codeOk).setFlag (decide (flashSum s.cfg s.flash = 0)))
    else .fault (.noDevice s.cfg.bootBase))

/-- `finalize` (R85). -/
def execFinalize (s : State) : Host.Outcome State Fault Refusal := engineCommand runFinalize s

end Sys2Proof.Machine
end

