-- ==== Sys2Proof/Machine/Dispatch.lean ====
section
/-! DEFINITION. One arm per operation of the block (R60). -/

namespace Sys2Proof.Machine

def exec (i : Instr) (s : State) : Host.Outcome State Fault Refusal :=
  match i with
  | .init => Sys2Proof.Machine.execInit s
  | .write address data => Sys2Proof.Machine.execWrite address data s
  | .erase address length => Sys2Proof.Machine.execErase address length s
  | .writeChecksum => Sys2Proof.Machine.execWriteChecksum s
  | .verifyChecksum => Sys2Proof.Machine.execVerifyChecksum s
  | .finalize => Sys2Proof.Machine.execFinalize s
  | .noByteThisTick => Sys2Proof.Machine.execNoByteThisTick s
  | .byteReceived b => Sys2Proof.Machine.execByteReceived b s
  | .frameReceived payload => Sys2Proof.Machine.execFrameReceived payload s
  | .resolve clock rate => Sys2Proof.Machine.execResolve clock rate s

end Sys2Proof.Machine
end

