-- ==== Sys2Proof/Machine/Step.lean ====
section
/-! DEFINITION. One step of the block: the next input is taken from the port and run to completion (R12, R86(a)). -/

namespace Sys2Proof.Machine

/-- One step, under a well-formed CFG only (R9): nothing where nothing has arrived (R190), a reset or the end of an operation
in flight, a refused command (R67), or one operation, run to its end (logs 15 and 25). -/
def step (s : State) : Host.Outcome State Fault Refusal :=
  configured s
    (match takeInput s with
    | .nothing => .next s
    | .outside t => .next t
    | .illegal e => .refused (.illegalCommand e)
    | .instr i t => exec i t)

/-- The state with an instruction, its bits numbered as spec/opcode_table.json numbers them, as the next input at the port,
presented without delay, and nothing before its bytes on the DATA stream (log 27). -/
def State.withFetchWord (s : State) (nbits w : Nat) : State :=
  { s with data := [], inbox := .command 0 (tableCommand nbits w) :: s.inbox }

end Sys2Proof.Machine
end

