-- ==== Sys2Proof/Safety.lean ====
section
/-! DEFINITION. The terms in which claims about the block are stated: the invariant every step keeps (R9, R20, R23, R28, R46),
the staged view of flash (R35, R47, R48), which physical operations a trace shows, the premises on the NVM hardware (R110),
and which fields an engine command may change. -/

namespace Sys2Proof.Machine

/-! ### The invariant -/

/-- The block at `B` lies inside one sector of `T` (R23(d)). -/
def blockInside (c : Config) (B : Nat) : Prop :=
  ∃ x ∈ c.sectors, x.start.toNat ≤ B ∧ B + c.blockSize ≤ x.stop

/-- A valid slot: its base is a multiple of BLOCK_SIZE, its buffer has BLOCK_SIZE bytes and its block lies inside one sector
(R22, R23(a), (d)). -/
structure SlotOk (c : Config) (b : WriteBlock) : Prop where
  aligned : b.base.toNat % c.blockSize = 0
  length : b.buffer.length = c.blockSize
  inside : blockInside c b.base.toNat

/-- In Receiving, `0 < length <= MAX_PAYLOAD` and `received < length` (R28); the packet began in the past, and only a Stream
build receives one (R135). -/
def ApmOk (c : Config) (now : Nat) : ApmState → Prop
  | .idle => True
  | .receiving length startTime payload =>
    0 < length.toNat ∧ length.toNat ≤ c.maxPayload.toNat ∧ payload.length < length.toNat ∧
      startTime ≤ now ∧ c.transportKind = .stream

/-- A started operation lies inside a sector of `T`: a program is of an aligned block, an erase of a whole sector (R42,
R46). -/
def EventOk (c : Config) : Event → Prop
  | .program B => B.toNat % c.blockSize = 0 ∧ blockInside c B.toNat
  | .erase a => ∃ x ∈ c.sectors, x.start = a
  | .trigger => True
  | .service => True

/-- What holds of every state a run from reset reaches: CFG is well formed (R9), flash is in its canonical form, the slots
meet R23 and hold nothing before `init` (R36), the hardware is busy only after a Timeout and only inside `T` (R199), the
activation machine meets R28, and every operation on the trace was started inside `T` (R46). -/
structure State.Inv (s : State) : Prop where
  config : s.cfg.wf = true
  flash : s.flash.wf = true
  generic : ∀ b, s.generic = some b → SlotOk s.cfg b ∧ b.base.toNat ≠ s.cfg.bootBase
  boot : ∀ b, s.boot = some b → SlotOk s.cfg b ∧ b.base.toNat = s.cfg.bootBase
  beforeInit : s.initialised = false → s.generic = none ∧ s.boot = none
  flight : ∀ r, s.inFlight = some r → s.timedOut = true ∧ s.cfg.covered r.start r.size = true
  apm : ApmOk s.cfg s.now s.apm
  trace : ∀ ev ∈ s.trace, EventOk s.cfg ev

/-- A state in which an engine command runs: the invariant holds, `init` has run (R86(c)) and no Timeout has been raised
since reset (R86(d)). -/
structure State.Ready (s : State) : Prop where
  inv : s.Inv
  initialised : s.initialised = true
  notTimedOut : s.timedOut = false

/-! ### The staged view of flash -/

/-- The byte a WriteBlock holds for a flash address, if it covers it (R22, R40(b)). -/
def WriteBlock.byteAt (b : WriteBlock) (a : Nat) : Option Byte :=
  if b.base.toNat ≤ a then b.buffer[a - b.base.toNat]? else none

/-- The byte staged for a flash address, if a valid slot covers it. By R23 no two slots cover the same address. -/
def State.staged (s : State) (a : Nat) : Option Byte :=
  (s.boot.bind (·.byteAt a)).or (s.generic.bind (·.byteAt a))

/-- What a flash address will read once everything staged is committed: the staged byte where a valid slot covers the
address, else the byte of the array (R35, R48). -/
def State.view (s : State) (a : Nat) : Byte := (s.staged a).getD (s.flash.read a)

/-- The address lies in the block at `B`. -/
def inBlock (c : Config) (B a : Nat) : Prop := B ≤ a ∧ a < B + c.blockSize

/-- The address lies in BOOT_RANGE (R21). -/
def inBootRange (c : Config) (a : Nat) : Prop := inBlock c c.bootBase a

/-- The address lies in the block of a valid slot. -/
def inSlot (c : Config) (b : Option WriteBlock) (a : Nat) : Prop :=
  ∃ w, b = some w ∧ inBlock c w.base.toNat a

/-- The address lies in a block, other than the boot block, that the request `[address, address + n)` names a byte of. -/
def inGenericBlockOf (c : Config) (address n a : Nat) : Prop :=
  ∃ i < n, c.blockBase (address + i) ≠ c.bootBase ∧ inBlock c (c.blockBase (address + i)) a

/-- The base the generic slot holds, if it is valid (R22). -/
def State.genericBase (s : State) : Option Nat := s.generic.map (·.base.toNat)

/-- The bases the generic slot holds, oldest first, from the base `g` it holds (or none) on, while the first `n` bytes of a
request from `address` on are routed: a byte of another block than the boot block and than the one held switches it (R102,
R103). -/
def genericBases (c : Config) (g : Option Nat) (address : Nat) : Nat → List Nat
  | 0 => g.toList
  | n + 1 =>
    if c.blockBase address = c.bootBase ∨ g = some (c.blockBase address) then genericBases c g (address + 1) n
    else g.toList ++ genericBases c (some (c.blockBase address)) (address + 1) n

/-- The bases the generic slot holds, oldest first, once the first `n` bytes of a request from `address` on are staged. -/
def State.genericBases (s : State) (address n : Nat) : List Nat :=
  Machine.genericBases s.cfg s.genericBase address n

/-! ### Traces -/

/-- The event is the start of a physical operation (R33). -/
def Event.isPhysical : Event → Bool
  | .program _ => true
  | .erase _ => true
  | .trigger => false
  | .service => false

/-- The physical operations a trace shows, oldest first (R33). -/
def State.physical (s : State) : List Event := s.trace.filter (·.isPhysical)

/-- How many physical program operations of the boot block the trace shows (R33, R48(c)). -/
def State.bootPrograms (s : State) : Nat := s.trace.count (.program (BitVec.ofNat 32 s.cfg.bootBase))

/-! ### Premises on the environment -/

/-- The answer does not cut the power (R192). -/
def keepsPower : NvmAnswer → Bool
  | .outcome _ => true
  | .sound _ => true
  | .cutBefore => false
  | .cutDuring _ => false

/-- The next `n` physical operations are answered without loss of power. -/
def State.Powered (s : State) (n : Nat) : Prop :=
  ∀ k < n, ∃ a, s.nvmAnswers[k]? = some a ∧ keepsPower a = true

/-- The premises NVM_ERASE_OK and NVM_PROGRAM_ERASED_OK hold of the next `n` physical operations (R110). -/
def State.Dependable (s : State) (n : Nat) : Prop :=
  ∀ k < n, ∃ d, s.nvmAnswers[k]? = some (.sound d)

/-- The `n`-th next physical operation, if an erase, succeeds: it meets NVM_ERASE_OK (R110), or it is drawn InTime and Ok
(R109(c)). -/
def State.ErasesWell (s : State) (n : Nat) : Prop :=
  ∃ d, s.nvmAnswers[n]? = some (.sound d) ∨
    (s.nvmAnswers[n]? = some (.outcome d) ∧ d.fin = .inTime ∧ d.status = .ok)

/-- Every byte of the block at `B` reads ERASED_BYTE. -/
def State.BlockErased (s : State) (B : Nat) : Prop :=
  ∀ a, inBlock s.cfg B a → s.flash.read a = s.cfg.erasedByte

/-- The `n`-th next physical operation, if a program of the block at `B`, takes the draw `d` as it stands: the premises of R110
are not claimed of it, or do not apply because the block is not erased. -/
def State.Draws (s : State) (n B : Nat) (d : NvmDraw) : Prop :=
  s.nvmAnswers[n]? = some (.outcome d) ∨ (s.nvmAnswers[n]? = some (.sound d) ∧ ¬ s.BlockErased B)

/-- The `n`-th next physical operation, if a program of `b`, succeeds: it meets NVM_PROGRAM_ERASED_OK (R110), or it is drawn
InTime and Ok with the buffer as content (R109). -/
def State.ProgramsWell (s : State) (n : Nat) (b : WriteBlock) : Prop :=
  ∃ d, (s.nvmAnswers[n]? = some (.sound d) ∧ s.BlockErased b.base.toNat) ∨
    (s.Draws n b.base.toNat d ∧ d.fin = .inTime ∧ d.status = .ok ∧ d.content.take s.cfg.blockSize = b.buffer)

/-- The draw fails a program of `b`: it is Late, or its status is Fault, or it lists a byte that differs from the buffer's
(R105). -/
def failsProgram (c : Config) (b : WriteBlock) (d : NvmDraw) : Prop :=
  d.fin = .late ∨ d.status = .fault ∨ ∃ i v, d.content[i]? = some v ∧ i < c.blockSize ∧ b.buffer[i]? ≠ some v

/-! ### Frames -/

/-- `t` is `s` with the answer of a flash command that changed nothing: RESULT holds the code, and FLAG, which U8 leaves any
value, is whatever `t` has (log 13). -/
def Answered (code : BitVec 8) (s t : State) : Prop :=
  t = { s with result := code, flag := t.flag, freeCount := t.freeCount }

/-- `t` differs from `s` only in what an engine command may write: RESULT, FLAG (any value, U8; log 13), the slots, flash, the
driver's state, the time, the trace, the Timeout mark and the model's own oracle fields. CFG, the activation machine, the
port's in-registers, PRESC, TSEG1 and TSEG2 and the inputs to come are as they were (R31). -/
def OnlyEngine (s t : State) : Prop :=
  t = { s with
    result := t.result
    flag := t.flag
    generic := t.generic
    boot := t.boot
    flash := t.flash
    now := t.now
    inFlight := t.inFlight
    nvmStatus := t.nvmStatus
    timedOut := t.timedOut
    trace := t.trace
    nvmAnswers := t.nvmAnswers
    freeCount := t.freeCount }

/-- `t` is the state after reset, but for CFG, what flash holds, the time, and what is still to come from outside (R36,
R192). -/
def AfterReset (s t : State) : Prop :=
  t = { State.reset with
    cfg := s.cfg
    flash := t.flash
    now := t.now
    inbox := s.inbox
    nvmAnswers := t.nvmAnswers
    freeCount := t.freeCount }

/-- The instruction's format presents ADDR and LEN: AL, ALD and CR (R62). -/
def usesAddrLen : Instr → Bool
  | .write _ _ => true
  | .erase _ _ => true
  | .resolve _ _ => true
  | .init => false
  | .writeChecksum => false
  | .verifyChecksum => false
  | .finalize => false
  | .noByteThisTick => false
  | .byteReceived _ => false
  | .frameReceived _ => false

end Sys2Proof.Machine
end

