-- ==== Sys2Proof/Certificates/Slice0/Obligations.lean ====
section
/-! DEFINITION. The statements for the provers. Each docstring names the rule of spec/ it formalises. `s` is any state unless a
hypothesis says otherwise, so every statement holds for every configuration. -/

open Sys2Proof Sys2Proof.Machine

/-! ### Encoding and the port -/

/-- R61 to R65: decoding what the encoder presents for a well-formed instruction gives the instruction back, whatever bytes
follow on the DATA stream, and leaves exactly those bytes. -/
def Obligations.DecodeOfEncodeIsTheInstruction : Prop :=
  ∀ (i : Instr) (rest : List Byte), i.wellFormed = true →
    decode { encode i with data := (encode i).data ++ rest } = .ok (i, rest)

/-- R61, R63, R64: what the decoder accepts is what the encoder presents: the same command word, the same ADDR and LEN where
the format has them, the stream bytes it took followed by those it left; and it yields only well-formed instructions. -/
def Obligations.DecodedCommandEncodesBack : Prop :=
  ∀ (c : PortCommand) (i : Instr) (rest : List Byte), decode c = .ok (i, rest) →
    i.wellFormed = true ∧ (encode i).cw = c.cw ∧ (encode i).data ++ rest = c.data ∧
      (usesAddrLen i = true → (encode i).addr = c.addr ∧ (encode i).len = c.len)

/-- R67: a command word is illegal exactly when its OPC is not in the table, its reserved half is not zero, or ARG8 is not zero
in a format other than B and F; the block refuses it, in every state, and under a well-formed CFG for that reason. -/
def Obligations.IllegalCommandWordsAreRefused : Prop :=
  ∀ c : PortCommand,
    (decode c = .error .illegalWord ↔
      (opcOf c.cw ∉ ([0x01, 0x02, 0x03, 0x04, 0x05, 0x06, 0x10, 0x11, 0x12, 0x20] : List Byte) ∨
        reservedOf c.cw ≠ 0 ∨ (arg8Of c.cw ≠ 0 ∧ opcOf c.cw ≠ 0x11 ∧ opcOf c.cw ≠ 0x12))) ∧
    ∀ (s : State) (elapsed : Nat) (rest : List PortInput),
      s.inbox = .command elapsed c :: rest → decode c = .error .illegalWord →
        (s.cfg.wf = true → step s = .refused (.illegalCommand .illegalWord)) ∧ ∃ r, step s = .refused r

/-- R64: command words written out from the table decode to the operations they stand for, with their operands from ADDR, LEN,
ARG8 and DATA. -/
def Obligations.TableWordsDecodeToTheirOperations : Prop :=
  decode ⟨0x00000001, 0, 0, []⟩ = .ok (.init, []) ∧
  decode ⟨0x00000002, 0x00002040, 4, [0xDE, 0xAD, 0xBE, 0xEF]⟩ = .ok (.write 0x2040 [0xDE, 0xAD, 0xBE, 0xEF], []) ∧
  decode ⟨0x00000003, 0x00002000, 0x80, []⟩ = .ok (.erase 0x2000 0x80, []) ∧
  decode ⟨0x00000004, 0, 0, []⟩ = .ok (.writeChecksum, []) ∧
  decode ⟨0x00000005, 0, 0, []⟩ = .ok (.verifyChecksum, []) ∧
  decode ⟨0x00000006, 0, 0, []⟩ = .ok (.finalize, []) ∧
  decode ⟨0x00000010, 0, 0, []⟩ = .ok (.noByteThisTick, []) ∧
  decode ⟨0x0000FF11, 0, 0, []⟩ = .ok (.byteReceived 0xFF, []) ∧
  decode ⟨0x00000212, 0, 0, [0xFF, 0x00]⟩ = .ok (.frameReceived [0xFF, 0x00], []) ∧
  decode ⟨0x00000020, 0x02255100, 0x0001E848, []⟩ = .ok (.resolve 36000000 125000, [])

/-- R12, R31, R61: a step takes the next presented command, latches it, and runs the instruction it decodes to; the time that
passed before it and the stream bytes it takes are all a step adds around `exec`. (How a command arrives is the model's choice:
logs 15, 16 and 28.) -/
def Obligations.StepRunsTheDecodedInstruction : Prop :=
  ∀ (s : State) (elapsed : Nat) (c : PortCommand) (rest : List PortInput) (i : Instr) (left : List Byte),
    s.inbox = .command elapsed c :: rest →
    decode { c with data := s.data ++ c.data } = .ok (i, left) →
    step s = exec i { s with
      inbox := rest, now := s.now + elapsed, cw := c.cw, addr := c.addr, len := c.len, data := left }

/-- R190: the block is passive until a command or a tick arrives. -/
def Obligations.NothingHappensWithoutInput : Prop :=
  ∀ s : State, s.cfg.wf = true → s.inbox = [] → step s = .next s

/-- R190, R192, R36: a reset leaves the state of reset, but for CFG, flash, the time and what is still to come; flash keeps
every byte outside the range of an operation still in flight. (The registers R36 leaves unspecified, and the time kept, are
the model's choice: logs 2, 5, 6, 7.) -/
def Obligations.ResetKeepsOnlyFlash : Prop :=
  ∀ (s : State) (content : List Byte) (rest : List PortInput), s.cfg.wf = true → s.inbox = .reset content :: rest →
    ∃ t, step s = .next t ∧ AfterReset { s with inbox := rest } t ∧ t.now = s.now ∧
      t.nvmAnswers = s.nvmAnswers ∧
      ∀ a, (∀ r, s.inFlight = some r → a < r.start ∨ r.start + r.size ≤ a) → t.flash.read a = s.flash.read a

/-- R32, R199, U2: the NVM hardware may end an operation that was still busy after a Timeout at any time between two commands:
`nvm.busy` is then false, `nvm.status` is Fault if the hardware reports one and else as it was, flash is kept outside the range
of the operation, the mark of the Timeout stays, and nothing else changes. (That flash may change inside the range until then
is the model's reading of U2: log 28.) -/
def Obligations.TheHardwareEndsAnOperationInFlight : Prop :=
  ∀ (s : State) (status : NvmStatus) (content : List Byte) (r : FlashRange) (rest : List PortInput), s.cfg.wf = true →
    s.inFlight = some r → s.inbox = .nvmDone status content :: rest →
    ∃ t, step s = .next t ∧ t.nvmBusy = false ∧
      t.nvmStatus = (if status = .fault then .fault else s.nvmStatus) ∧
      (∀ a, a < r.start ∨ r.start + r.size ≤ a → t.flash.read a = s.flash.read a) ∧
      t = { s with
        inbox := rest, inFlight := none, nvmStatus := t.nvmStatus, flash := t.flash, freeCount := t.freeCount }

/-- R36: after reset the activation machine is Idle, the NVM hardware is not busy, the trace is empty and no `init` has run. -/
def Obligations.ResetStateIsAsSpecified : Prop :=
  State.reset.apm = .idle ∧ State.reset.nvmBusy = false ∧ State.reset.trace = [] ∧ State.reset.initialised = false ∧
    State.reset.timedOut = false

/-! ### Invariants and whole-machine rules -/

/-- R9, R23, R28, R36: the invariant holds right after reset. (The configuration reset carries, and that its slots are invalid,
are the model's choice: logs 1 and 2.) -/
def Obligations.ResetMeetsTheInvariant : Prop := State.reset.Inv

/-- R23, R28, R46, R20: every step from a state that meets the invariant leaves a state that meets it, whatever the command,
the NVM hardware and the power supply do. -/
def Obligations.EveryStepKeepsTheInvariant : Prop :=
  ∀ s t : State, s.Inv → step s = .next t → t.Inv

/-- R20, R36: no step writes CFG. -/
def Obligations.NoStepChangesTheConfiguration : Prop :=
  ∀ s t : State, step s = .next t → t.cfg = s.cfg

/-- R26: `now` never decreases. -/
def Obligations.TimeNeverRunsBackwards : Prop :=
  ∀ s t : State, step s = .next t → s.now ≤ t.now

/-- R25, R45, R46: no step changes a flash byte that lies in no sector of `T`, the bootloader's own among them. -/
def Obligations.FlashOutsideTheSectorsIsNeverChanged : Prop :=
  ∀ s t : State, s.Inv → step s = .next t → ∀ a, s.cfg.sectorOf a = none → t.flash.read a = s.flash.read a

/-- R48(c), R103(d): no operation but `finalize` programs the boot block, and none but `finalize` and `erase` changes a byte
of BOOT_RANGE. -/
def Obligations.OnlyFinalizeCommitsTheBootBlock : Prop :=
  ∀ (s t : State) (i : Instr), s.Inv → i ≠ .finalize → exec i s = .next t →
    t.bootPrograms ≤ s.bootPrograms ∧
      ((∀ address length, i ≠ .erase address length) →
        ∀ a, inBootRange s.cfg a → t.flash.read a = s.flash.read a)

/-- R9: under a configuration that is not well formed every operation is refused, and so is every step, whatever arrives and
also where nothing does. -/
def Obligations.IllFormedConfigurationIsRefused : Prop :=
  ∀ s : State, s.cfg.wf = false →
    step s = .refused .illFormedConfig ∧ ∀ i : Instr, exec i s = .refused .illFormedConfig

/-- R199, R86(d): after a Timeout no operation starts a physical operation or changes flash, and the mark of the Timeout
stays. -/
def Obligations.NothingReachesFlashAfterATimeout : Prop :=
  ∀ (s t : State) (i : Instr), s.timedOut = true → exec i s = .next t →
    t.flash = s.flash ∧ t.physical = s.physical ∧ t.timedOut = true

/-- R199, R86(d): after a Timeout a `finalize` that has a block to commit, an `erase` of a valid range, and a `write` that must
displace a generic block, are refused: a `write` that names, anywhere, a generic block other than the staged one, or, with the
generic slot invalid, two different generic blocks. -/
def Obligations.PhysicalOperationsAfterATimeoutAreRefused : Prop :=
  ∀ s : State, s.Inv → s.initialised = true → s.timedOut = true →
    ((s.generic ≠ none ∨ s.boot ≠ none) → exec .finalize s = .refused .afterTimeout) ∧
    (∀ address length, 0 < length.toNat → s.cfg.addrLo ≤ address.toNat →
      address.toNat + length.toNat ≤ s.cfg.addrHi → s.cfg.sectorOf address.toNat ≠ none →
      s.cfg.sectorOf (address.toNat + length.toNat - 1) ≠ none →
      exec (.erase address length) s = .refused .afterTimeout) ∧
    (∀ address bytes i, s.cfg.covered address.toNat bytes.length = true → i < bytes.length →
      s.cfg.blockBase (address.toNat + i) ≠ s.cfg.bootBase →
      ((∃ b, s.generic = some b ∧ b.base.toNat ≠ s.cfg.blockBase (address.toNat + i)) ∨
        (s.generic = none ∧ ∃ j < i, s.cfg.blockBase (address.toNat + j) ≠ s.cfg.bootBase ∧
          s.cfg.blockBase (address.toNat + j) ≠ s.cfg.blockBase (address.toNat + i))) →
      exec (.write address bytes) s = .refused .afterTimeout)

/-- R192, R36: where power is lost inside a command, the command leaves the state of reset, but for CFG, flash, the time and
what is still to come. (The registers R36 leaves unspecified, and the time kept, are the model's choice: logs 2, 5, 6, 7 and 17.
A state with `initialised` false after a command that needs `init` is one in which power was lost.) -/
def Obligations.PowerLossInsideACommandIsAReset : Prop :=
  ∀ (s t : State) (i : Instr), s.initialised = true → exec i s = .next t → t.initialised = false → AfterReset s t

/-! ### init -/

/-- R80: `init` makes both slots invalid, answers 0, and changes nothing else; it needs no earlier `init` and no idle hardware,
and runs after a Timeout too. (FLAG is any value, U8: log 13.) -/
def Obligations.InitInvalidatesBothSlots : Prop :=
  ∀ s : State, s.cfg.wf = true →
    ∃ t, exec .init s = .next t ∧ Answered 0 { s with generic := none, boot := none, initialised := true } t

/-- R86(c): before the first `init` since reset the other commands that touch the slots are refused. -/
def Obligations.EngineCommandsBeforeInitAreRefused : Prop :=
  ∀ (s : State) (i : Instr), s.cfg.wf = true → s.initialised = false →
    (i = .writeChecksum ∨ i = .finalize ∨ (∃ address bytes, i = .write address bytes) ∨
      (∃ address length, i = .erase address length)) →
    exec i s = .refused .notInitialised

/-! ### Request validation -/

/-- R161: a `write` or `erase` of at least one byte that exits the addressable region answers OutOfRange and leaves exactly the
state before, but for the answer; the sum is taken in `Nat`. (FLAG, an out-register of the port, is any value, U8: log 13.) -/
def Obligations.OutOfRangeRequestsChangeNothing : Prop :=
  ∀ s : State, s.cfg.wf = true → s.initialised = true →
    (∀ address bytes, bytes ≠ [] →
      (address.toNat < s.cfg.addrLo ∨ s.cfg.addrHi < address.toNat + bytes.length) →
      ∃ t, exec (.write address bytes) s = .next t ∧ Answered 1 s t) ∧
    (∀ address length, length.toNat ≠ 0 →
      (address.toNat < s.cfg.addrLo ∨ s.cfg.addrHi < address.toNat + length.toNat) →
      ∃ t, exec (.erase address length) s = .next t ∧ Answered 1 s t)

/-- R162: in range, a `write` that names a byte in no sector, and an `erase` whose first or last byte is in no sector, answer
UnknownSector and leave exactly the state before, but for the answer. (FLAG is any value, U8: log 13.) -/
def Obligations.RequestsInAGapChangeNothing : Prop :=
  ∀ s : State, s.cfg.wf = true → s.initialised = true →
    (∀ address bytes, bytes ≠ [] → s.cfg.addrLo ≤ address.toNat →
      address.toNat + bytes.length ≤ s.cfg.addrHi →
      (∃ i < bytes.length, s.cfg.sectorOf (address.toNat + i) = none) →
      ∃ t, exec (.write address bytes) s = .next t ∧ Answered 2 s t) ∧
    (∀ address length, length.toNat ≠ 0 → s.cfg.addrLo ≤ address.toNat →
      address.toNat + length.toNat ≤ s.cfg.addrHi →
      (s.cfg.sectorOf address.toNat = none ∨ s.cfg.sectorOf (address.toNat + length.toNat - 1) = none) →
      ∃ t, exec (.erase address length) s = .next t ∧ Answered 2 s t)

/-- R81, R82, R6 (ZERO_LEN_RESULT, D6): a request of length zero answers the configured result, at any address, and changes
nothing else. (FLAG is any value, U8: log 13.) -/
def Obligations.ZeroLengthRequestsChangeNothing : Prop :=
  ∀ (s : State) (address : Address), s.cfg.wf = true → s.initialised = true →
    (∃ t, exec (.write address []) s = .next t ∧ Answered (if s.cfg.zeroLenResult = .ok then 0 else 1) s t) ∧
    ∃ t, exec (.erase address 0) s = .next t ∧ Answered (if s.cfg.zeroLenResult = .ok then 0 else 1) s t

/-- R100: `SectorOf(a)` is the unique index of a sector that holds `a`, or none when no sector does; the sectors whose numbers
lie between those of `T[kf]` and `T[kl]` are exactly those with index `kf` to `kl`. -/
def Obligations.SectorOfIsTheUniqueSector : Prop :=
  ∀ (c : Config) (a : Nat), c.wf = true →
    (∀ k, c.sectorOf a = some k ↔ ∃ x, c.sectors[k]? = some x ∧ x.start.toNat ≤ a ∧ a < x.start.toNat + x.size.toNat) ∧
    (c.sectorOf a = none ↔ ∀ x ∈ c.sectors, ¬ (x.start.toNat ≤ a ∧ a < x.start.toNat + x.size.toNat)) ∧
    (∀ (kf kl k : Nat) (x y z : Sector), c.sectors[kf]? = some x → c.sectors[kl]? = some y → c.sectors[k]? = some z →
      ((x.number.toNat ≤ z.number.toNat ∧ z.number.toNat ≤ y.number.toNat) ↔ (kf ≤ k ∧ k ≤ kl)))

/-! ### write -/

/-- R81, R102, R104, R113: a `write` inside one block whose slot is invalid or already holds that block starts no physical
operation: the slot then holds the block with the bytes staged over what it held, or over what flash holds if it was just
loaded; the answer is 0 and nothing else changes (FLAG is any value, U8: log 13). It does so after a Timeout too (R199). -/
def Obligations.WriteInsideOneBlockOnlyStages : Prop :=
  ∀ (s : State) (address : Address) (bytes : List Byte) (S : Slot) (old : List Byte),
    s.Inv → s.initialised = true → bytes ≠ [] → s.cfg.covered address.toNat bytes.length = true →
    address.toNat + bytes.length ≤ s.cfg.blockBase address.toNat + s.cfg.blockSize →
    S = (if s.cfg.blockBase address.toNat = s.cfg.bootBase then Slot.boot else Slot.generic) →
    ((s.slot S = none ∧ old = s.flash.readBytes (s.cfg.blockBase address.toNat) s.cfg.blockSize) ∨
      s.slot S = some ⟨BitVec.ofNat 32 (s.cfg.blockBase address.toNat), old⟩) →
    ∃ t, exec (.write address bytes) s = .next t ∧
      Answered 0 (s.setSlot S (some
        ⟨BitVec.ofNat 32 (s.cfg.blockBase address.toNat),
          old.take (address.toNat - s.cfg.blockBase address.toNat) ++ bytes ++
            old.drop (address.toNat - s.cfg.blockBase address.toNat + bytes.length)⟩)) t

/-- R48, R81, R103, R104: a `write` that answers Ok changes the staged view of flash at exactly the bytes it names, whatever
blocks it displaced and whatever the device did: no staged byte is lost and no unnamed byte altered. -/
def Obligations.WriteUpdatesTheStagedView : Prop :=
  ∀ (s t : State) (address : Address) (bytes : List Byte), s.Inv → exec (.write address bytes) s = .next t →
    t.initialised = true → t.result = 0 →
    ∀ a, t.view a =
      if address.toNat ≤ a then (bytes[a - address.toNat]?).getD (s.view a) else s.view a

/-- R81, R103, R110: a valid `write`, over any number of blocks, answers Ok on a device that meets the premises of R110, when
the staged generic block and the blocks of the request are erased and the request does not return to the staged generic block
after another one; the staged view is then updated at the named bytes, and only the engine's own state changed (FLAG is any
value, U8: log 13). -/
def Obligations.WriteSucceedsOnADependableDevice : Prop :=
  ∀ (s : State) (address : Address) (bytes : List Byte), s.Ready → bytes ≠ [] →
    s.cfg.covered address.toNat bytes.length = true → s.Dependable bytes.length →
    (∀ b, s.generic = some b → s.BlockErased b.base.toNat) →
    (∀ i < bytes.length, s.cfg.blockBase (address.toNat + i) ≠ s.cfg.bootBase →
      s.BlockErased (s.cfg.blockBase (address.toNat + i))) →
    (∀ b, s.generic = some b → ∀ i < bytes.length, s.cfg.blockBase (address.toNat + i) = b.base.toNat →
      ∀ j < i, s.cfg.blockBase (address.toNat + j) = b.base.toNat ∨
        s.cfg.blockBase (address.toNat + j) = s.cfg.bootBase) →
    ∃ t, exec (.write address bytes) s = .next t ∧ t.initialised = true ∧ t.result = 0 ∧ OnlyEngine s t ∧
      ∀ a, t.view a =
        if address.toNat ≤ a then (bytes[a - address.toNat]?).getD (s.view a) else s.view a

/-- R81, R103, R109: the frame of `write`. Flash changes at most in the block the generic slot held and in the blocks of the
request other than the boot block; where power is not lost, nothing but the engine's own state changes. -/
def Obligations.WriteChangesOnlyGenericBlocks : Prop :=
  ∀ (s t : State) (address : Address) (bytes : List Byte), s.Inv → exec (.write address bytes) s = .next t →
    (∀ a, ¬ inSlot s.cfg s.generic a → ¬ inGenericBlockOf s.cfg address.toNat bytes.length a →
      t.flash.read a = s.flash.read a) ∧
    (t.initialised = true → OnlyEngine s t)

/-- R81 (Errors), D11, R103, R105, R109, R163 to R165, R199: a `write` that ends with Timeout, HardwareFault or VerifyMismatch
loses nothing that was staged. It fails at a byte `n` that switches the generic slot to another block: the outgoing block, the
last one the slot came to hold, stays valid and the new one is not loaded; the bytes before `n` stay staged, the rest are
dropped; the blocks the slot held were programmed in turn, the outgoing one last. Right after it the hardware is busy (R109: busy
is `fin == Late`) and the Timeout marked exactly if the result is Timeout. -/
def Obligations.AFailedWriteKeepsWhatIsStaged : Prop :=
  ∀ (s t : State) (address : Address) (bytes : List Byte), s.Inv → exec (.write address bytes) s = .next t →
    2 < t.result.toNat →
    t.initialised = true ∧ t.result.toNat ≤ 5 ∧ t.timedOut = decide (t.result = 3) ∧ t.nvmBusy = decide (t.result = 3) ∧
      ∃ n < bytes.length, ∃ b, t.generic = some b ∧
        s.cfg.blockBase (address.toNat + n) ≠ s.cfg.bootBase ∧
        s.cfg.blockBase (address.toNat + n) ≠ b.base.toNat ∧
        (s.genericBases address.toNat n).getLast? = some b.base.toNat ∧
        t.physical = s.physical ++ (s.genericBases address.toNat n).map (fun B => Event.program (BitVec.ofNat 32 B)) ∧
        ∀ a, t.view a =
          if address.toNat ≤ a then ((bytes.take n)[a - address.toNat]?).getD (s.view a) else s.view a

/-! ### The block switch -/

/-- R112: the switch as a pure function, row by row of its table. -/
def Obligations.SwitchPlanFollowsTheTable : Prop :=
  ∀ (c : Config) (S : Slot) (B : Nat) (g : Option WriteBlock),
    (B = c.bootBase → switchPlan c S B g = (none, .boot)) ∧
    (B ≠ c.bootBase →
      switchPlan c S B g =
        (if (∃ b, g = some b ∧ b.base.toNat ≠ B) then some Slot.generic else none, .generic))

/-- R103, R112: the block switch does what the pure function plans: it programs the slot to flush, if any, and then loads the
new active slot unless it already holds the base. -/
def Obligations.TargetFollowsTheSwitchPlan : Prop :=
  ∀ (s : State) (S : Slot) (B : Nat), s.Inv →
    target S B s =
      ((match (switchPlan s.cfg S B s.generic).1 with
        | none => Run.ok () s
        | some F =>
          match s.slot F with
          | none => Run.ok () s
          | some b => programBlock b s).andThen fun _ t =>
        if t.holdsBase (switchPlan s.cfg S B s.generic).2 B then Run.ok (switchPlan s.cfg S B s.generic).2 t
        else load (switchPlan s.cfg S B s.generic).2 B t)

/-! ### erase -/

/-- R82, R106, R110: on a device that meets NVM_ERASE_OK an `erase` whose ends lie in sectors `kf` and `kl` answers Ok; every
sector from `kf` to `kl` reads ERASED_BYTE throughout, every other byte of flash is as before, the sectors were erased in
ascending order, and under ERASE_DROPS_BUFFERS exactly the slots of the erased sectors were dropped. -/
def Obligations.EraseErasesWholeSectors : Prop :=
  ∀ (s : State) (address : Address) (length : Word) (kf kl : Nat), s.Ready → length.toNat ≠ 0 →
    s.cfg.sectorOf address.toNat = some kf →
    s.cfg.sectorOf (address.toNat + length.toNat - 1) = some kl → s.Dependable (kl + 1 - kf) →
    ∃ t, exec (.erase address length) s = .next t ∧ t.initialised = true ∧ t.result = 0 ∧ OnlyEngine s t ∧
      (∀ k x a, kf ≤ k → k ≤ kl → s.cfg.sectors[k]? = some x → x.start.toNat ≤ a → a < x.stop →
        t.flash.read a = s.cfg.erasedByte) ∧
      (∀ a, (∀ k, s.cfg.sectorOf a = some k → k < kf ∨ kl < k) → t.flash.read a = s.flash.read a) ∧
      t.physical = s.physical ++ (sectorsBetween s.cfg kf kl).map (fun x => Event.erase x.start) ∧
      (∀ S b, t.slot S = some b ↔ s.slot S = some b ∧
        ¬ (s.cfg.eraseDropsBuffers = true ∧ ∃ k, s.cfg.sectorOf b.base.toNat = some k ∧ kf ≤ k ∧ k ≤ kl))

/-- R82, R109(a): the frame of `erase`. Flash changes at most in the sectors from the one of the first byte to the one of the
last; where power is not lost, nothing but the engine's own state changes and no slot becomes valid or changes its content. -/
def Obligations.EraseChangesOnlyItsSectors : Prop :=
  ∀ (s t : State) (address : Address) (length : Word), s.Inv → exec (.erase address length) s = .next t →
    (∀ a, (∀ kf kl k, length.toNat ≠ 0 → s.cfg.sectorOf address.toNat = some kf →
        s.cfg.sectorOf (address.toNat + length.toNat - 1) = some kl → s.cfg.sectorOf a = some k → k < kf ∨ kl < k) →
      t.flash.read a = s.flash.read a) ∧
    (t.initialised = true → OnlyEngine s t ∧ ∀ S b, t.slot S = some b → s.slot S = some b)

/-- R82 (Errors), R106, R109, R163, R164, R168: where the erases of the sectors of a valid request succeed up to the one of
index `k`, and that one is answered Late, `erase` answers Timeout, and where it completes in time with status Fault,
HardwareFault. The sectors before `k` are erased, those after it and every byte outside are untouched, the erases on the trace
are those up to `k`, exactly the slots that an `erase` of the request drops are dropped, and a Timeout took longer than
ERASE_TIMEOUT_MS. (`nvm.status` after Late: log 23. FLAG is any value, U8: log 13.) -/
def Obligations.EraseStopsAtTheFirstFailure : Prop :=
  ∀ (s : State) (address : Address) (length : Word) (kf kl k : Nat) (d : NvmDraw),
    s.Ready → length.toNat ≠ 0 → s.cfg.sectorOf address.toNat = some kf →
    s.cfg.sectorOf (address.toNat + length.toNat - 1) = some kl → kf ≤ k → k ≤ kl →
    (∀ n < k - kf, s.ErasesWell n) → s.nvmAnswers[k - kf]? = some (.outcome d) → (d.fin = .late ∨ d.status = .fault) →
    ∃ t, exec (.erase address length) s = .next t ∧ OnlyEngine s t ∧
      t.result = (if d.fin = .late then 3 else 4) ∧
      t.physical = s.physical ++ (sectorsBetween s.cfg kf k).map (fun x => Event.erase x.start) ∧ t.nvmStatus = d.status ∧
      t.nvmBusy = decide (d.fin = .late) ∧ t.timedOut = decide (d.fin = .late) ∧
      (d.fin = .late → s.now + s.cfg.eraseTimeout < t.now) ∧
      (∀ j x a, kf ≤ j → j < k → s.cfg.sectors[j]? = some x → x.start.toNat ≤ a → a < x.stop →
        t.flash.read a = s.cfg.erasedByte) ∧
      (∀ a, (∀ j, s.cfg.sectorOf a = some j → j < kf ∨ k < j) → t.flash.read a = s.flash.read a) ∧
      (∀ S b, t.slot S = some b ↔ s.slot S = some b ∧
        ¬ (s.cfg.eraseDropsBuffers = true ∧ ∃ j, s.cfg.sectorOf b.base.toNat = some j ∧ kf ≤ j ∧ j ≤ kl))

/-! ### write_checksum, verify_checksum and the checksum -/

/-- R87: the checksum is the two's complement of the sum of the six words modulo 2^32, so that the words and the checksum sum
to zero; when the sum is 0 the checksum is 0. -/
def Obligations.ChecksumIsTheTwosComplementOfTheSum : Prop :=
  ∀ w : Nat → Word,
    (checksum w).toNat =
      (2 ^ 32 - ((w 0).toNat + (w 1).toNat + (w 2).toNat + (w 3).toNat + (w 4).toNat + (w 5).toNat) % 2 ^ 32) % 2 ^ 32 ∧
    w 0 + w 1 + w 2 + w 3 + w 4 + w 5 + checksum w = 0

/-- R10: `Bytes` is the inverse of `Word`, under either byte order, and gives four bytes. -/
def Obligations.BytesIsTheInverseOfWord : Prop :=
  ∀ (order : WordOrder) (w : Word) (b0 b1 b2 b3 : Byte),
    bytesOf order (wordOf order b0 b1 b2 b3) = [b0, b1, b2, b3] ∧
    wordInBuffer order (bytesOf order w) 0 = w ∧
    (wordOf .le b0 b1 b2 b3).toNat = b0.toNat + 2 ^ 8 * b1.toNat + 2 ^ 16 * b2.toNat + 2 ^ 24 * b3.toNat ∧
    (wordOf .be b0 b1 b2 b3).toNat = 2 ^ 24 * b0.toNat + 2 ^ 16 * b1.toNat + 2 ^ 8 * b2.toNat + b3.toNat

/-- R83: `write_checksum` does nothing and answers Ok when the boot slot is invalid; otherwise it stages the checksum of the
six words the boot buffer holds at CHECKSUM_OFFSET in that buffer, answers Ok, and changes nothing else. (FLAG is any value, U8:
log 13.) -/
def Obligations.WriteChecksumStagesTheChecksum : Prop :=
  ∀ s : State, s.Inv → s.initialised = true →
    (s.boot = none → ∃ t, exec .writeChecksum s = .next t ∧ Answered 0 s t) ∧
    (∀ b, s.boot = some b →
      ∃ t, exec .writeChecksum s = .next t ∧ Answered 0 { s with
        boot := some ⟨b.base,
          b.buffer.take s.cfg.checksumOffset ++
            bytesOf s.cfg.wordOrder (checksum fun j => wordInBuffer s.cfg.wordOrder b.buffer (4 * j)) ++
            b.buffer.drop (s.cfg.checksumOffset + 4)⟩ } t)

/-- R84: `verify_checksum` reads the six vector words and the checksum word from flash and answers in FLAG whether they sum to
zero modulo 2^32; RESULT is 0 and nothing else changes. It needs no `init`. -/
def Obligations.VerifyChecksumTestsTheSumInFlash : Prop :=
  ∀ s : State, s.cfg.wf = true →
    exec .verifyChecksum s = .next { s with
      result := 0
      flag := decide
        ((((wordInFlash s.cfg.wordOrder s.flash s.cfg.bootBase).toNat +
          (wordInFlash s.cfg.wordOrder s.flash (s.cfg.bootBase + 4)).toNat +
          (wordInFlash s.cfg.wordOrder s.flash (s.cfg.bootBase + 8)).toNat +
          (wordInFlash s.cfg.wordOrder s.flash (s.cfg.bootBase + 12)).toNat +
          (wordInFlash s.cfg.wordOrder s.flash (s.cfg.bootBase + 16)).toNat +
          (wordInFlash s.cfg.wordOrder s.flash (s.cfg.bootBase + 20)).toNat +
          (wordInFlash s.cfg.wordOrder s.flash (s.cfg.bootBase + s.cfg.checksumOffset)).toNat) % 2 ^ 32) = 0) }

/-- R84 corner case 3 (V4): where `verify_checksum` is true, changing any one byte of a vector word in flash makes it
false. -/
def Obligations.AMutatedVectorByteFailsVerification : Prop :=
  ∀ (s : State) (a : Nat) (v : Byte) (t : State), s.Inv →
    s.cfg.bootBase ≤ a → a < s.cfg.bootBase + 24 → v ≠ s.flash.read a →
    exec .verifyChecksum s = .next t → t.flag = true →
    ∃ u, exec .verifyChecksum { s with flash := s.flash.write a v } = .next u ∧ u.flag = false

/-- R83, R84, R85, R87, R193: a session that ends with `write_checksum`, then `finalize`, both answering Ok, with the boot block
staged, leaves flash for which `verify_checksum` is true, on any device. -/
def Obligations.ACompletedSessionVerifies : Prop :=
  ∀ s t u : State, s.Inv → s.boot ≠ none → exec .writeChecksum s = .next t → t.initialised = true →
    exec .finalize t = .next u → u.initialised = true → u.result = 0 →
    ∃ w, exec .verifyChecksum u = .next w ∧ w.flag = true

/-! ### finalize -/

/-- R85, R48(e), R49: a `finalize` that answers Ok leaves both slots invalid and flash equal to the staged view throughout, on
any device; it programs the generic block first and the boot block last, each exactly once. -/
def Obligations.FinalizeCommitsTheStagedView : Prop :=
  ∀ s t : State, s.Inv → exec .finalize s = .next t → t.initialised = true → t.result = 0 →
    t.generic = none ∧ t.boot = none ∧ (∀ a, t.flash.read a = s.view a) ∧
      t.physical = s.physical ++ (s.generic.toList ++ s.boot.toList).map (fun b => Event.program b.base)

/-- R85, R110: on a device that meets NVM_PROGRAM_ERASED_OK, `finalize` answers Ok when the blocks of the valid slots are
erased in flash; both slots are then invalid, flash holds what was staged, and only the engine's own state changed (FLAG is any
value, U8: log 13). -/
def Obligations.FinalizeSucceedsOnADependableDevice : Prop :=
  ∀ s : State, s.Ready → s.Dependable 2 →
    (∀ S b, s.slot S = some b → s.BlockErased b.base.toNat) →
    ∃ t, exec .finalize s = .next t ∧ t.initialised = true ∧ t.result = 0 ∧ OnlyEngine s t ∧
      t.generic = none ∧ t.boot = none ∧ ∀ a, t.flash.read a = s.view a

/-- R85: with both slots invalid `finalize` answers Ok and does nothing, in any state. (FLAG is any value, U8: log 13.) -/
def Obligations.FinalizeWithNothingStagedDoesNothing : Prop :=
  ∀ s : State, s.cfg.wf = true → s.initialised = true → s.generic = none → s.boot = none →
    ∃ t, exec .finalize s = .next t ∧ Answered 0 s t

/-- R85 (Errors), R105, R109, R163 to R165, R168: the first program of `finalize` that fails ends it: Timeout if its draw is
Late, else HardwareFault if the status is Fault, else VerifyMismatch if the content differs from the buffer; a Timeout took
longer than PROGRAM_TIMEOUT_MS. If it is the generic block's, both slots stay as they were and the boot block is not
programmed. If it is the boot block's, with the generic slot invalid or its program successful, the boot slot stays as it was,
the generic slot is invalid, and outside the boot block flash holds what was staged. (`nvm.status` after Late: log 23. FLAG is
any value, U8: log 13.) -/
def Obligations.FinalizeReportsTheFirstFailure : Prop :=
  ∀ (s : State) (b : WriteBlock) (d : NvmDraw), s.Ready → failsProgram s.cfg b d →
    (s.generic = some b → s.Draws 0 b.base.toNat d →
      ∃ t, exec .finalize s = .next t ∧ OnlyEngine s t ∧
        t.result = (if d.fin = .late then 3 else if d.status = .fault then 4 else 5) ∧
        t.generic = s.generic ∧ t.boot = s.boot ∧ t.physical = s.physical ++ [.program b.base] ∧
        t.nvmStatus = d.status ∧ t.nvmBusy = decide (d.fin = .late) ∧ t.timedOut = decide (d.fin = .late) ∧
        (d.fin = .late → s.now + s.cfg.programTimeout < t.now) ∧
        ∀ a, ¬ inBlock s.cfg b.base.toNat a → t.flash.read a = s.flash.read a) ∧
    (s.boot = some b → (∀ g, s.generic = some g → s.ProgramsWell 0 g) → s.Draws s.generic.toList.length b.base.toNat d →
      ∃ t, exec .finalize s = .next t ∧ OnlyEngine s t ∧
        t.result = (if d.fin = .late then 3 else if d.status = .fault then 4 else 5) ∧
        t.generic = none ∧ t.boot = s.boot ∧
        t.physical = s.physical ++ (s.generic.toList ++ [b]).map (fun b => Event.program b.base) ∧
        t.nvmStatus = d.status ∧ t.nvmBusy = decide (d.fin = .late) ∧ t.timedOut = decide (d.fin = .late) ∧
        (d.fin = .late → s.now + s.cfg.programTimeout < t.now) ∧
        ∀ a, ¬ inBlock s.cfg b.base.toNat a → t.flash.read a = s.view a)

/-- R85, R109(a): the frame of `finalize`. Flash changes at most in the blocks of the valid slots; where power is not lost,
nothing but the engine's own state changes. -/
def Obligations.FinalizeChangesOnlyTheStagedBlocks : Prop :=
  ∀ s t : State, s.Inv → exec .finalize s = .next t →
    (∀ a, ¬ inSlot s.cfg s.generic a → ¬ inSlot s.cfg s.boot a → t.flash.read a = s.flash.read a) ∧
    (t.initialised = true → OnlyEngine s t)

/-- R194, R85, R192: where power is lost in `finalize` before the boot block's program, BOOT_RANGE in flash is as it was. Power is
lost before or in the generic block's program, which comes first where the generic slot is valid, or before the boot block's,
which comes first where it is invalid and second where it is valid. -/
def Obligations.PowerLossBeforeTheBootCommitSparesTheBootBlock : Prop :=
  ∀ s t : State, s.Inv → exec .finalize s = .next t →
    (s.generic ≠ none ∧ (∃ x, s.nvmAnswers[0]? = some x ∧ keepsPower x = false)) ∨
      s.nvmAnswers[s.generic.toList.length]? = some .cutBefore →
    ∀ a, inBootRange s.cfg a → t.flash.read a = s.flash.read a

/-! ### The activation machine -/

/-- R131: in Idle a byte is taken as a length; `0 < b <= MAX_PAYLOAD` starts a packet at the tick's time, any other byte is
discarded; FLAG and RESULT are 0, nothing else changes, and the trigger is not invoked. -/
def Obligations.AByteInIdleIsALength : Prop :=
  ∀ (s : State) (b : Byte), s.cfg.wf = true → s.cfg.transportKind = .stream → s.apm = .idle →
    exec (.byteReceived b) s = .next { s with
      apm := if 0 < b.toNat ∧ b.toNat ≤ s.cfg.maxPayload.toNat then .receiving b s.now [] else .idle
      result := 0
      flag := false }

/-- R132, R136, R137: in Receiving a byte is appended, whatever the time; the byte that completes the packet returns the machine
to Idle, and fires the trigger, once, exactly if the payload has at least two bytes and its first two are CONNECT_SIG. -/
def Obligations.AByteInReceivingIsAppended : Prop :=
  ∀ (s : State) (b length : Byte) (startTime : Nat) (payload : List Byte), s.cfg.wf = true →
    s.cfg.transportKind = .stream → s.apm = .receiving length startTime payload →
    (payload.length + 1 ≠ length.toNat →
      exec (.byteReceived b) s = .next { s with
        apm := .receiving length startTime (payload ++ [b]), result := 0, flag := false }) ∧
    (payload.length + 1 = length.toNat →
      ((payload ++ [b])[0]? = some s.cfg.sig0 ∧ (payload ++ [b])[1]? = some s.cfg.sig1 →
        exec (.byteReceived b) s = .next { s with
          apm := .idle, result := 0, flag := true, trace := s.trace ++ [.trigger] }) ∧
      (¬ ((payload ++ [b])[0]? = some s.cfg.sig0 ∧ (payload ++ [b])[1]? = some s.cfg.sig1) →
        exec (.byteReceived b) s = .next { s with apm := .idle, result := 0, flag := false }))

/-- R133, R134: a tick with nothing available abandons a packet exactly when `now > start_time + RX_TIMEOUT`, in `Nat`; in Idle
and before that nothing happens; FLAG and RESULT are 0 and nothing else changes, under either transport kind. -/
def Obligations.AnEmptyTickAbandonsAStalledPacket : Prop :=
  ∀ s : State, s.cfg.wf = true →
    (s.apm = .idle → exec .noByteThisTick s = .next { s with result := 0, flag := false }) ∧
    (∀ length startTime payload, s.apm = .receiving length startTime payload →
      exec .noByteThisTick s = .next { s with
        apm := if startTime + s.cfg.rxTimeout < s.now then .idle else s.apm
        result := 0
        flag := false })

/-- R135, R136, R137: a frame fires the trigger, once, exactly if it has at least two bytes and its first two are CONNECT_SIG;
the machine's state is unchanged and MAX_PAYLOAD and RX_TIMEOUT play no part. -/
def Obligations.AFrameIsInspectedAtOnce : Prop :=
  ∀ (s : State) (payload : List Byte), s.cfg.wf = true → s.cfg.transportKind = .frame →
    (payload[0]? = some s.cfg.sig0 ∧ payload[1]? = some s.cfg.sig1 →
      exec (.frameReceived payload) s = .next { s with
        result := 0, flag := true, trace := s.trace ++ [.trigger] }) ∧
    (¬ (payload[0]? = some s.cfg.sig0 ∧ payload[1]? = some s.cfg.sig1) →
      exec (.frameReceived payload) s = .next { s with result := 0, flag := false })

/-- R68: the activation event of the other transport kind is refused; the empty tick and `resolve` are legal under every
build. -/
def Obligations.EventsOfTheOtherTransportAreRefused : Prop :=
  ∀ s : State, s.cfg.wf = true →
    (s.cfg.transportKind = .frame → ∀ b, exec (.byteReceived b) s = .refused .wrongTransport) ∧
    (s.cfg.transportKind = .stream → ∀ p, exec (.frameReceived p) s = .refused .wrongTransport) ∧
    (∃ t, exec .noByteThisTick s = .next t) ∧
    ∀ clock rate, ∃ t, exec (.resolve clock rate) s = .next t

/-- R69, R131, R132, R136, R139 (V5): from Idle, a length byte `L` and `L` payload bytes on consecutive ticks, at any times,
return the machine to Idle; they fire the Activation Trigger exactly once if the payload begins with CONNECT_SIG and never
otherwise, and leave nothing of the packet behind: flash, slots and every other field but the port's are as before. -/
def Obligations.APacketFiresTheTriggerOnce : Prop :=
  ∀ (s : State) (L : Byte) (payload : List Byte) (times : List Nat) (rest : List PortInput), s.cfg.wf = true →
    s.cfg.transportKind = .stream → s.apm = .idle → 0 < L.toNat → L.toNat ≤ s.cfg.maxPayload.toNat →
    payload.length = L.toNat → times.length = L.toNat + 1 → s.data = [] →
    s.inbox = (List.zipWith (fun t b => PortInput.command t (encode (.byteReceived b))) times (L :: payload)) ++ rest →
    ∃ t, Sys2Proof.core.run (L.toNat + 1) s = .next t ∧
      t = { s with
        result := 0
        flag := decide (2 ≤ payload.length ∧ payload.take 2 = [s.cfg.sig0, s.cfg.sig1])
        trace := s.trace ++
          (if 2 ≤ payload.length ∧ payload.take 2 = [s.cfg.sig0, s.cfg.sig1] then [.trigger] else [])
        now := s.now + times.sum
        inbox := rest
        cw := t.cw
        addr := t.addr
        len := t.len }

/-! ### The CAN bit-timing resolver -/

/-- R150, R66: `resolve` answers the first entry of CAN_TABLE, in table order, that divides the clock exactly with a prescaler in
range, and its prescaler; where there is none FLAG is 0 and PRESC, TSEG1 and TSEG2 hold any value. RESULT is 0 and nothing else
of the block changes. -/
def Obligations.ResolveReportsTheFirstExactEntry : Prop :=
  ∀ (s : State) (clock rate : Word), s.cfg.wf = true →
    (∀ (k : Nat) (e : CanEntry), s.cfg.canTable[k]? = some e →
      (rate.toNat * (1 + e.tseg1.toNat + e.tseg2.toNat) ≠ 0 ∧
        clock.toNat % (rate.toNat * (1 + e.tseg1.toNat + e.tseg2.toNat)) = 0 ∧
        s.cfg.prescalerMin ≤ clock.toNat / (rate.toNat * (1 + e.tseg1.toNat + e.tseg2.toNat)) ∧
        clock.toNat / (rate.toNat * (1 + e.tseg1.toNat + e.tseg2.toNat)) ≤ s.cfg.prescalerMax) →
      (∀ j < k, ∀ f, s.cfg.canTable[j]? = some f →
        ¬ (rate.toNat * (1 + f.tseg1.toNat + f.tseg2.toNat) ≠ 0 ∧
          clock.toNat % (rate.toNat * (1 + f.tseg1.toNat + f.tseg2.toNat)) = 0 ∧
          s.cfg.prescalerMin ≤ clock.toNat / (rate.toNat * (1 + f.tseg1.toNat + f.tseg2.toNat)) ∧
          clock.toNat / (rate.toNat * (1 + f.tseg1.toNat + f.tseg2.toNat)) ≤ s.cfg.prescalerMax)) →
      exec (.resolve clock rate) s = .next { s with
        result := 0
        flag := true
        presc := clock.toNat / (rate.toNat * (1 + e.tseg1.toNat + e.tseg2.toNat))
        tseg1 := e.tseg1
        tseg2 := e.tseg2 }) ∧
    ((∀ f ∈ s.cfg.canTable,
        ¬ (rate.toNat * (1 + f.tseg1.toNat + f.tseg2.toNat) ≠ 0 ∧
          clock.toNat % (rate.toNat * (1 + f.tseg1.toNat + f.tseg2.toNat)) = 0 ∧
          s.cfg.prescalerMin ≤ clock.toNat / (rate.toNat * (1 + f.tseg1.toNat + f.tseg2.toNat)) ∧
          clock.toNat / (rate.toNat * (1 + f.tseg1.toNat + f.tseg2.toNat)) ≤ s.cfg.prescalerMax)) →
      ∃ t, exec (.resolve clock rate) s = .next t ∧
        t = { s with
          result := 0, flag := false, presc := t.presc, tseg1 := t.tseg1, tseg2 := t.tseg2, freeCount := t.freeCount })

/-- R150 corner case 7 (V6): on success `clock == rate * prescaler * (1 + tseg1 + tseg2)` exactly, the prescaler is in range,
the pair is an entry of the table with 8 to 25 quanta, and the prescaler fits 16 bits when PRESCALER_MAX does (R153). -/
def Obligations.AResolvedTimingIsExact : Prop :=
  ∀ (s t : State) (clock rate : Word), exec (.resolve clock rate) s = .next t → t.flag = true →
    clock.toNat = rate.toNat * t.presc * (1 + t.tseg1.toNat + t.tseg2.toNat) ∧
    s.cfg.prescalerMin ≤ t.presc ∧ t.presc ≤ s.cfg.prescalerMax ∧
    (∃ e ∈ s.cfg.canTable, e.tseg1 = t.tseg1 ∧ e.tseg2 = t.tseg2) ∧
    8 ≤ 1 + t.tseg1.toNat + t.tseg2.toNat ∧ 1 + t.tseg1.toNat + t.tseg2.toNat ≤ 25 ∧
    (s.cfg.prescalerMax ≤ 65535 → t.presc < 2 ^ 16)

/-- R152: the same input always yields the same configuration: under the same CFG two states answer a `resolve` alike, whatever
else they hold. -/
def Obligations.ResolveReadsNoMutableState : Prop :=
  ∀ (s s' : State) (clock rate : Word), s.cfg.wf = true → s'.cfg = s.cfg →
    ∃ t t', exec (.resolve clock rate) s = .next t ∧ exec (.resolve clock rate) s' = .next t' ∧
      t'.flag = t.flag ∧ (t.flag = true → t'.presc = t.presc ∧ t'.tseg1 = t.tseg1 ∧ t'.tseg2 = t.tseg2)
end

