-- ==== Sys2Proof/Laws/Flash.lean ====
section
/-! SUPPORT. The laws of the flash array: a read after a write, the canonical form under every memory operation, and that
canonical arrays that read alike are equal. -/

namespace Sys2Proof.Machine

/-! ### One byte -/

theorem Flash.read_write_ne (f : Flash) {a x : Nat} (v : Byte) (h : x ≠ a) : (f.write a v).read x = f.read x := by
  induction f with
  | nil => by_cases hv : v = Flash.unlisted <;> simp [Flash.write, Flash.read, hv, h]
  | cons c rest ih =>
    obtain ⟨k, w⟩ := c
    simp only [Flash.write]
    split_ifs with h1 hv h2 hv
    · rfl
    · simp [Flash.read, h]
    · simp [Flash.read, show x ≠ k by omega]
    · simp [Flash.read, show x ≠ k by omega, h]
    · simp [Flash.read, ih]

/-- Below the first address of a canonical array nothing is listed. -/
theorem Flash.read_below {f : Flash} {lo x : Nat} (hf : f.wfFrom lo = true) (hx : x < lo) :
    f.read x = Flash.unlisted := by
  induction f generalizing lo with
  | nil => rfl
  | cons c rest ih =>
    obtain ⟨k, w⟩ := c
    simp only [Flash.wfFrom, Bool.and_eq_true, decide_eq_true_eq] at hf
    simp only [Flash.read, if_neg (show x ≠ k by omega)]
    exact ih hf.2 (by omega)

theorem Flash.wfFrom_mono {f : Flash} {lo lo' : Nat} (hf : f.wfFrom lo = true) (h : lo' ≤ lo) :
    f.wfFrom lo' = true := by
  cases f with
  | nil => rfl
  | cons c rest =>
    simp only [Flash.wfFrom, Bool.and_eq_true, decide_eq_true_eq] at hf ⊢
    exact ⟨⟨by omega, hf.1.2⟩, hf.2⟩

theorem Flash.read_write_same {f : Flash} {lo : Nat} (a : Nat) (v : Byte) (hf : f.wfFrom lo = true) :
    (f.write a v).read a = v := by
  induction f generalizing lo with
  | nil => by_cases hv : v = Flash.unlisted <;> simp [Flash.write, Flash.read, hv]
  | cons c rest ih =>
    obtain ⟨k, w⟩ := c
    simp only [Flash.wfFrom, Bool.and_eq_true, decide_eq_true_eq] at hf
    have hrest : ∀ x < k + 1, Flash.read rest x = Flash.unlisted := fun x hx => Flash.read_below hf.2 hx
    simp only [Flash.write]
    split_ifs with h1 hv h2 hv
    · simp [Flash.read, show a ≠ k by omega, hrest a (by omega), hv]
    · simp [Flash.read]
    · rw [hrest a (by omega), hv]
    · simp [Flash.read]
    · simpa [Flash.read, h2] using ih hf.2

theorem Flash.wfFrom_write {f : Flash} {lo : Nat} {a : Nat} (v : Byte) (hf : f.wfFrom lo = true) (ha : lo ≤ a) :
    (f.write a v).wfFrom lo = true := by
  induction f generalizing lo with
  | nil => by_cases hv : v = Flash.unlisted <;> simp [Flash.write, Flash.wfFrom, hv, ha]
  | cons c rest ih =>
    obtain ⟨k, w⟩ := c
    simp only [Flash.wfFrom, Bool.and_eq_true, decide_eq_true_eq, bne_iff_ne] at hf
    obtain ⟨⟨h1, h2⟩, h3⟩ := hf
    simp only [Flash.write]
    split_ifs with h4 hv h5 hv
    · simp [Flash.wfFrom, h1, h2, h3]
    · simp only [Flash.wfFrom, Bool.and_eq_true, decide_eq_true_eq, bne_iff_ne]
      exact ⟨⟨ha, hv⟩, ⟨by omega, h2⟩, h3⟩
    · exact Flash.wfFrom_mono h3 (by omega)
    · simp only [Flash.wfFrom, Bool.and_eq_true, decide_eq_true_eq, bne_iff_ne]
      exact ⟨⟨ha, hv⟩, h5 ▸ h3⟩
    · simp only [Flash.wfFrom, Bool.and_eq_true, decide_eq_true_eq, bne_iff_ne]
      exact ⟨⟨h1, h2⟩, ih h3 (by omega)⟩

theorem Flash.wf_write {f : Flash} (a : Nat) (v : Byte) (hf : f.wf = true) : (f.write a v).wf = true :=
  Flash.wfFrom_write v hf (Nat.zero_le a)

theorem Flash.read_write {f : Flash} (a : Nat) (v : Byte) (x : Nat) (hf : f.wf = true) :
    (f.write a v).read x = if x = a then v else f.read x := by
  split_ifs with h
  · subst h; exact Flash.read_write_same x v hf
  · exact Flash.read_write_ne f v h

/-- Canonical arrays that read alike are equal data. -/
theorem Flash.ext_read {f g : Flash} {lo : Nat} (hf : f.wfFrom lo = true) (hg : g.wfFrom lo = true)
    (h : ∀ x, f.read x = g.read x) : f = g := by
  induction f generalizing g lo with
  | nil =>
    cases g with
    | nil => rfl
    | cons c rest =>
      obtain ⟨k, w⟩ := c
      simp only [Flash.wfFrom, Bool.and_eq_true, bne_iff_ne] at hg
      exact absurd (h k).symm (by simpa [Flash.read] using hg.1.2)
  | cons c rest ih =>
    obtain ⟨k, w⟩ := c
    cases g with
    | nil =>
      simp only [Flash.wfFrom, Bool.and_eq_true, bne_iff_ne] at hf
      exact absurd (h k) (by simpa [Flash.read] using hf.1.2)
    | cons c' rest' =>
      obtain ⟨k', w'⟩ := c'
      simp only [Flash.wfFrom, Bool.and_eq_true, decide_eq_true_eq, bne_iff_ne] at hf hg
      have below : ∀ x < k + 1, Flash.read rest x = Flash.unlisted := fun x hx => Flash.read_below hf.2 hx
      have below' : ∀ x < k' + 1, Flash.read rest' x = Flash.unlisted := fun x hx => Flash.read_below hg.2 hx
      have hk : k = k' := by
        rcases Nat.lt_trichotomy k k' with hlt | heq | hgt
        · have := h k
          simp only [Flash.read, if_true, if_neg (show k ≠ k' by omega), below' k (by omega)] at this
          exact absurd this hf.1.2
        · exact heq
        · have := h k'
          simp only [Flash.read, if_true, if_neg (show k' ≠ k by omega), below k' (by omega)] at this
          exact absurd this.symm hg.1.2
      subst hk
      have hw : w = w' := by simpa [Flash.read] using h k
      subst hw
      have hrest : rest = rest' := by
        refine ih hf.2 hg.2 fun x => ?_
        by_cases hx : x = k
        · subst hx; rw [below x (by omega), below' x (by omega)]
        · simpa [Flash.read, hx] using h x
      rw [hrest]

/-! ### Byte sequences -/

@[simp] theorem Flash.length_readBytes (f : Flash) (a n : Nat) : (f.readBytes a n).length = n := by
  induction n generalizing a with
  | zero => rfl
  | succ n ih => simp [Flash.readBytes, ih]

theorem Flash.getElem?_readBytes (f : Flash) (a n i : Nat) :
    (f.readBytes a n)[i]? = if i < n then some (f.read (a + i)) else none := by
  induction n generalizing a i with
  | zero => simp [Flash.readBytes]
  | succ n ih =>
    cases i with
    | zero => simp [Flash.readBytes]
    | succ i => simp [Flash.readBytes, ih, Nat.add_comm 1 i, Nat.add_assoc]

theorem Flash.wf_writeBytes {f : Flash} (a : Nat) (bytes : List Byte) (hf : f.wf = true) :
    (f.writeBytes a bytes).wf = true := by
  induction bytes generalizing f a with
  | nil => exact hf
  | cons v rest ih => exact ih (a + 1) (Flash.wf_write a v hf)

theorem Flash.read_writeBytes_out (f : Flash) {a : Nat} {bytes : List Byte} {x : Nat}
    (h : x < a ∨ a + bytes.length ≤ x) : (f.writeBytes a bytes).read x = f.read x := by
  induction bytes generalizing f a with
  | nil => rfl
  | cons v rest ih =>
    simp only [List.length_cons] at h
    simp only [Flash.writeBytes]
    rw [ih (f.write a v) (by omega), Flash.read_write_ne f v (by omega)]

/-- `MemRead` of one byte after `MemWrite`: byte `i` of the written bytes at `a + i`, every other byte as before. -/
theorem Flash.read_writeBytes {f : Flash} (a : Nat) (bytes : List Byte) (x : Nat) (hf : f.wf = true) :
    (f.writeBytes a bytes).read x = if a ≤ x then (bytes[x - a]?).getD (f.read x) else f.read x := by
  induction bytes generalizing f a with
  | nil => simp [Flash.writeBytes]
  | cons v rest ih =>
    simp only [Flash.writeBytes]
    rw [ih (a + 1) (Flash.wf_write a v hf), Flash.read_write a v x hf]
    rcases Nat.lt_trichotomy x a with h | h | h
    · simp [show ¬ a ≤ x by omega, show ¬ a + 1 ≤ x by omega, show x ≠ a by omega]
    · subst h; simp
    · obtain ⟨d, rfl⟩ : ∃ d, x = a + 1 + d := ⟨x - (a + 1), by omega⟩
      simp [show a ≤ a + 1 + d by omega, show a + 1 + d - a = d + 1 by omega, show a + 1 + d ≠ a by omega,
        show a + 1 + d - (a + 1) = d by omega]

/-- A range that reads as a list of bytes reads each of them. -/
theorem Flash.read_of_readBytes_eq {f : Flash} {a : Nat} {bytes : List Byte} {n : Nat}
    (h : f.readBytes a n = bytes) {x : Nat} (h1 : a ≤ x) (h2 : x < a + n) : bytes[x - a]? = some (f.read x) := by
  rw [← h, Flash.getElem?_readBytes, if_pos (by omega), show a + (x - a) = x by omega]

/-- Equal reads of a range give equal byte sequences. -/
theorem Flash.readBytes_congr {f g : Flash} {a n : Nat} (h : ∀ x, a ≤ x → x < a + n → f.read x = g.read x) :
    f.readBytes a n = g.readBytes a n := by
  induction n generalizing a with
  | zero => rfl
  | succ n ih =>
    simp only [Flash.readBytes]
    rw [h a (by omega) (by omega), ih fun x h1 h2 => h x (by omega) (by omega)]

/-- Reading back exactly what was written. -/
theorem Flash.readBytes_writeBytes {f : Flash} (a : Nat) (bytes : List Byte) (hf : f.wf = true) :
    (f.writeBytes a bytes).readBytes a bytes.length = bytes := by
  apply List.ext_getElem?
  intro i
  rw [Flash.getElem?_readBytes]
  split_ifs with h
  · rw [Flash.read_writeBytes a bytes _ hf]
    simp [show a + i - a = i by omega, List.getElem?_eq_getElem h]
  · simp [List.getElem?_eq_none (Nat.le_of_not_lt h)]

end Sys2Proof.Machine
end

