-- ==== Sys2Proof/Laws/Geometry.lean ====
section
/-! SUPPORT. What a well-formed configuration (R9) gives: sectors are disjoint and in order, blocks never straddle a sector
boundary, and the boot block lies in the first sector. -/

namespace Sys2Proof

open Sys2Proof.Machine

/-! ### The clauses of R9 -/

/-- R9, clause by clause. -/
structure Config.Wf (c : Config) : Prop where
  nonempty : c.sectors ≠ []
  count : c.sectors.length ≤ 256
  sectors : ∀ x ∈ c.sectors, 0 < x.size.toNat ∧ x.stop ≤ 2 ^ 32 ∧ x.start.toNat % c.blockSize = 0 ∧
    x.size.toNat % c.blockSize = 0
  ordered : sectorsOrdered c.sectors = true
  blockSize : 0 < c.blockSize
  offsetLow : 24 ≤ c.checksumOffset
  offsetHigh : c.checksumOffset + 4 ≤ c.blockSize
  payload : 1 ≤ c.maxPayload.toNat
  prescaler : 1 ≤ c.prescalerMin ∧ c.prescalerMin ≤ c.prescalerMax
  quanta : ∀ e ∈ c.canTable, 8 ≤ e.quanta ∧ e.quanta ≤ 25
  canSorted : canOrdered c.canTable = true

theorem Config.wf_clauses {c : Config} (h : c.wf = true) : c.Wf := by
  simp only [Config.wf, Bool.and_eq_true, decide_eq_true_eq, Bool.not_eq_true', List.isEmpty_eq_false_iff,
    List.all_eq_true, Config.sectorOk, beq_iff_eq] at h
  obtain ⟨⟨⟨⟨⟨⟨⟨⟨⟨⟨⟨h1, h2⟩, h3⟩, h4⟩, h5⟩, h6⟩, h7⟩, h8⟩, h9⟩, h10⟩, h11⟩, h12⟩ := h
  exact ⟨h1, h2, fun x hx => ⟨(h3 x hx).1.1.1, (h3 x hx).1.1.2, (h3 x hx).1.2, (h3 x hx).2⟩, h4, h5, h6, h7, h8,
    ⟨h9, h10⟩, h11, h12⟩

/-! ### Sector lookup -/

theorem Sector.has_iff (x : Sector) (a : Nat) : x.has a = true ↔ x.start.toNat ≤ a ∧ a < x.stop := by
  simp [Sector.has]

/-- What the lookup found does hold the address. -/
theorem findSector_some {a : Nat} {l : List Sector} {k j : Nat} (h : findSector a l k = some j) :
    ∃ i x, j = k + i ∧ l[i]? = some x ∧ x.has a = true := by
  induction l generalizing k with
  | nil => simp [findSector] at h
  | cons y rest ih =>
    simp only [findSector] at h
    split_ifs at h with hy
    · exact ⟨0, y, by simpa using h.symm, rfl, hy⟩
    · obtain ⟨i, x, h1, h2, h3⟩ := ih h
      exact ⟨i + 1, x, by omega, by simpa using h2, h3⟩

/-- The lookup fails only where no sector holds the address. -/
theorem findSector_none {a : Nat} {l : List Sector} {k : Nat} (h : findSector a l k = none) :
    ∀ x ∈ l, x.has a = false := by
  induction l generalizing k with
  | nil => simp
  | cons y rest ih =>
    simp only [findSector] at h
    split_ifs at h with hy
    intro x hx
    rcases List.mem_cons.1 hx with rfl | hx
    · simpa using hy
    · exact ih h x hx

theorem Config.sectorOf_some {c : Config} {a k : Nat} (h : c.sectorOf a = some k) :
    ∃ x, c.sectors[k]? = some x ∧ x.start.toNat ≤ a ∧ a < x.stop := by
  obtain ⟨i, x, h1, h2, h3⟩ := findSector_some h
  rw [Sector.has_iff] at h3
  exact ⟨x, by rw [h1, Nat.zero_add]; exact h2, h3⟩

theorem Config.sectorOf_isSome_iff (c : Config) (a : Nat) :
    (c.sectorOf a).isSome = true ↔ ∃ x ∈ c.sectors, x.start.toNat ≤ a ∧ a < x.stop := by
  constructor
  · intro h
    obtain ⟨k, hk⟩ := Option.isSome_iff_exists.1 h
    obtain ⟨x, h1, h2⟩ := Config.sectorOf_some hk
    exact ⟨x, List.mem_of_getElem? h1, h2⟩
  · rintro ⟨x, hx, h⟩
    by_contra hn
    have := findSector_none (by simpa [Config.sectorOf] using hn) x hx
    rw [← Bool.not_eq_true, Sector.has_iff] at this
    exact this h

theorem Config.covered_iff (c : Config) (a n : Nat) :
    c.covered a n = true ↔ ∀ i < n, (c.sectorOf (a + i)).isSome = true := by
  induction n generalizing a with
  | zero => simp [Config.covered]
  | succ n ih =>
    simp only [Config.covered, Bool.and_eq_true, ih]
    constructor
    · rintro ⟨h1, h2⟩ i hi
      cases i with
      | zero => exact h1
      | succ i => rw [show a + (i + 1) = a + 1 + i by omega]; exact h2 i (by omega)
    · intro h
      refine ⟨h 0 (by omega), fun i hi => ?_⟩
      rw [show a + 1 + i = a + (i + 1) by omega]
      exact h (i + 1) (by omega)

/-- A range inside one sector is covered. -/
theorem Config.covered_of_sector {c : Config} {x : Sector} (hx : x ∈ c.sectors) {a n : Nat}
    (h1 : x.start.toNat ≤ a) (h2 : a + n ≤ x.stop) : c.covered a n = true := by
  rw [Config.covered_iff]
  intro i hi
  rw [Config.sectorOf_isSome_iff]
  exact ⟨x, hx, by omega, by omega⟩

theorem Config.covered_of_blockInside {c : Config} {B : Nat} (h : blockInside c B) : c.covered B c.blockSize = true :=
  let ⟨_, hx, h1, h2⟩ := h
  Config.covered_of_sector hx h1 h2

/-! ### Order -/

theorem sectorsOrdered_tail {x : Sector} {l : List Sector} (h : sectorsOrdered (x :: l) = true) :
    sectorsOrdered l = true := by
  cases l with
  | nil => rfl
  | cons y rest => simp only [sectorsOrdered, Bool.and_eq_true] at h; exact h.2

/-- Every sector after the first begins at or above the first one's end. -/
theorem sectorsOrdered_head {x : Sector} {l : List Sector} (h : sectorsOrdered (x :: l) = true)
    (hs : ∀ y ∈ l, 0 < y.size.toNat) : ∀ y ∈ l, x.stop ≤ y.start.toNat := by
  induction l generalizing x with
  | nil => simp
  | cons y rest ih =>
    have h' := sectorsOrdered_tail h
    simp only [sectorsOrdered, Bool.and_eq_true, decide_eq_true_eq] at h
    intro z hz
    rcases List.mem_cons.1 hz with rfl | hz
    · exact h.1.1.2
    · have := ih h' (fun w hw => hs w (List.mem_cons_of_mem _ hw)) z hz
      have hy := hs y (by simp)
      simp only [Sector.stop] at this
      omega

theorem sectorsOrdered_get {l : List Sector} (h : sectorsOrdered l = true) (hs : ∀ y ∈ l, 0 < y.size.toNat)
    {i j : Nat} {x y : Sector} (hij : i < j) (hx : l[i]? = some x) (hy : l[j]? = some y) :
    x.stop ≤ y.start.toNat := by
  induction l generalizing i j with
  | nil => simp at hx
  | cons z rest ih =>
    cases j with
    | zero => omega
    | succ j =>
      cases i with
      | zero =>
        simp only [List.getElem?_cons_zero, Option.some.injEq] at hx
        subst hx
        exact sectorsOrdered_head h (fun w hw => hs w (List.mem_cons_of_mem _ hw)) y
          (List.mem_of_getElem? (by simpa using hy))
      | succ i =>
        exact ih (i := i) (j := j) (sectorsOrdered_tail h) (fun w hw => hs w (List.mem_cons_of_mem _ hw)) (by omega)
          (by simpa using hx) (by simpa using hy)

namespace Config.Wf

variable {c : Config}

/-- A sector of lower index ends before one of higher index begins (R9(c)). -/
theorem stop_le_start (w : c.Wf) {i j : Nat} {x y : Sector} (hij : i < j) (hx : c.sectors[i]? = some x)
    (hy : c.sectors[j]? = some y) : x.stop ≤ y.start.toNat :=
  sectorsOrdered_get w.ordered (fun z hz => (w.sectors z hz).1) hij hx hy

/-- No address lies in two sectors (R100). -/
theorem sector_unique (w : c.Wf) {i j : Nat} {x y : Sector} {a : Nat} (hx : c.sectors[i]? = some x)
    (hy : c.sectors[j]? = some y) (h1 : x.start.toNat ≤ a) (h2 : a < x.stop) (h3 : y.start.toNat ≤ a)
    (h4 : a < y.stop) : i = j := by
  rcases Nat.lt_trichotomy i j with h | h | h
  · have := w.stop_le_start h hx hy; omega
  · exact h
  · have := w.stop_le_start h hy hx; omega

theorem sectorOf_eq (w : c.Wf) {k : Nat} {x : Sector} {a : Nat} (hx : c.sectors[k]? = some x)
    (h1 : x.start.toNat ≤ a) (h2 : a < x.stop) : c.sectorOf a = some k := by
  obtain ⟨j, hj⟩ := Option.isSome_iff_exists.1
    ((c.sectorOf_isSome_iff a).2 ⟨x, List.mem_of_getElem? hx, h1, h2⟩)
  obtain ⟨y, hy, h3, h4⟩ := Config.sectorOf_some hj
  rw [hj, w.sector_unique hy hx h3 h4 h1 h2]

/-- A higher address lies in no lower sector. -/
theorem sectorOf_mono (w : c.Wf) {a b i j : Nat} (hab : a ≤ b) (hi : c.sectorOf a = some i)
    (hj : c.sectorOf b = some j) : i ≤ j := by
  obtain ⟨x, hx, h1, h2⟩ := Config.sectorOf_some hi
  obtain ⟨y, hy, h3, h4⟩ := Config.sectorOf_some hj
  by_contra h
  have := w.stop_le_start (show j < i by omega) hy hx
  omega

/-- Two sectors of the table that share an address are the same. -/
theorem mem_unique (w : c.Wf) {x y : Sector} {a : Nat} (hx : x ∈ c.sectors) (hy : y ∈ c.sectors)
    (h1 : x.start.toNat ≤ a) (h2 : a < x.stop) (h3 : y.start.toNat ≤ a) (h4 : a < y.stop) : x = y := by
  obtain ⟨i, hi⟩ := List.getElem?_of_mem hx
  obtain ⟨j, hj⟩ := List.getElem?_of_mem hy
  have := w.sector_unique hi hj h1 h2 h3 h4
  subst this
  simpa [hi] using hj

theorem stop_le (w : c.Wf) {x : Sector} (hx : x ∈ c.sectors) : x.stop ≤ 2 ^ 32 := (w.sectors x hx).2.1

/-- The end of a sector is a multiple of BLOCK_SIZE (R9(e)). -/
theorem stop_mod (w : c.Wf) {x : Sector} (hx : x ∈ c.sectors) : x.stop % c.blockSize = 0 := by
  have := w.sectors x hx
  rw [Sector.stop, Nat.add_mod, this.2.2.1, this.2.2.2]
  simp

theorem blockBase_mod (_w : c.Wf) (a : Nat) : c.blockBase a % c.blockSize = 0 := by
  rw [Config.blockBase, Nat.sub_mod_eq_zero_of_mod_eq (by simp)]

theorem blockBase_le (c : Config) (a : Nat) : c.blockBase a ≤ a := Nat.sub_le _ _

theorem lt_blockBase_add (w : c.Wf) (a : Nat) : a < c.blockBase a + c.blockSize := by
  have := Nat.mod_lt a w.blockSize
  have := Nat.mod_le a c.blockSize
  simp only [Config.blockBase]
  omega

/-- An aligned address is its own block base, and so is that of every address of its block. -/
theorem blockBase_of_inBlock (_w : c.Wf) {B a : Nat} (hB : B % c.blockSize = 0) (h1 : B ≤ a)
    (h2 : a < B + c.blockSize) : c.blockBase a = B := by
  obtain ⟨q, rfl⟩ : ∃ q, B = c.blockSize * q := ⟨B / c.blockSize, by
    have := Nat.div_add_mod B c.blockSize; omega⟩
  have hmod : a % c.blockSize = a - c.blockSize * q := by
    have h3 : a = c.blockSize * q + (a - c.blockSize * q) := by omega
    conv_lhs => rw [h3]
    rw [Nat.mul_add_mod, Nat.mod_eq_of_lt (by omega)]
  simp only [Config.blockBase, hmod]
  omega

/-- Two aligned blocks that share an address are the same (R42). -/
theorem block_unique (w : c.Wf) {B B' a : Nat} (hB : B % c.blockSize = 0) (hB' : B' % c.blockSize = 0)
    (h : inBlock c B a) (h' : inBlock c B' a) : B = B' := by
  rw [← w.blockBase_of_inBlock hB h.1 h.2, ← w.blockBase_of_inBlock hB' h'.1 h'.2]

theorem blockBase_mono (w : c.Wf) {a b : Nat} (h : a ≤ b) : c.blockBase a ≤ c.blockBase b := by
  by_contra hn
  have h1 := w.lt_blockBase_add b
  have h2 := blockBase_le c a
  have := w.blockBase_of_inBlock (w.blockBase_mod b) (show c.blockBase b ≤ a by omega) (by omega)
  omega

/-- The block of an address of a sector lies in that sector: no block straddles a boundary (R9(e), R23(d)). -/
theorem block_in_sector (w : c.Wf) {x : Sector} (hx : x ∈ c.sectors) {a : Nat} (h1 : x.start.toNat ≤ a)
    (h2 : a < x.stop) : x.start.toNat ≤ c.blockBase a ∧ c.blockBase a + c.blockSize ≤ x.stop := by
  have hs := (w.sectors x hx).2.2.1
  have he := w.stop_mod hx
  have h3 := w.lt_blockBase_add a
  have h4 := blockBase_le c a
  constructor
  · by_contra hn
    have := w.blockBase_of_inBlock (a := x.start.toNat) (w.blockBase_mod a) (by omega) (by omega)
    have := w.blockBase_of_inBlock (a := x.start.toNat) hs (by omega) (by have := w.blockSize; omega)
    omega
  · by_contra hn
    have h5 := w.blockBase_of_inBlock (a := x.stop) (w.blockBase_mod a) (by omega) (by omega)
    have h6 := w.blockBase_of_inBlock (a := x.stop) he (by omega) (by have := w.blockSize; omega)
    omega

theorem blockInside_of_sectorOf (w : c.Wf) {a : Nat} (h : (c.sectorOf a).isSome = true) :
    blockInside c (c.blockBase a) := by
  obtain ⟨x, hx, h1, h2⟩ := (c.sectorOf_isSome_iff a).1 h
  exact ⟨x, hx, w.block_in_sector hx h1 h2⟩

theorem blockInside_lt (w : c.Wf) {B : Nat} (h : blockInside c B) : B + c.blockSize ≤ 2 ^ 32 := by
  obtain ⟨x, hx, _, h2⟩ := h
  have := w.stop_le hx
  omega

theorem toNat_blockBase (w : c.Wf) {B : Nat} (h : blockInside c B) : (BitVec.ofNat 32 B).toNat = B := by
  have := w.blockInside_lt h
  have := w.blockSize
  rw [BitVec.toNat_ofNat, Nat.mod_eq_of_lt (by omega)]

/-! ### The region and the boot block -/

theorem first_sector (w : c.Wf) : ∃ x, x ∈ c.sectors ∧ c.sectors[0]? = some x ∧ c.bootBase = x.start.toNat := by
  obtain ⟨h, _⟩ := w
  cases hs : c.sectors with
  | nil => exact absurd hs h
  | cons x rest => exact ⟨x, by simp, by simp, by simp [Config.bootBase, Config.addrLo, hs]⟩

theorem bootBase_mod (w : c.Wf) : c.bootBase % c.blockSize = 0 := by
  obtain ⟨x, hx, _, h⟩ := w.first_sector
  rw [h]; exact (w.sectors x hx).2.2.1

theorem bootBlock_inside (w : c.Wf) : blockInside c c.bootBase := by
  obtain ⟨x, hx, _, h⟩ := w.first_sector
  have h0 := (w.sectors x hx).1
  have hb := w.block_in_sector hx (a := x.start.toNat) le_rfl (by simp only [Sector.stop]; omega)
  rw [w.blockBase_of_inBlock (w.sectors x hx).2.2.1 le_rfl (by have := w.blockSize; omega)] at hb
  exact ⟨x, hx, by omega, by omega⟩

/-- Every sector begins at or above BOOT_BASE. -/
theorem bootBase_le (w : c.Wf) {x : Sector} (hx : x ∈ c.sectors) : c.bootBase ≤ x.start.toNat := by
  obtain ⟨y, _, hy, h⟩ := w.first_sector
  obtain ⟨i, hi⟩ := List.getElem?_of_mem hx
  cases i with
  | zero => rw [hy] at hi; cases hi; omega
  | succ i =>
    have := w.stop_le_start (Nat.succ_pos i) hy hi
    simp only [Sector.stop] at this
    omega

/-- Every sector ends at or below ADDR_HI. -/
theorem stop_le_addrHi (w : c.Wf) {x : Sector} (hx : x ∈ c.sectors) : x.stop ≤ c.addrHi := by
  obtain ⟨i, hi⟩ := List.getElem?_of_mem hx
  have hlen : i < c.sectors.length := (List.getElem?_eq_some_iff.1 hi).1
  have hlast : c.sectors.getLast? = c.sectors[c.sectors.length - 1]? := List.getLast?_eq_getElem?
  cases hl : c.sectors[c.sectors.length - 1]? with
  | none => rw [List.getElem?_eq_none_iff] at hl; omega
  | some y =>
    have hy : c.addrHi = y.stop := by simp [Config.addrHi, hlast, hl]
    rw [hy]
    rcases Nat.lt_or_ge i (c.sectors.length - 1) with h | h
    · have h1 := w.stop_le_start h hi hl
      simp only [Sector.stop] at h1 ⊢
      omega
    · have : i = c.sectors.length - 1 := by omega
      subst this
      rw [hi] at hl; cases hl; exact le_rfl

/-- A covered, non-empty range lies in the addressable region (R101, D5). -/
theorem region_of_covered (w : c.Wf) {a n : Nat} (hn : 0 < n) (h : c.covered a n = true) :
    c.addrLo ≤ a ∧ a + n ≤ c.addrHi := by
  rw [Config.covered_iff] at h
  obtain ⟨x, hx, h1, _⟩ := (c.sectorOf_isSome_iff _).1 (h 0 hn)
  obtain ⟨y, hy, _, h2⟩ := (c.sectorOf_isSome_iff _).1 (h (n - 1) (by omega))
  have h3 := w.bootBase_le hx
  have h4 := w.stop_le_addrHi hy
  simp only [Config.bootBase] at h3
  omega

end Config.Wf

end Sys2Proof
end

