-- ==== Sys2Proof/Laws/State.lean ====
section
/-! SUPPORT. What each update of the state does to each field, true by unfolding: later proofs never unfold a record update. -/

namespace Sys2Proof.Machine

variable (s : State)

section setResult
variable (v : BitVec 8)

@[simp] theorem State.setResult_cfg : (s.setResult v).cfg = s.cfg := rfl
@[simp] theorem State.setResult_initialised : (s.setResult v).initialised = s.initialised := rfl
@[simp] theorem State.setResult_timedOut : (s.setResult v).timedOut = s.timedOut := rfl
@[simp] theorem State.setResult_generic : (s.setResult v).generic = s.generic := rfl
@[simp] theorem State.setResult_boot : (s.setResult v).boot = s.boot := rfl
@[simp] theorem State.setResult_flash : (s.setResult v).flash = s.flash := rfl
@[simp] theorem State.setResult_now : (s.setResult v).now = s.now := rfl
@[simp] theorem State.setResult_inFlight : (s.setResult v).inFlight = s.inFlight := rfl
@[simp] theorem State.setResult_nvmStatus : (s.setResult v).nvmStatus = s.nvmStatus := rfl
@[simp] theorem State.setResult_apm : (s.setResult v).apm = s.apm := rfl
@[simp] theorem State.setResult_cw : (s.setResult v).cw = s.cw := rfl
@[simp] theorem State.setResult_addr : (s.setResult v).addr = s.addr := rfl
@[simp] theorem State.setResult_len : (s.setResult v).len = s.len := rfl
@[simp] theorem State.setResult_data : (s.setResult v).data = s.data := rfl
@[simp] theorem State.setResult_result : (s.setResult v).result = v := rfl
@[simp] theorem State.setResult_flag : (s.setResult v).flag = s.flag := rfl
@[simp] theorem State.setResult_presc : (s.setResult v).presc = s.presc := rfl
@[simp] theorem State.setResult_tseg1 : (s.setResult v).tseg1 = s.tseg1 := rfl
@[simp] theorem State.setResult_tseg2 : (s.setResult v).tseg2 = s.tseg2 := rfl
@[simp] theorem State.setResult_trace : (s.setResult v).trace = s.trace := rfl
@[simp] theorem State.setResult_inbox : (s.setResult v).inbox = s.inbox := rfl
@[simp] theorem State.setResult_nvmAnswers : (s.setResult v).nvmAnswers = s.nvmAnswers := rfl
@[simp] theorem State.setResult_freeCount : (s.setResult v).freeCount = s.freeCount := rfl

end setResult

section answer
variable (v : BitVec 8)

@[simp] theorem State.answer_cfg : (s.answer v).cfg = s.cfg := rfl
@[simp] theorem State.answer_initialised : (s.answer v).initialised = s.initialised := rfl
@[simp] theorem State.answer_timedOut : (s.answer v).timedOut = s.timedOut := rfl
@[simp] theorem State.answer_generic : (s.answer v).generic = s.generic := rfl
@[simp] theorem State.answer_boot : (s.answer v).boot = s.boot := rfl
@[simp] theorem State.answer_flash : (s.answer v).flash = s.flash := rfl
@[simp] theorem State.answer_now : (s.answer v).now = s.now := rfl
@[simp] theorem State.answer_inFlight : (s.answer v).inFlight = s.inFlight := rfl
@[simp] theorem State.answer_nvmStatus : (s.answer v).nvmStatus = s.nvmStatus := rfl
@[simp] theorem State.answer_apm : (s.answer v).apm = s.apm := rfl
@[simp] theorem State.answer_cw : (s.answer v).cw = s.cw := rfl
@[simp] theorem State.answer_addr : (s.answer v).addr = s.addr := rfl
@[simp] theorem State.answer_len : (s.answer v).len = s.len := rfl
@[simp] theorem State.answer_data : (s.answer v).data = s.data := rfl
@[simp] theorem State.answer_result : (s.answer v).result = v := rfl
@[simp] theorem State.answer_flag : (s.answer v).flag = Config.freeFlag s.freeCount := rfl
@[simp] theorem State.answer_presc : (s.answer v).presc = s.presc := rfl
@[simp] theorem State.answer_tseg1 : (s.answer v).tseg1 = s.tseg1 := rfl
@[simp] theorem State.answer_tseg2 : (s.answer v).tseg2 = s.tseg2 := rfl
@[simp] theorem State.answer_trace : (s.answer v).trace = s.trace := rfl
@[simp] theorem State.answer_inbox : (s.answer v).inbox = s.inbox := rfl
@[simp] theorem State.answer_nvmAnswers : (s.answer v).nvmAnswers = s.nvmAnswers := rfl
@[simp] theorem State.answer_freeCount : (s.answer v).freeCount = s.freeCount + 1 := rfl

end answer

section takeError
variable (e : EngineError)

@[simp] theorem State.takeError_cfg : (s.takeError e).cfg = s.cfg := rfl
@[simp] theorem State.takeError_initialised : (s.takeError e).initialised = s.initialised := rfl
@[simp] theorem State.takeError_timedOut : (s.takeError e).timedOut = s.timedOut := rfl
@[simp] theorem State.takeError_generic : (s.takeError e).generic = s.generic := rfl
@[simp] theorem State.takeError_boot : (s.takeError e).boot = s.boot := rfl
@[simp] theorem State.takeError_flash : (s.takeError e).flash = s.flash := rfl
@[simp] theorem State.takeError_now : (s.takeError e).now = s.now := rfl
@[simp] theorem State.takeError_inFlight : (s.takeError e).inFlight = s.inFlight := rfl
@[simp] theorem State.takeError_nvmStatus : (s.takeError e).nvmStatus = s.nvmStatus := rfl
@[simp] theorem State.takeError_apm : (s.takeError e).apm = s.apm := rfl
@[simp] theorem State.takeError_cw : (s.takeError e).cw = s.cw := rfl
@[simp] theorem State.takeError_addr : (s.takeError e).addr = s.addr := rfl
@[simp] theorem State.takeError_len : (s.takeError e).len = s.len := rfl
@[simp] theorem State.takeError_data : (s.takeError e).data = s.data := rfl
@[simp] theorem State.takeError_result : (s.takeError e).result = e.code := rfl
@[simp] theorem State.takeError_flag : (s.takeError e).flag = Config.freeFlag s.freeCount := rfl
@[simp] theorem State.takeError_presc : (s.takeError e).presc = s.presc := rfl
@[simp] theorem State.takeError_tseg1 : (s.takeError e).tseg1 = s.tseg1 := rfl
@[simp] theorem State.takeError_tseg2 : (s.takeError e).tseg2 = s.tseg2 := rfl
@[simp] theorem State.takeError_trace : (s.takeError e).trace = s.trace := rfl
@[simp] theorem State.takeError_inbox : (s.takeError e).inbox = s.inbox := rfl
@[simp] theorem State.takeError_nvmAnswers : (s.takeError e).nvmAnswers = s.nvmAnswers := rfl
@[simp] theorem State.takeError_freeCount : (s.takeError e).freeCount = s.freeCount + 1 := rfl

end takeError

section setFlag
variable (b : Bool)

@[simp] theorem State.setFlag_cfg : (s.setFlag b).cfg = s.cfg := rfl
@[simp] theorem State.setFlag_initialised : (s.setFlag b).initialised = s.initialised := rfl
@[simp] theorem State.setFlag_timedOut : (s.setFlag b).timedOut = s.timedOut := rfl
@[simp] theorem State.setFlag_generic : (s.setFlag b).generic = s.generic := rfl
@[simp] theorem State.setFlag_boot : (s.setFlag b).boot = s.boot := rfl
@[simp] theorem State.setFlag_flash : (s.setFlag b).flash = s.flash := rfl
@[simp] theorem State.setFlag_now : (s.setFlag b).now = s.now := rfl
@[simp] theorem State.setFlag_inFlight : (s.setFlag b).inFlight = s.inFlight := rfl
@[simp] theorem State.setFlag_nvmStatus : (s.setFlag b).nvmStatus = s.nvmStatus := rfl
@[simp] theorem State.setFlag_apm : (s.setFlag b).apm = s.apm := rfl
@[simp] theorem State.setFlag_cw : (s.setFlag b).cw = s.cw := rfl
@[simp] theorem State.setFlag_addr : (s.setFlag b).addr = s.addr := rfl
@[simp] theorem State.setFlag_len : (s.setFlag b).len = s.len := rfl
@[simp] theorem State.setFlag_data : (s.setFlag b).data = s.data := rfl
@[simp] theorem State.setFlag_result : (s.setFlag b).result = s.result := rfl
@[simp] theorem State.setFlag_flag : (s.setFlag b).flag = b := rfl
@[simp] theorem State.setFlag_presc : (s.setFlag b).presc = s.presc := rfl
@[simp] theorem State.setFlag_tseg1 : (s.setFlag b).tseg1 = s.tseg1 := rfl
@[simp] theorem State.setFlag_tseg2 : (s.setFlag b).tseg2 = s.tseg2 := rfl
@[simp] theorem State.setFlag_trace : (s.setFlag b).trace = s.trace := rfl
@[simp] theorem State.setFlag_inbox : (s.setFlag b).inbox = s.inbox := rfl
@[simp] theorem State.setFlag_nvmAnswers : (s.setFlag b).nvmAnswers = s.nvmAnswers := rfl
@[simp] theorem State.setFlag_freeCount : (s.setFlag b).freeCount = s.freeCount := rfl

end setFlag

section setEventFlags
variable (b : Bool)

@[simp] theorem State.setEventFlags_cfg : (s.setEventFlags b).cfg = s.cfg := rfl
@[simp] theorem State.setEventFlags_initialised : (s.setEventFlags b).initialised = s.initialised := rfl
@[simp] theorem State.setEventFlags_timedOut : (s.setEventFlags b).timedOut = s.timedOut := rfl
@[simp] theorem State.setEventFlags_generic : (s.setEventFlags b).generic = s.generic := rfl
@[simp] theorem State.setEventFlags_boot : (s.setEventFlags b).boot = s.boot := rfl
@[simp] theorem State.setEventFlags_flash : (s.setEventFlags b).flash = s.flash := rfl
@[simp] theorem State.setEventFlags_now : (s.setEventFlags b).now = s.now := rfl
@[simp] theorem State.setEventFlags_inFlight : (s.setEventFlags b).inFlight = s.inFlight := rfl
@[simp] theorem State.setEventFlags_nvmStatus : (s.setEventFlags b).nvmStatus = s.nvmStatus := rfl
@[simp] theorem State.setEventFlags_apm : (s.setEventFlags b).apm = s.apm := rfl
@[simp] theorem State.setEventFlags_cw : (s.setEventFlags b).cw = s.cw := rfl
@[simp] theorem State.setEventFlags_addr : (s.setEventFlags b).addr = s.addr := rfl
@[simp] theorem State.setEventFlags_len : (s.setEventFlags b).len = s.len := rfl
@[simp] theorem State.setEventFlags_data : (s.setEventFlags b).data = s.data := rfl
@[simp] theorem State.setEventFlags_result : (s.setEventFlags b).result = codeOk := rfl
@[simp] theorem State.setEventFlags_flag : (s.setEventFlags b).flag = b := rfl
@[simp] theorem State.setEventFlags_presc : (s.setEventFlags b).presc = s.presc := rfl
@[simp] theorem State.setEventFlags_tseg1 : (s.setEventFlags b).tseg1 = s.tseg1 := rfl
@[simp] theorem State.setEventFlags_tseg2 : (s.setEventFlags b).tseg2 = s.tseg2 := rfl
@[simp] theorem State.setEventFlags_trace : (s.setEventFlags b).trace = s.trace := rfl
@[simp] theorem State.setEventFlags_inbox : (s.setEventFlags b).inbox = s.inbox := rfl
@[simp] theorem State.setEventFlags_nvmAnswers : (s.setEventFlags b).nvmAnswers = s.nvmAnswers := rfl
@[simp] theorem State.setEventFlags_freeCount : (s.setEventFlags b).freeCount = s.freeCount := rfl

end setEventFlags

section setTiming
variable (p : Nat) (e : CanEntry)

@[simp] theorem State.setTiming_cfg : (s.setTiming p e).cfg = s.cfg := rfl
@[simp] theorem State.setTiming_initialised : (s.setTiming p e).initialised = s.initialised := rfl
@[simp] theorem State.setTiming_timedOut : (s.setTiming p e).timedOut = s.timedOut := rfl
@[simp] theorem State.setTiming_generic : (s.setTiming p e).generic = s.generic := rfl
@[simp] theorem State.setTiming_boot : (s.setTiming p e).boot = s.boot := rfl
@[simp] theorem State.setTiming_flash : (s.setTiming p e).flash = s.flash := rfl
@[simp] theorem State.setTiming_now : (s.setTiming p e).now = s.now := rfl
@[simp] theorem State.setTiming_inFlight : (s.setTiming p e).inFlight = s.inFlight := rfl
@[simp] theorem State.setTiming_nvmStatus : (s.setTiming p e).nvmStatus = s.nvmStatus := rfl
@[simp] theorem State.setTiming_apm : (s.setTiming p e).apm = s.apm := rfl
@[simp] theorem State.setTiming_cw : (s.setTiming p e).cw = s.cw := rfl
@[simp] theorem State.setTiming_addr : (s.setTiming p e).addr = s.addr := rfl
@[simp] theorem State.setTiming_len : (s.setTiming p e).len = s.len := rfl
@[simp] theorem State.setTiming_data : (s.setTiming p e).data = s.data := rfl
@[simp] theorem State.setTiming_result : (s.setTiming p e).result = codeOk := rfl
@[simp] theorem State.setTiming_flag : (s.setTiming p e).flag = true := rfl
@[simp] theorem State.setTiming_presc : (s.setTiming p e).presc = p := rfl
@[simp] theorem State.setTiming_tseg1 : (s.setTiming p e).tseg1 = e.tseg1 := rfl
@[simp] theorem State.setTiming_tseg2 : (s.setTiming p e).tseg2 = e.tseg2 := rfl
@[simp] theorem State.setTiming_trace : (s.setTiming p e).trace = s.trace := rfl
@[simp] theorem State.setTiming_inbox : (s.setTiming p e).inbox = s.inbox := rfl
@[simp] theorem State.setTiming_nvmAnswers : (s.setTiming p e).nvmAnswers = s.nvmAnswers := rfl
@[simp] theorem State.setTiming_freeCount : (s.setTiming p e).freeCount = s.freeCount := rfl

end setTiming

section emit
variable (ev : Event)

@[simp] theorem State.emit_cfg : (s.emit ev).cfg = s.cfg := rfl
@[simp] theorem State.emit_initialised : (s.emit ev).initialised = s.initialised := rfl
@[simp] theorem State.emit_timedOut : (s.emit ev).timedOut = s.timedOut := rfl
@[simp] theorem State.emit_generic : (s.emit ev).generic = s.generic := rfl
@[simp] theorem State.emit_boot : (s.emit ev).boot = s.boot := rfl
@[simp] theorem State.emit_flash : (s.emit ev).flash = s.flash := rfl
@[simp] theorem State.emit_now : (s.emit ev).now = s.now := rfl
@[simp] theorem State.emit_inFlight : (s.emit ev).inFlight = s.inFlight := rfl
@[simp] theorem State.emit_nvmStatus : (s.emit ev).nvmStatus = s.nvmStatus := rfl
@[simp] theorem State.emit_apm : (s.emit ev).apm = s.apm := rfl
@[simp] theorem State.emit_cw : (s.emit ev).cw = s.cw := rfl
@[simp] theorem State.emit_addr : (s.emit ev).addr = s.addr := rfl
@[simp] theorem State.emit_len : (s.emit ev).len = s.len := rfl
@[simp] theorem State.emit_data : (s.emit ev).data = s.data := rfl
@[simp] theorem State.emit_result : (s.emit ev).result = s.result := rfl
@[simp] theorem State.emit_flag : (s.emit ev).flag = s.flag := rfl
@[simp] theorem State.emit_presc : (s.emit ev).presc = s.presc := rfl
@[simp] theorem State.emit_tseg1 : (s.emit ev).tseg1 = s.tseg1 := rfl
@[simp] theorem State.emit_tseg2 : (s.emit ev).tseg2 = s.tseg2 := rfl
@[simp] theorem State.emit_trace : (s.emit ev).trace = s.trace ++ [ev] := rfl
@[simp] theorem State.emit_inbox : (s.emit ev).inbox = s.inbox := rfl
@[simp] theorem State.emit_nvmAnswers : (s.emit ev).nvmAnswers = s.nvmAnswers := rfl
@[simp] theorem State.emit_freeCount : (s.emit ev).freeCount = s.freeCount := rfl

end emit

section fireTrigger

@[simp] theorem State.fireTrigger_cfg : (s.fireTrigger).cfg = s.cfg := rfl
@[simp] theorem State.fireTrigger_initialised : (s.fireTrigger).initialised = s.initialised := rfl
@[simp] theorem State.fireTrigger_timedOut : (s.fireTrigger).timedOut = s.timedOut := rfl
@[simp] theorem State.fireTrigger_generic : (s.fireTrigger).generic = s.generic := rfl
@[simp] theorem State.fireTrigger_boot : (s.fireTrigger).boot = s.boot := rfl
@[simp] theorem State.fireTrigger_flash : (s.fireTrigger).flash = s.flash := rfl
@[simp] theorem State.fireTrigger_now : (s.fireTrigger).now = s.now := rfl
@[simp] theorem State.fireTrigger_inFlight : (s.fireTrigger).inFlight = s.inFlight := rfl
@[simp] theorem State.fireTrigger_nvmStatus : (s.fireTrigger).nvmStatus = s.nvmStatus := rfl
@[simp] theorem State.fireTrigger_apm : (s.fireTrigger).apm = s.apm := rfl
@[simp] theorem State.fireTrigger_cw : (s.fireTrigger).cw = s.cw := rfl
@[simp] theorem State.fireTrigger_addr : (s.fireTrigger).addr = s.addr := rfl
@[simp] theorem State.fireTrigger_len : (s.fireTrigger).len = s.len := rfl
@[simp] theorem State.fireTrigger_data : (s.fireTrigger).data = s.data := rfl
@[simp] theorem State.fireTrigger_result : (s.fireTrigger).result = s.result := rfl
@[simp] theorem State.fireTrigger_flag : (s.fireTrigger).flag = s.flag := rfl
@[simp] theorem State.fireTrigger_presc : (s.fireTrigger).presc = s.presc := rfl
@[simp] theorem State.fireTrigger_tseg1 : (s.fireTrigger).tseg1 = s.tseg1 := rfl
@[simp] theorem State.fireTrigger_tseg2 : (s.fireTrigger).tseg2 = s.tseg2 := rfl
@[simp] theorem State.fireTrigger_trace : (s.fireTrigger).trace = s.trace ++ [.trigger] := rfl
@[simp] theorem State.fireTrigger_inbox : (s.fireTrigger).inbox = s.inbox := rfl
@[simp] theorem State.fireTrigger_nvmAnswers : (s.fireTrigger).nvmAnswers = s.nvmAnswers := rfl
@[simp] theorem State.fireTrigger_freeCount : (s.fireTrigger).freeCount = s.freeCount := rfl

end fireTrigger

section clearStatus

@[simp] theorem State.clearStatus_cfg : (s.clearStatus).cfg = s.cfg := rfl
@[simp] theorem State.clearStatus_initialised : (s.clearStatus).initialised = s.initialised := rfl
@[simp] theorem State.clearStatus_timedOut : (s.clearStatus).timedOut = s.timedOut := rfl
@[simp] theorem State.clearStatus_generic : (s.clearStatus).generic = s.generic := rfl
@[simp] theorem State.clearStatus_boot : (s.clearStatus).boot = s.boot := rfl
@[simp] theorem State.clearStatus_flash : (s.clearStatus).flash = s.flash := rfl
@[simp] theorem State.clearStatus_now : (s.clearStatus).now = s.now := rfl
@[simp] theorem State.clearStatus_inFlight : (s.clearStatus).inFlight = s.inFlight := rfl
@[simp] theorem State.clearStatus_nvmStatus : (s.clearStatus).nvmStatus = .ok := rfl
@[simp] theorem State.clearStatus_apm : (s.clearStatus).apm = s.apm := rfl
@[simp] theorem State.clearStatus_cw : (s.clearStatus).cw = s.cw := rfl
@[simp] theorem State.clearStatus_addr : (s.clearStatus).addr = s.addr := rfl
@[simp] theorem State.clearStatus_len : (s.clearStatus).len = s.len := rfl
@[simp] theorem State.clearStatus_data : (s.clearStatus).data = s.data := rfl
@[simp] theorem State.clearStatus_result : (s.clearStatus).result = s.result := rfl
@[simp] theorem State.clearStatus_flag : (s.clearStatus).flag = s.flag := rfl
@[simp] theorem State.clearStatus_presc : (s.clearStatus).presc = s.presc := rfl
@[simp] theorem State.clearStatus_tseg1 : (s.clearStatus).tseg1 = s.tseg1 := rfl
@[simp] theorem State.clearStatus_tseg2 : (s.clearStatus).tseg2 = s.tseg2 := rfl
@[simp] theorem State.clearStatus_trace : (s.clearStatus).trace = s.trace := rfl
@[simp] theorem State.clearStatus_inbox : (s.clearStatus).inbox = s.inbox := rfl
@[simp] theorem State.clearStatus_nvmAnswers : (s.clearStatus).nvmAnswers = s.nvmAnswers := rfl
@[simp] theorem State.clearStatus_freeCount : (s.clearStatus).freeCount = s.freeCount := rfl

end clearStatus

section startNvm
variable (op : NvmOp)

@[simp] theorem State.startNvm_cfg : (s.startNvm op).cfg = s.cfg := rfl
@[simp] theorem State.startNvm_initialised : (s.startNvm op).initialised = s.initialised := rfl
@[simp] theorem State.startNvm_timedOut : (s.startNvm op).timedOut = s.timedOut := rfl
@[simp] theorem State.startNvm_generic : (s.startNvm op).generic = s.generic := rfl
@[simp] theorem State.startNvm_boot : (s.startNvm op).boot = s.boot := rfl
@[simp] theorem State.startNvm_flash : (s.startNvm op).flash = s.flash := rfl
@[simp] theorem State.startNvm_now : (s.startNvm op).now = s.now := rfl
@[simp] theorem State.startNvm_inFlight : (s.startNvm op).inFlight = some (op.range s.cfg) := rfl
@[simp] theorem State.startNvm_nvmStatus : (s.startNvm op).nvmStatus = s.nvmStatus := rfl
@[simp] theorem State.startNvm_apm : (s.startNvm op).apm = s.apm := rfl
@[simp] theorem State.startNvm_cw : (s.startNvm op).cw = s.cw := rfl
@[simp] theorem State.startNvm_addr : (s.startNvm op).addr = s.addr := rfl
@[simp] theorem State.startNvm_len : (s.startNvm op).len = s.len := rfl
@[simp] theorem State.startNvm_data : (s.startNvm op).data = s.data := rfl
@[simp] theorem State.startNvm_result : (s.startNvm op).result = s.result := rfl
@[simp] theorem State.startNvm_flag : (s.startNvm op).flag = s.flag := rfl
@[simp] theorem State.startNvm_presc : (s.startNvm op).presc = s.presc := rfl
@[simp] theorem State.startNvm_tseg1 : (s.startNvm op).tseg1 = s.tseg1 := rfl
@[simp] theorem State.startNvm_tseg2 : (s.startNvm op).tseg2 = s.tseg2 := rfl
@[simp] theorem State.startNvm_trace : (s.startNvm op).trace = s.trace ++ [op.event] := rfl
@[simp] theorem State.startNvm_inbox : (s.startNvm op).inbox = s.inbox := rfl
@[simp] theorem State.startNvm_nvmAnswers : (s.startNvm op).nvmAnswers = s.nvmAnswers := rfl
@[simp] theorem State.startNvm_freeCount : (s.startNvm op).freeCount = s.freeCount := rfl

end startNvm

section completeNvm
variable (op : NvmOp) (d : NvmDraw)

@[simp] theorem State.completeNvm_cfg : (s.completeNvm op d).cfg = s.cfg := rfl
@[simp] theorem State.completeNvm_initialised : (s.completeNvm op d).initialised = s.initialised := rfl
@[simp] theorem State.completeNvm_timedOut : (s.completeNvm op d).timedOut = s.timedOut := rfl
@[simp] theorem State.completeNvm_generic : (s.completeNvm op d).generic = s.generic := rfl
@[simp] theorem State.completeNvm_boot : (s.completeNvm op d).boot = s.boot := rfl
@[simp] theorem State.completeNvm_flash : (s.completeNvm op d).flash = s.flash.writeBytes op.start d.content := rfl
@[simp] theorem State.completeNvm_now : (s.completeNvm op d).now = s.now + d.dt := rfl
@[simp] theorem State.completeNvm_inFlight : (s.completeNvm op d).inFlight = if d.fin = .late then s.inFlight else none := rfl
@[simp] theorem State.completeNvm_nvmStatus : (s.completeNvm op d).nvmStatus = d.status := rfl
@[simp] theorem State.completeNvm_apm : (s.completeNvm op d).apm = s.apm := rfl
@[simp] theorem State.completeNvm_cw : (s.completeNvm op d).cw = s.cw := rfl
@[simp] theorem State.completeNvm_addr : (s.completeNvm op d).addr = s.addr := rfl
@[simp] theorem State.completeNvm_len : (s.completeNvm op d).len = s.len := rfl
@[simp] theorem State.completeNvm_data : (s.completeNvm op d).data = s.data := rfl
@[simp] theorem State.completeNvm_result : (s.completeNvm op d).result = s.result := rfl
@[simp] theorem State.completeNvm_flag : (s.completeNvm op d).flag = s.flag := rfl
@[simp] theorem State.completeNvm_presc : (s.completeNvm op d).presc = s.presc := rfl
@[simp] theorem State.completeNvm_tseg1 : (s.completeNvm op d).tseg1 = s.tseg1 := rfl
@[simp] theorem State.completeNvm_tseg2 : (s.completeNvm op d).tseg2 = s.tseg2 := rfl
@[simp] theorem State.completeNvm_trace : (s.completeNvm op d).trace = s.trace ++ List.replicate d.services .service := rfl
@[simp] theorem State.completeNvm_inbox : (s.completeNvm op d).inbox = s.inbox := rfl
@[simp] theorem State.completeNvm_nvmAnswers : (s.completeNvm op d).nvmAnswers = s.nvmAnswers := rfl
@[simp] theorem State.completeNvm_freeCount : (s.completeNvm op d).freeCount = s.freeCount := rfl

end completeNvm

section latch
variable (n : Nat) (c : PortCommand)

@[simp] theorem State.latch_cfg : (s.latch n c).cfg = s.cfg := rfl
@[simp] theorem State.latch_initialised : (s.latch n c).initialised = s.initialised := rfl
@[simp] theorem State.latch_timedOut : (s.latch n c).timedOut = s.timedOut := rfl
@[simp] theorem State.latch_generic : (s.latch n c).generic = s.generic := rfl
@[simp] theorem State.latch_boot : (s.latch n c).boot = s.boot := rfl
@[simp] theorem State.latch_flash : (s.latch n c).flash = s.flash := rfl
@[simp] theorem State.latch_now : (s.latch n c).now = s.now + n := rfl
@[simp] theorem State.latch_inFlight : (s.latch n c).inFlight = s.inFlight := rfl
@[simp] theorem State.latch_nvmStatus : (s.latch n c).nvmStatus = s.nvmStatus := rfl
@[simp] theorem State.latch_apm : (s.latch n c).apm = s.apm := rfl
@[simp] theorem State.latch_cw : (s.latch n c).cw = c.cw := rfl
@[simp] theorem State.latch_addr : (s.latch n c).addr = c.addr := rfl
@[simp] theorem State.latch_len : (s.latch n c).len = c.len := rfl
@[simp] theorem State.latch_data : (s.latch n c).data = s.data ++ c.data := rfl
@[simp] theorem State.latch_result : (s.latch n c).result = s.result := rfl
@[simp] theorem State.latch_flag : (s.latch n c).flag = s.flag := rfl
@[simp] theorem State.latch_presc : (s.latch n c).presc = s.presc := rfl
@[simp] theorem State.latch_tseg1 : (s.latch n c).tseg1 = s.tseg1 := rfl
@[simp] theorem State.latch_tseg2 : (s.latch n c).tseg2 = s.tseg2 := rfl
@[simp] theorem State.latch_trace : (s.latch n c).trace = s.trace := rfl
@[simp] theorem State.latch_inbox : (s.latch n c).inbox = s.inbox := rfl
@[simp] theorem State.latch_nvmAnswers : (s.latch n c).nvmAnswers = s.nvmAnswers := rfl
@[simp] theorem State.latch_freeCount : (s.latch n c).freeCount = s.freeCount := rfl

end latch

section powerReset
variable (content : List Byte)

@[simp] theorem State.powerReset_cfg : (s.powerReset content).cfg = s.cfg := rfl
@[simp] theorem State.powerReset_initialised : (s.powerReset content).initialised = false := rfl
@[simp] theorem State.powerReset_timedOut : (s.powerReset content).timedOut = false := rfl
@[simp] theorem State.powerReset_generic : (s.powerReset content).generic = none := rfl
@[simp] theorem State.powerReset_boot : (s.powerReset content).boot = none := rfl
@[simp] theorem State.powerReset_flash : (s.powerReset content).flash = s.flashSettled content := rfl
@[simp] theorem State.powerReset_now : (s.powerReset content).now = s.now := rfl
@[simp] theorem State.powerReset_inFlight : (s.powerReset content).inFlight = none := rfl
@[simp] theorem State.powerReset_nvmStatus : (s.powerReset content).nvmStatus = .ok := rfl
@[simp] theorem State.powerReset_apm : (s.powerReset content).apm = .idle := rfl
@[simp] theorem State.powerReset_cw : (s.powerReset content).cw = 0 := rfl
@[simp] theorem State.powerReset_addr : (s.powerReset content).addr = 0 := rfl
@[simp] theorem State.powerReset_len : (s.powerReset content).len = 0 := rfl
@[simp] theorem State.powerReset_data : (s.powerReset content).data = [] := rfl
@[simp] theorem State.powerReset_result : (s.powerReset content).result = 0 := rfl
@[simp] theorem State.powerReset_flag : (s.powerReset content).flag = false := rfl
@[simp] theorem State.powerReset_presc : (s.powerReset content).presc = 0 := rfl
@[simp] theorem State.powerReset_tseg1 : (s.powerReset content).tseg1 = 0 := rfl
@[simp] theorem State.powerReset_tseg2 : (s.powerReset content).tseg2 = 0 := rfl
@[simp] theorem State.powerReset_trace : (s.powerReset content).trace = [] := rfl
@[simp] theorem State.powerReset_inbox : (s.powerReset content).inbox = s.inbox := rfl
@[simp] theorem State.powerReset_nvmAnswers : (s.powerReset content).nvmAnswers = s.nvmAnswers := rfl
@[simp] theorem State.powerReset_freeCount : (s.powerReset content).freeCount = s.freeCount + 1 := rfl

end powerReset

section endFlight
variable (status : NvmStatus) (content : List Byte)

@[simp] theorem State.endFlight_cfg : (s.endFlight status content).cfg = s.cfg := by
  unfold State.endFlight; split <;> rfl
@[simp] theorem State.endFlight_initialised : (s.endFlight status content).initialised = s.initialised := by
  unfold State.endFlight; split <;> rfl
@[simp] theorem State.endFlight_timedOut : (s.endFlight status content).timedOut = s.timedOut := by
  unfold State.endFlight; split <;> rfl
@[simp] theorem State.endFlight_generic : (s.endFlight status content).generic = s.generic := by
  unfold State.endFlight; split <;> rfl
@[simp] theorem State.endFlight_boot : (s.endFlight status content).boot = s.boot := by
  unfold State.endFlight; split <;> rfl
@[simp] theorem State.endFlight_now : (s.endFlight status content).now = s.now := by
  unfold State.endFlight; split <;> rfl
@[simp] theorem State.endFlight_apm : (s.endFlight status content).apm = s.apm := by
  unfold State.endFlight; split <;> rfl
@[simp] theorem State.endFlight_cw : (s.endFlight status content).cw = s.cw := by
  unfold State.endFlight; split <;> rfl
@[simp] theorem State.endFlight_addr : (s.endFlight status content).addr = s.addr := by
  unfold State.endFlight; split <;> rfl
@[simp] theorem State.endFlight_len : (s.endFlight status content).len = s.len := by
  unfold State.endFlight; split <;> rfl
@[simp] theorem State.endFlight_data : (s.endFlight status content).data = s.data := by
  unfold State.endFlight; split <;> rfl
@[simp] theorem State.endFlight_result : (s.endFlight status content).result = s.result := by
  unfold State.endFlight; split <;> rfl
@[simp] theorem State.endFlight_flag : (s.endFlight status content).flag = s.flag := by
  unfold State.endFlight; split <;> rfl
@[simp] theorem State.endFlight_presc : (s.endFlight status content).presc = s.presc := by
  unfold State.endFlight; split <;> rfl
@[simp] theorem State.endFlight_tseg1 : (s.endFlight status content).tseg1 = s.tseg1 := by
  unfold State.endFlight; split <;> rfl
@[simp] theorem State.endFlight_tseg2 : (s.endFlight status content).tseg2 = s.tseg2 := by
  unfold State.endFlight; split <;> rfl
@[simp] theorem State.endFlight_trace : (s.endFlight status content).trace = s.trace := by
  unfold State.endFlight; split <;> rfl
@[simp] theorem State.endFlight_inbox : (s.endFlight status content).inbox = s.inbox := by
  unfold State.endFlight; split <;> rfl
@[simp] theorem State.endFlight_nvmAnswers : (s.endFlight status content).nvmAnswers = s.nvmAnswers := by
  unfold State.endFlight; split <;> rfl
@[simp] theorem State.endFlight_inFlight : (s.endFlight status content).inFlight = none := by
  unfold State.endFlight; split <;> simp_all
@[simp] theorem State.endFlight_flash : (s.endFlight status content).flash = s.flashSettled content := by
  unfold State.endFlight; split <;> simp_all [State.flashSettled]

end endFlight

section setSlot
variable (S : Slot) (b : Option WriteBlock)

@[simp] theorem State.setSlot_cfg : (s.setSlot S b).cfg = s.cfg := by cases S <;> rfl
@[simp] theorem State.setSlot_initialised : (s.setSlot S b).initialised = s.initialised := by cases S <;> rfl
@[simp] theorem State.setSlot_timedOut : (s.setSlot S b).timedOut = s.timedOut := by cases S <;> rfl
@[simp] theorem State.setSlot_flash : (s.setSlot S b).flash = s.flash := by cases S <;> rfl
@[simp] theorem State.setSlot_now : (s.setSlot S b).now = s.now := by cases S <;> rfl
@[simp] theorem State.setSlot_inFlight : (s.setSlot S b).inFlight = s.inFlight := by cases S <;> rfl
@[simp] theorem State.setSlot_nvmStatus : (s.setSlot S b).nvmStatus = s.nvmStatus := by cases S <;> rfl
@[simp] theorem State.setSlot_apm : (s.setSlot S b).apm = s.apm := by cases S <;> rfl
@[simp] theorem State.setSlot_cw : (s.setSlot S b).cw = s.cw := by cases S <;> rfl
@[simp] theorem State.setSlot_addr : (s.setSlot S b).addr = s.addr := by cases S <;> rfl
@[simp] theorem State.setSlot_len : (s.setSlot S b).len = s.len := by cases S <;> rfl
@[simp] theorem State.setSlot_data : (s.setSlot S b).data = s.data := by cases S <;> rfl
@[simp] theorem State.setSlot_result : (s.setSlot S b).result = s.result := by cases S <;> rfl
@[simp] theorem State.setSlot_flag : (s.setSlot S b).flag = s.flag := by cases S <;> rfl
@[simp] theorem State.setSlot_presc : (s.setSlot S b).presc = s.presc := by cases S <;> rfl
@[simp] theorem State.setSlot_tseg1 : (s.setSlot S b).tseg1 = s.tseg1 := by cases S <;> rfl
@[simp] theorem State.setSlot_tseg2 : (s.setSlot S b).tseg2 = s.tseg2 := by cases S <;> rfl
@[simp] theorem State.setSlot_trace : (s.setSlot S b).trace = s.trace := by cases S <;> rfl
@[simp] theorem State.setSlot_inbox : (s.setSlot S b).inbox = s.inbox := by cases S <;> rfl
@[simp] theorem State.setSlot_nvmAnswers : (s.setSlot S b).nvmAnswers = s.nvmAnswers := by cases S <;> rfl
@[simp] theorem State.setSlot_freeCount : (s.setSlot S b).freeCount = s.freeCount := by cases S <;> rfl
@[simp] theorem State.setSlot_generic_generic : (s.setSlot .generic b).generic = b := rfl
@[simp] theorem State.setSlot_generic_boot : (s.setSlot .generic b).boot = s.boot := rfl
@[simp] theorem State.setSlot_boot_generic : (s.setSlot .boot b).generic = s.generic := rfl
@[simp] theorem State.setSlot_boot_boot : (s.setSlot .boot b).boot = b := rfl
@[simp] theorem State.slot_generic : s.slot .generic = s.generic := rfl
@[simp] theorem State.slot_boot : s.slot .boot = s.boot := rfl
@[simp] theorem State.slot_setSlot_same : (s.setSlot S b).slot S = b := by cases S <;> rfl

theorem State.slot_setSlot_ne {S' : Slot} (h : S' ≠ S) : (s.setSlot S b).slot S' = s.slot S' := by
  cases S <;> cases S' <;> simp_all

theorem setSlot_setSlot (c : Option WriteBlock) : (s.setSlot S b).setSlot S c = s.setSlot S c := by cases S <;> rfl

theorem setSlot_of_slot {w : WriteBlock} (h : s.slot S = some w) : s.setSlot S (some w) = s := by
  cases S <;> simp only [State.slot] at h <;> simp [State.setSlot, ← h]

end setSlot

end Sys2Proof.Machine
end

