-- ==== Sys2Proof/Laws/Run.lean ====
section
/-! SUPPORT. How a piece of an engine command may end, said once: the rule for sequencing, the inversion of a command's end,
and what "only the engine's own state changed" means field by field. -/

namespace Sys2Proof.Machine

/-! ### Sequencing -/

/-- However the piece ends, its end has the property given for that way of ending; a refusal or a fault leaves no state. -/
def Run.Sat {α : Type} (r : Run α) (ok : α → State → Prop) (raised : EngineError → State → Prop)
    (lost : List Byte → State → Prop) : Prop :=
  match r with
  | .ok a t => ok a t
  | .raised e t => raised e t
  | .powerLost content t => lost content t
  | .refused _ => True
  | .fault _ => True

theorem Run.Sat.andThen {α β : Type} {r : Run α} {k : α → State → Run β} {ok : α → State → Prop}
    {ok' : β → State → Prop} {raised : EngineError → State → Prop} {lost : List Byte → State → Prop}
    (h : r.Sat ok raised lost) (hk : ∀ a t, ok a t → (k a t).Sat ok' raised lost) :
    (r.andThen k).Sat ok' raised lost := by
  cases r <;> first | exact hk _ _ h | exact h

theorem Run.Sat.mono {α : Type} {r : Run α} {ok ok' : α → State → Prop} {raised raised' : EngineError → State → Prop}
    {lost lost' : List Byte → State → Prop} (h : r.Sat ok raised lost) (h1 : ∀ a t, ok a t → ok' a t)
    (h2 : ∀ e t, raised e t → raised' e t) (h3 : ∀ c t, lost c t → lost' c t) : r.Sat ok' raised' lost' := by
  cases r <;> first | exact h1 _ _ h | exact h2 _ _ h | exact h3 _ _ h | trivial

/-- A sequence goes on exactly where both pieces do. -/
theorem Run.andThen_eq_ok {α β : Type} {r : Run α} {k : α → State → Run β} {b : β} {u : State} :
    r.andThen k = .ok b u ↔ ∃ a t, r = .ok a t ∧ k a t = .ok b u := by
  cases r <;> simp [Run.andThen]

@[simp] theorem Run.andThen_ok {α β : Type} (a : α) (s : State) (k : α → State → Run β) :
    (Run.ok a s).andThen k = k a s := rfl

@[simp] theorem Run.andThen_refused {α β : Type} (r : Refusal) (k : α → State → Run β) :
    (Run.refused r).andThen k = .refused r := rfl

@[simp] theorem Run.andThen_raised {α β : Type} (e : EngineError) (s : State) (k : α → State → Run β) :
    (Run.raised e s).andThen k = .raised e s := rfl

@[simp] theorem Run.andThen_powerLost {α β : Type} (c : List Byte) (s : State) (k : α → State → Run β) :
    (Run.powerLost c s).andThen k = .powerLost c s := rfl

@[simp] theorem Run.andThen_fault {α β : Type} (f : Fault) (k : α → State → Run β) :
    (Run.fault f).andThen k = .fault f := rfl

/-! ### The end of a command -/

/-- Everything a command's end can be, when it is a next state. -/
theorem finish_next {r : Run Unit} {t : State} (h : finish r = .next t) :
    (∃ u, r = .ok () u ∧ t = u.answer codeOk) ∨ (∃ e u, r = .raised e u ∧ t = u.takeError e) ∨
      (∃ c u, r = .powerLost c u ∧ t = u.powerReset c) := by
  cases r with
  | ok a u => cases a; exact .inl ⟨u, rfl, by simpa [finish] using h.symm⟩
  | raised e u => exact .inr (.inl ⟨e, u, rfl, by simpa [finish] using h.symm⟩)
  | powerLost c u => exact .inr (.inr ⟨c, u, rfl, by simpa [finish] using h.symm⟩)
  | refused r => simp [finish] at h
  | fault f => simp [finish] at h

/-- What holds of every way the body can end holds of the command's next state. -/
theorem finish_sat {r : Run Unit} {t : State} {P : State → Prop} {ok : Unit → State → Prop}
    {raised : EngineError → State → Prop} {lost : List Byte → State → Prop} (h : finish r = .next t)
    (hr : r.Sat ok raised lost) (h1 : ∀ u, ok () u → P (u.answer codeOk))
    (h2 : ∀ e u, raised e u → P (u.takeError e)) (h3 : ∀ c u, lost c u → P (u.powerReset c)) : P t := by
  rcases finish_next h with ⟨u, rfl, rfl⟩ | ⟨e, u, rfl, rfl⟩ | ⟨c, u, rfl, rfl⟩
  · exact h1 u hr
  · exact h2 e u hr
  · exact h3 c u hr

theorem EngineError.code_ne_ok (e : EngineError) : e.code ≠ codeOk := by cases e <;> decide

theorem configured_next {s t : State} {k : Host.Outcome State Fault Refusal} (h : configured s k = .next t) :
    s.cfg.wf = true ∧ k = .next t := by
  unfold configured at h
  split_ifs at h with hw
  exact ⟨hw, h⟩

theorem configured_of_wf {s : State} (h : s.cfg.wf = true) (k : Host.Outcome State Fault Refusal) :
    configured s k = k := if_pos h

theorem engineCommand_next {body : State → Run Unit} {s t : State} (h : engineCommand body s = .next t) :
    s.cfg.wf = true ∧ s.initialised = true ∧ finish (body s) = .next t := by
  obtain ⟨hw, hk⟩ := configured_next h
  split_ifs at hk with hi
  exact ⟨hw, hi, hk⟩

theorem engineCommand_of_init {body : State → Run Unit} {s : State} (hw : s.cfg.wf = true)
    (hi : s.initialised = true) : engineCommand body s = finish (body s) := by
  simp [engineCommand, configured, hw, hi]

/-! ### Only the engine's own state -/

theorem onlyEngine_iff {s t : State} : OnlyEngine s t ↔
    t.cfg = s.cfg ∧ t.initialised = s.initialised ∧ t.apm = s.apm ∧ t.cw = s.cw ∧ t.addr = s.addr ∧ t.len = s.len ∧
      t.data = s.data ∧ t.presc = s.presc ∧ t.tseg1 = s.tseg1 ∧ t.tseg2 = s.tseg2 ∧
      t.inbox = s.inbox := by
  cases s; cases t; simp [OnlyEngine]

theorem OnlyEngine.refl (s : State) : OnlyEngine s s := rfl

theorem OnlyEngine.trans {s t u : State} (h1 : OnlyEngine s t) (h2 : OnlyEngine t u) : OnlyEngine s u := by
  rw [onlyEngine_iff] at *
  simp_all

theorem OnlyEngine.cfg {s t : State} (h : OnlyEngine s t) : t.cfg = s.cfg := (onlyEngine_iff.1 h).1

theorem OnlyEngine.initialised {s t : State} (h : OnlyEngine s t) : t.initialised = s.initialised :=
  (onlyEngine_iff.1 h).2.1

theorem onlyEngine_setSlot (s : State) (S : Slot) (b : Option WriteBlock) : OnlyEngine s (s.setSlot S b) := by
  rw [onlyEngine_iff]; simp

theorem onlyEngine_answer (s : State) (v : BitVec 8) : OnlyEngine s (s.answer v) := by
  rw [onlyEngine_iff]; simp

/-- A command's end after a piece that changed only the engine's own state: it too changed only that, or power was lost and
the state is that of reset. -/
theorem afterReset_powerReset {s u : State} (h : OnlyEngine s u) (c : List Byte) : AfterReset s (u.powerReset c) := by
  have := onlyEngine_iff.1 h
  simp only [AfterReset, State.powerReset, this.1, this.2.2.2.2.2.2.2.2.2.2]

end Sys2Proof.Machine
end

