-- ==== Sys2Proof/Laws/Sequencer.lean ====
section
/-! SUPPORT. What each shared operation of the engine can do, said once: the physical operation (R107 to R109), the program of a
block (R105), the erase of a sector (R106), each also under a given draw, and the block switch with its load and staging (R103,
R104, R113). -/

namespace Sys2Proof.Machine

/-! ### The physical operation -/

@[simp] theorem length_fitContent (k n : Nat) (l : List Byte) : (fitContent k n l).length = n := by
  induction n generalizing l with
  | zero => rfl
  | succ n ih => cases l <;> simp [fitContent, ih]

/-- The content an operation leaves is the draw's wherever the draw lists a byte. -/
theorem getElem?_fitContent (k n : Nat) (l : List Byte) {i : Nat} (h1 : i < n) (h2 : i < l.length) :
    (fitContent k n l)[i]? = l[i]? := by
  induction n generalizing l i with
  | zero => omega
  | succ n ih =>
    cases l with
    | nil => simp at h2
    | cons v rest =>
      cases i with
      | zero => simp [fitContent]
      | succ i => simpa [fitContent] using ih rest (by omega) (by simpa using h2)

/-- The operation's own data fill its range: the WriteBlock has BLOCK_SIZE bytes. An erase always has. -/
def NvmOp.Sized (c : Config) (op : NvmOp) : Prop := (op.intended c).length = op.span c

theorem NvmOp.sized_erase (c : Config) (x : Sector) : (NvmOp.erase x).Sized c := by
  simp [NvmOp.Sized, NvmOp.intended, NvmOp.span]

theorem NvmOp.sized_program {c : Config} {b : WriteBlock} (h : b.buffer.length = c.blockSize) :
    (NvmOp.program b).Sized c := h

/-- The constraints of R109 on the draw of an operation. -/
structure LegalDraw (c : Config) (op : NvmOp) (d : NvmDraw) : Prop where
  span : d.content.length = op.span c
  late : d.fin = .late → op.limit c < d.dt
  erased : eraseSucceeds op d = true → d.content = op.intended c

theorem legalDraw_legal (c : Config) (k : Nat) {op : NvmOp} (d : NvmDraw) (h : op.Sized c) :
    LegalDraw c op (legalDraw c k op d) := by
  refine ⟨?_, fun hl => ?_, fun he => ?_⟩
  · simp only [legalDraw]
    split_ifs
    · exact h
    · simp
  · simp only [legalDraw] at hl ⊢
    rw [if_pos hl]; omega
  · have : eraseSucceeds op d = true := by cases op <;> exact he
    simp [legalDraw, this]

theorem intendedDraw_legal {c : Config} {op : NvmOp} (d : NvmDraw) (h : op.Sized c) :
    LegalDraw c op (intendedDraw c op d) :=
  ⟨h, fun hl => by simp [intendedDraw] at hl, fun _ => rfl⟩

/-- The conditions under which the hardware starts an operation (R108, R199, R46). -/
structure Startable (op : NvmOp) (s : State) : Prop where
  notTimedOut : s.timedOut = false
  idle : s.inFlight = none
  covered : s.cfg.covered op.start (op.span s.cfg) = true

/-- `t` is `s` after the operation ran to an outcome, good or bad: R109's step, and nothing else. -/
structure OpRan (op : NvmOp) (s t : State) : Prop where
  startable : Startable op s
  only : OnlyEngine s t
  generic : t.generic = s.generic
  boot : t.boot = s.boot
  flash : ∀ a, (a < op.start ∨ op.start + op.span s.cfg ≤ a) → t.flash.read a = s.flash.read a
  wf : s.flash.wf = true → t.flash.wf = true
  time : s.now ≤ t.now
  trace : ∃ n, t.trace = s.trace ++ op.event :: List.replicate n .service
  answers : t.nvmAnswers = s.nvmAnswers.tail

/-- `t` is `s` where power was lost before the operation or in it: flash and the slots are as they were, and the operation may
be in flight. -/
structure OpCut (op : NvmOp) (s t : State) : Prop where
  startable : Startable op s
  only : OnlyEngine s t
  generic : t.generic = s.generic
  boot : t.boot = s.boot
  flash : t.flash = s.flash
  time : t.now = s.now
  flight : t.inFlight = none ∨ t.inFlight = some (op.range s.cfg)

/-- The draw's outcome decides how the operation ends (R105, R168). -/
theorem runDraw_sat {op : NvmOp} {s u : State} {d : NvmDraw} (hs : Startable op s) (hd : LegalDraw s.cfg op d)
    (hu : ∃ k, u = { s with nvmAnswers := s.nvmAnswers.tail, freeCount := k }) :
    (runDraw op d u).Sat
      (fun _ t => OpRan op s t ∧ d.fin = .inTime ∧ d.status = .ok ∧ t.inFlight = none ∧ t.timedOut = false ∧
        t.flash = s.flash.writeBytes op.start d.content)
      (fun e t => OpRan op s t ∧ t.flash = s.flash.writeBytes op.start d.content ∧ t.nvmStatus = d.status ∧
        ((e = .timeout ∧ d.fin = .late ∧ t.inFlight = some (op.range s.cfg) ∧ t.timedOut = true ∧
            s.now + op.limit s.cfg < t.now) ∨
          (e = .hardwareFault ∧ d.fin = .inTime ∧ d.status = .fault ∧ t.inFlight = none ∧ t.timedOut = false)))
      (fun _ _ => False) := by
  obtain ⟨k, rfl⟩ := hu
  have hran : ∀ b : Bool, OpRan op s { ((({ s with nvmAnswers := s.nvmAnswers.tail, freeCount := k } : State).clearStatus.startNvm
      op).completeNvm op d) with timedOut := b } := fun b =>
    { startable := hs
      only := by rw [onlyEngine_iff]; simp
      generic := rfl
      boot := rfl
      flash := fun a ha => Flash.read_writeBytes_out _ (by rw [hd.span]; exact ha)
      wf := fun h => Flash.wf_writeBytes _ _ h
      time := Nat.le_add_right _ _
      trace := ⟨d.services, by simp⟩
      answers := rfl }
  have hran' := hran s.timedOut
  simp only [runDraw]
  cases hfin : d.fin with
  | late =>
    refine ⟨hran true, rfl, rfl, .inl ⟨rfl, rfl, ?_, rfl, ?_⟩⟩
    · simp [hfin]
    · exact Nat.add_lt_add_left (hd.late hfin) _
  | inTime =>
    cases hst : d.status with
    | fault =>
      simp only [State.completeNvm_nvmStatus, hst]
      exact ⟨hran', rfl, hst, .inr ⟨rfl, by simp, by simp, by simp [hfin], hs.notTimedOut⟩⟩
    | ok =>
      simp only [State.completeNvm_nvmStatus, hst]
      exact ⟨hran', by simp, by simp, by simp [hfin], hs.notTimedOut, rfl⟩

/-- Where a physical operation is not refused and does not fault, it was startable. -/
theorem physicalOp_of_startable {op : NvmOp} {s : State} (h : Startable op s) :
    physicalOp op s =
      match s.nextAnswer with
      | (.outcome d, t) => runDraw op (legalDraw s.cfg s.freeCount op d) t
      | (.sound d, t) =>
        if premisesApply s.cfg s.flash op then runDraw op (intendedDraw s.cfg op d) t
        else runDraw op (legalDraw s.cfg s.freeCount op d) t
      | (.cutBefore, t) => .powerLost [] t
      | (.cutDuring content, t) => .powerLost content (t.clearStatus.startNvm op) := by
  rw [physicalOp, if_neg (by simp [h.notTimedOut]), if_neg (by simp [State.nvmBusy, h.idle]), if_neg (by simp [h.covered])] <;>
    rfl

theorem physicalOp_cases (op : NvmOp) (s : State) :
    (∃ r, physicalOp op s = .refused r) ∨ (∃ f, physicalOp op s = .fault f) ∨ Startable op s := by
  by_cases h1 : s.timedOut = true
  · exact .inl ⟨.afterTimeout, by simp [physicalOp, h1]⟩
  by_cases h2 : s.nvmBusy = true
  · exact .inl ⟨.nvmBusy, by simp [physicalOp, h1, h2]⟩
  by_cases h3 : s.cfg.covered op.start (op.span s.cfg) = true
  · exact .inr (.inr ⟨by simpa using h1, by simpa [State.nvmBusy] using h2, h3⟩)
  · exact .inr (.inl ⟨.noDevice op.start, by simp [physicalOp, h1, h2, h3]⟩)

theorem nextAnswer_snd (s : State) :
    s.nextAnswer.2 = { s with nvmAnswers := s.nvmAnswers.tail, freeCount := s.freeCount + 1 } := by
  cases h : s.nvmAnswers <;> simp [State.nextAnswer, h]

/-- Everything a physical operation can do (R105 to R109, R192). -/
theorem physicalOp_sat {op : NvmOp} {s : State} (hsz : op.Sized s.cfg) :
    (physicalOp op s).Sat
      (fun _ t => OpRan op s t ∧ t.inFlight = none ∧ t.timedOut = false ∧
        ∃ content, t.flash = s.flash.writeBytes op.start content ∧
          (∀ x, op = .erase x → content = op.intended s.cfg) ∧ content.length = op.span s.cfg)
      (fun e t => OpRan op s t ∧
        ((e = .timeout ∧ t.inFlight = some (op.range s.cfg) ∧ t.timedOut = true ∧ s.now + op.limit s.cfg < t.now) ∨
          (e = .hardwareFault ∧ t.inFlight = none ∧ t.timedOut = false)))
      (fun _ t => OpCut op s t) := by
  rcases physicalOp_cases op s with ⟨r, hr⟩ | ⟨f, hf⟩ | hs
  · rw [hr]; trivial
  · rw [hf]; trivial
  · have hrun : ∀ d, LegalDraw s.cfg op d → (runDraw op d s.nextAnswer.2).Sat
        (fun _ t => OpRan op s t ∧ t.inFlight = none ∧ t.timedOut = false ∧
          ∃ content, t.flash = s.flash.writeBytes op.start content ∧
            (∀ x, op = .erase x → content = op.intended s.cfg) ∧ content.length = op.span s.cfg)
        (fun e t => OpRan op s t ∧
          ((e = .timeout ∧ t.inFlight = some (op.range s.cfg) ∧ t.timedOut = true ∧ s.now + op.limit s.cfg < t.now) ∨
            (e = .hardwareFault ∧ t.inFlight = none ∧ t.timedOut = false)))
        (fun _ t => OpCut op s t) := by
      intro d hd
      refine (runDraw_sat hs hd ⟨_, nextAnswer_snd s⟩).mono ?_ ?_ ?_
      · rintro _ t ⟨h1, h2, h3, h4, h5, h6⟩
        refine ⟨h1, h4, h5, d.content, h6, ?_, hd.span⟩
        rintro x rfl
        exact hd.erased (by simp [eraseSucceeds, h2, h3])
      · rintro e t ⟨h1, _, _, h4⟩
        exact ⟨h1, h4.imp (fun h => ⟨h.1, h.2.2⟩) (fun h => ⟨h.1, h.2.2.2⟩)⟩
      · intro _ _ h; exact h.elim
    rw [physicalOp_of_startable hs]
    have hsnd := nextAnswer_snd s
    generalize hna : s.nextAnswer = na at hrun hsnd
    obtain ⟨a, t⟩ := na
    cases a with
    | outcome d => exact hrun _ (legalDraw_legal _ _ _ hsz)
    | sound d =>
      simp only
      split_ifs
      · exact hrun _ (intendedDraw_legal _ hsz)
      · exact hrun _ (legalDraw_legal _ _ _ hsz)
    | cutBefore =>
      simp only at hsnd
      subst hsnd
      exact ⟨hs, by rw [onlyEngine_iff]; simp, rfl, rfl, rfl, rfl, .inl hs.idle⟩
    | cutDuring content =>
      simp only at hsnd
      subst hsnd
      exact ⟨hs, by rw [onlyEngine_iff]; simp, rfl, rfl, rfl, rfl, .inr rfl⟩

/-- On a device that meets the premises of R110 an operation they apply to succeeds as intended. -/
theorem physicalOp_sound {op : NvmOp} {s : State} {d : NvmDraw} {rest : List NvmAnswer} (hs : Startable op s)
    (hsz : op.Sized s.cfg) (ha : s.nvmAnswers = .sound d :: rest) (hp : premisesApply s.cfg s.flash op = true) :
    ∃ t, physicalOp op s = .ok () t ∧ OpRan op s t ∧ t.inFlight = none ∧ t.timedOut = false ∧
      t.flash = s.flash.writeBytes op.start (op.intended s.cfg) := by
  have hna : s.nextAnswer = (.sound d, { s with nvmAnswers := rest, freeCount := s.freeCount + 1 }) := by
    simp [State.nextAnswer, ha]
  have h := runDraw_sat hs (intendedDraw_legal (c := s.cfg) d hsz) ⟨_, nextAnswer_snd s⟩
  rw [physicalOp_of_startable hs, hna]
  rw [hna] at h
  simp only [hp, if_true]
  generalize hr : runDraw op (intendedDraw s.cfg op d) { s with nvmAnswers := rest, freeCount := s.freeCount + 1 } = r at h
  cases r with
  | ok a t => exact ⟨t, rfl, h.1, h.2.2.2.1, h.2.2.2.2.1, h.2.2.2.2.2⟩
  | raised e t =>
    exfalso
    rcases h.2.2.2 with h | h
    · exact absurd h.2.1 (by simp [intendedDraw])
    · exact absurd h.2.2.1 (by simp [intendedDraw])
  | powerLost c t => exact h.elim
  | refused r => simp [runDraw, intendedDraw, State.completeNvm] at hr
  | fault f => simp [runDraw, intendedDraw, State.completeNvm] at hr

/-! ### Operations answered by a given draw -/

/-- The operation failed under the draw `d` (R105, R106, R109, R168): the error is Timeout, else HardwareFault, else
VerifyMismatch, and the hardware is left as R109 says. -/
structure Failed (op : NvmOp) (d : NvmDraw) (e : EngineError) (s t : State) : Prop where
  ran : OpRan op s t
  code : e.code = if d.fin = .late then 3 else if d.status = .fault then 4 else 5
  status : t.nvmStatus = d.status
  busy : t.nvmBusy = decide (d.fin = .late)
  mark : t.timedOut = decide (d.fin = .late)
  time : d.fin = .late → s.now + op.limit s.cfg < t.now

/-- Where the answer is a draw that stands as it is, the operation runs to that draw made legal. -/
theorem physicalOp_of_draw {op : NvmOp} {s : State} {d : NvmDraw} (hs : Startable op s)
    (ha : s.nvmAnswers[0]? = some (.outcome d) ∨
      (s.nvmAnswers[0]? = some (.sound d) ∧ premisesApply s.cfg s.flash op = false)) :
    physicalOp op s = runDraw op (legalDraw s.cfg s.freeCount op d) s.nextAnswer.2 := by
  rw [physicalOp_of_startable hs]
  cases hn : s.nvmAnswers with
  | nil => rcases ha with ha | ⟨ha, _⟩ <;> rw [hn] at ha <;> cases ha
  | cons x rest =>
    rcases ha with ha | ⟨ha, hp⟩ <;> rw [hn] at ha <;> cases ha
    · simp [State.nextAnswer, hn]
    · simp [State.nextAnswer, hn, hp]

/-- A draw that is Late or reports a fault fails the operation. -/
theorem runDraw_fails {op : NvmOp} {s u : State} {d d' : NvmDraw} (hs : Startable op s) (hd : LegalDraw s.cfg op d')
    (hu : ∃ k, u = { s with nvmAnswers := s.nvmAnswers.tail, freeCount := k }) (h1 : d'.fin = d.fin)
    (h2 : d'.status = d.status) (hf : d.fin = .late ∨ d.status = .fault) :
    ∃ e t, runDraw op d' u = .raised e t ∧ Failed op d e s t := by
  have h := runDraw_sat hs hd hu
  generalize hr : runDraw op d' u = r at h
  cases r with
  | ok a t =>
    rcases hf with hf | hf
    · rw [← h1, h.2.1] at hf; cases hf
    · rw [← h2, h.2.2.1] at hf; cases hf
  | raised e t =>
    obtain ⟨h3, _, h5, h6⟩ := h
    rw [h1, h2] at h6
    refine ⟨e, t, rfl, h3, ?_, h5.trans h2, ?_, ?_, ?_⟩ <;>
      rcases h6 with ⟨rfl, h7, h8, h9, h10⟩ | ⟨rfl, h7, h8, h9, h10⟩
    · simp [h7, EngineError.code]
    · simp [h7, h8, EngineError.code]
    · simp [State.nvmBusy, h7, h8]
    · simp [State.nvmBusy, h7, h9]
    · simp [h7, h9]
    · simp [h7, h10]
    · exact fun _ => h10
    · rw [h7]; intro h; cases h
  | powerLost c t => exact h.elim
  | refused r => exact absurd hr (by unfold runDraw; cases d'.fin <;> simp <;> split <;> simp)
  | fault f => exact absurd hr (by unfold runDraw; cases d'.fin <;> simp <;> split <;> simp)

/-- A draw that completes in time without fault lets the operation go on, with the draw's content in flash. -/
theorem runDraw_goes {op : NvmOp} {s u : State} {d : NvmDraw} (hs : Startable op s) (hd : LegalDraw s.cfg op d)
    (hu : ∃ k, u = { s with nvmAnswers := s.nvmAnswers.tail, freeCount := k }) (h1 : d.fin = .inTime)
    (h2 : d.status = .ok) :
    ∃ t, runDraw op d u = .ok () t ∧ OpRan op s t ∧ t.inFlight = none ∧ t.timedOut = false ∧ t.nvmStatus = .ok ∧
      t.flash = s.flash.writeBytes op.start d.content := by
  have h := runDraw_sat hs hd hu
  have hr : runDraw op d u = .ok () ((u.clearStatus.startNvm op).completeNvm op d) := by
    simp [runDraw, h1, h2]
  rw [hr] at h
  exact ⟨_, hr, h.1, h.2.2.2.1, h.2.2.2.2.1, h2, h.2.2.2.2.2⟩

theorem eraseSector_fails {x : Sector} {s : State} {d : NvmDraw} (hs : Startable (.erase x) s)
    (ha : s.nvmAnswers[0]? = some (.outcome d)) (hf : d.fin = .late ∨ d.status = .fault) :
    ∃ e t, eraseSector x s = .raised e t ∧ Failed (.erase x) d e s t := by
  rw [eraseSector, physicalOp_of_draw hs (.inl ha)]
  exact runDraw_fails hs (legalDraw_legal _ _ _ (NvmOp.sized_erase _ x)) ⟨_, nextAnswer_snd s⟩ rfl rfl hf

/-- An erase that is answered well goes on. -/
theorem eraseSector_goes {x : Sector} {s : State} (hs : Startable (.erase x) s) (ha : s.ErasesWell 0) :
    ∃ t, eraseSector x s = .ok () t ∧ OpRan (.erase x) s t ∧ t.inFlight = none ∧ t.timedOut = false := by
  have hsz := NvmOp.sized_erase s.cfg x
  obtain ⟨d, hd | ⟨hd, h1, h2⟩⟩ := ha
  · cases hn : s.nvmAnswers with
    | nil => rw [hn] at hd; cases hd
    | cons y rest =>
      rw [hn] at hd; cases hd
      obtain ⟨t, h1, h2, h3, h4, _⟩ := physicalOp_sound hs hsz hn rfl
      exact ⟨t, h1, h2, h3, h4⟩
  · rw [eraseSector, physicalOp_of_draw hs (.inl hd)]
    obtain ⟨t, h3, h4, h5, h6, _⟩ := runDraw_goes hs (legalDraw_legal s.cfg s.freeCount d hsz) ⟨_, nextAnswer_snd s⟩ h1 h2
    exact ⟨t, h3, h4, h5, h6⟩

/-! ### Program and erase -/

/-- Everything the program of a block can do (R105): where it goes on, flash equals the buffer. -/
theorem programBlock_sat {b : WriteBlock} {s : State} (hb : b.buffer.length = s.cfg.blockSize) :
    (programBlock b s).Sat
      (fun _ t => OpRan (.program b) s t ∧ t.inFlight = none ∧ t.timedOut = false ∧
        t.flash.readBytes b.base.toNat s.cfg.blockSize = b.buffer)
      (fun e t => OpRan (.program b) s t ∧
        ((e = .timeout ∧ t.inFlight = some (NvmOp.range s.cfg (.program b)) ∧ t.timedOut = true ∧
            s.now + s.cfg.programTimeout < t.now) ∨
          ((e = .hardwareFault ∨ e = .verifyMismatch) ∧ t.inFlight = none ∧ t.timedOut = false)))
      (fun _ t => OpCut (.program b) s t) := by
  refine Run.Sat.andThen ((physicalOp_sat (NvmOp.sized_program hb)).mono (fun _ _ h => h) ?_ (fun _ _ h => h)) ?_
  · rintro e t ⟨h1, h2⟩
    exact ⟨h1, h2.imp (fun h => h) (fun h => ⟨.inl h.1, h.2⟩)⟩
  · rintro _ t ⟨h1, h2, h3, _⟩
    simp only [readBack]
    split_ifs with h
    · exact ⟨h1, h2, h3, by rw [← h1.only.cfg]; exact h⟩
    · exact ⟨h1, .inr ⟨.inr rfl, h2, h3⟩⟩

/-- NVM_PROGRAM_ERASED_OK (R110): the program of an erased block succeeds, and flash holds the buffer. -/
theorem programBlock_sound {b : WriteBlock} {s : State} {d : NvmDraw} {rest : List NvmAnswer}
    (hs : Startable (.program b) s) (hb : b.buffer.length = s.cfg.blockSize) (hw : s.flash.wf = true)
    (ha : s.nvmAnswers = .sound d :: rest) (he : s.BlockErased b.base.toNat) :
    ∃ t, programBlock b s = .ok () t ∧ OpRan (.program b) s t ∧ t.inFlight = none ∧ t.timedOut = false ∧
      t.flash.readBytes b.base.toNat s.cfg.blockSize = b.buffer := by
  have hp : premisesApply s.cfg s.flash (.program b) = true := by
    simp only [premisesApply, erasedRange, List.all_eq_true, decide_eq_true_eq]
    intro v hv
    obtain ⟨i, hi⟩ := List.getElem?_of_mem hv
    rw [Flash.getElem?_readBytes] at hi
    split_ifs at hi with h
    rw [← Option.some.inj hi]
    exact he _ ⟨Nat.le_add_right _ _, by omega⟩
  obtain ⟨t, h1, h2, h3, h4, h5⟩ := physicalOp_sound hs (NvmOp.sized_program hb) ha hp
  have hread : t.flash.readBytes b.base.toNat s.cfg.blockSize = b.buffer := by
    rw [h5, ← hb]
    exact Flash.readBytes_writeBytes _ _ hw
  refine ⟨t, ?_, h2, h3, h4, hread⟩
  rw [programBlock, h1, Run.andThen_ok, readBack, h2.only.cfg, if_pos hread]

/-- The premises R110 do not apply to the program of a block that is not erased. -/
theorem premises_of_not_erased {s : State} {b : WriteBlock} (h : ¬ s.BlockErased b.base.toNat) :
    premisesApply s.cfg s.flash (.program b) = false := by
  rw [← Bool.not_eq_true]
  intro hp
  simp only [premisesApply, erasedRange, List.all_eq_true, decide_eq_true_eq] at hp
  refine h fun a ha => hp _ (List.mem_of_getElem? (i := a - b.base.toNat) ?_)
  unfold inBlock at ha
  rw [Flash.getElem?_readBytes, if_pos (by omega), show b.base.toNat + (a - b.base.toNat) = a by omega]

theorem State.Draws.answer {s : State} {b : WriteBlock} {d : NvmDraw} (h : s.Draws 0 b.base.toNat d) :
    s.nvmAnswers[0]? = some (.outcome d) ∨
      (s.nvmAnswers[0]? = some (.sound d) ∧ premisesApply s.cfg s.flash (.program b) = false) :=
  h.imp_right fun h => ⟨h.1, premises_of_not_erased h.2⟩

/-- A program whose draw fails it ends in the error R168 gives. -/
theorem programBlock_fails {b : WriteBlock} {s : State} {d : NvmDraw} (hs : Startable (.program b) s)
    (hb : b.buffer.length = s.cfg.blockSize) (hw : s.flash.wf = true) (ha : s.Draws 0 b.base.toNat d)
    (hf : failsProgram s.cfg b d) : ∃ e t, programBlock b s = .raised e t ∧ Failed (.program b) d e s t := by
  have hl := legalDraw_legal s.cfg s.freeCount d (NvmOp.sized_program hb)
  rw [programBlock, physicalOp_of_draw hs ha.answer]
  by_cases hf' : d.fin = .late ∨ d.status = .fault
  · obtain ⟨e, t, h1, h2⟩ := runDraw_fails (d := d) hs hl ⟨_, nextAnswer_snd s⟩ rfl rfl hf'
    exact ⟨e, t, by rw [h1, Run.andThen_raised], h2⟩
  · have h1 : d.fin = .inTime := by cases h : d.fin with
      | inTime => rfl
      | late => exact absurd (.inl h) hf'
    have h2 : d.status = .ok := by cases h : d.status with
      | ok => rfl
      | fault => exact absurd (.inr h) hf'
    obtain ⟨i, v, hv, hi, hbv⟩ := (hf.resolve_left fun h => hf' (.inl h)).resolve_left fun h => hf' (.inr h)
    obtain ⟨t, h3, h4, h5, h6, h7, h8⟩ := runDraw_goes hs hl ⟨_, nextAnswer_snd s⟩ h1 h2
    refine ⟨.verifyMismatch, t, ?_, h4, by simp [h1, h2, EngineError.code], h7.trans h2.symm, by simp [State.nvmBusy, h5, h1],
      by simp [h6, h1], by rw [h1]; intro h; cases h⟩
    rw [h3, Run.andThen_ok, readBack, if_neg]
    intro heq
    apply hbv
    have hc : (legalDraw s.cfg s.freeCount (.program b) d).content[i]? = some v := by
      simp only [legalDraw, eraseSucceeds, Bool.false_eq_true, if_false]
      rw [getElem?_fitContent _ _ _ (by exact hi) (List.getElem?_eq_some_iff.1 hv).1, hv]
    rw [← heq, Flash.getElem?_readBytes, if_pos (by rw [h4.only.cfg]; exact hi), h8, Flash.read_writeBytes _ _ _ hw]
    simp [NvmOp.start, hc]

/-- A content that begins with the buffer is fitted to the buffer. -/
theorem fitContent_of_take {k n : Nat} {l b : List Byte} (hb : b.length = n) (h : l.take n = b) : fitContent k n l = b := by
  have hlen : n ≤ l.length := by
    have := congrArg List.length h
    simp only [List.length_take] at this; omega
  refine List.ext_getElem? fun i => ?_
  by_cases hi : i < n
  · rw [getElem?_fitContent _ _ _ hi (by omega), ← h, List.getElem?_take, if_pos hi]
  · rw [List.getElem?_eq_none (by simp; omega), List.getElem?_eq_none (by omega)]

/-- A program that is answered well goes on, and flash holds the buffer. -/
theorem programBlock_goes {b : WriteBlock} {s : State} (hs : Startable (.program b) s)
    (hb : b.buffer.length = s.cfg.blockSize) (hw : s.flash.wf = true) (ha : s.ProgramsWell 0 b) :
    ∃ t, programBlock b s = .ok () t ∧ OpRan (.program b) s t ∧ t.inFlight = none ∧ t.timedOut = false := by
  obtain ⟨d, ⟨hd, he⟩ | ⟨hd, h1, h2, h3⟩⟩ := ha
  · cases hn : s.nvmAnswers with
    | nil => rw [hn] at hd; cases hd
    | cons y rest =>
      rw [hn] at hd; cases hd
      obtain ⟨t, h1, h2, h3, h4, _⟩ := programBlock_sound hs hb hw hn he
      exact ⟨t, h1, h2, h3, h4⟩
  · obtain ⟨t, h4, h5, h6, h7, _, h9⟩ := runDraw_goes hs (legalDraw_legal s.cfg s.freeCount d (NvmOp.sized_program hb))
      ⟨_, nextAnswer_snd s⟩ h1 h2
    have hc : (legalDraw s.cfg s.freeCount (.program b) d).content = b.buffer := fitContent_of_take hb h3
    refine ⟨t, ?_, h5, h6, h7⟩
    rw [programBlock, physicalOp_of_draw hs hd.answer, h4, Run.andThen_ok, readBack, if_pos]
    rw [h9, hc, h5.only.cfg, ← hb]
    exact Flash.readBytes_writeBytes _ _ hw

/-! ### Load, stage, switch -/

theorem load_of_covered {S : Slot} {B : Nat} {s : State} (h : s.cfg.covered B s.cfg.blockSize = true) :
    load S B s = .ok S (s.setSlot S (some ⟨BitVec.ofNat 32 B, s.flash.readBytes B s.cfg.blockSize⟩)) := if_pos h

theorem stage_of_slot {S : Slot} {a : Nat} {v : Byte} {s : State} {b : WriteBlock} (h : s.slot S = some b) :
    stage S a v s = s.setSlot S (some { b with buffer := b.buffer.set (a - b.base.toNat) v }) := by
  simp [stage, h]

theorem holdsBase_iff {s : State} {S : Slot} {B : Nat} :
    s.holdsBase S B = true ↔ ∃ b, s.slot S = some b ∧ b.base.toNat = B := by
  unfold State.holdsBase
  cases h : s.slot S <;> simp

/-- The slot a base belongs to, whatever the current slot (R102, R103, D7). -/
theorem activeSlot_eq (c : Config) (S : Slot) (B : Nat) :
    activeSlot c S B = if B = c.bootBase then .boot else .generic := by cases S <;> rfl

/-- What the block switch does, case by case (R103). -/
theorem target_cases (S : Slot) (B : Nat) (s : State) :
    (s.slot (activeSlot s.cfg S B) = none ∧ target S B s = load (activeSlot s.cfg S B) B s) ∨
    (∃ b, s.slot (activeSlot s.cfg S B) = some b ∧ b.base.toNat = B ∧
      target S B s = .ok (activeSlot s.cfg S B) s) ∨
    (∃ b, s.slot (activeSlot s.cfg S B) = some b ∧ b.base.toNat ≠ B ∧
      target S B s = (programBlock b s).andThen fun _ t => load (activeSlot s.cfg S B) B t) := by
  unfold target
  cases h : s.slot (activeSlot s.cfg S B) with
  | none => exact .inl ⟨rfl, rfl⟩
  | some b =>
    by_cases hb : b.base.toNat = B
    · exact .inr (.inl ⟨b, rfl, hb, by simp [hb]⟩)
    · exact .inr (.inr ⟨b, rfl, hb, by simp [hb]⟩)

end Sys2Proof.Machine
end

