-- ==== Sys2Proof/Laws/Frame.lean ====
section
/-! SUPPORT. The frame of every piece of an engine command, in every state: however it ends, only the engine's own fields
have changed. -/

namespace Sys2Proof.Machine

/-- However the piece ends, it changed only what an engine command may change. -/
def Run.Frame {α : Type} (s : State) (r : Run α) : Prop :=
  r.Sat (fun _ t => OnlyEngine s t) (fun _ t => OnlyEngine s t) (fun _ t => OnlyEngine s t)

theorem Run.Frame.andThen {α β : Type} {s : State} {r : Run α} {k : α → State → Run β} (h : r.Frame s)
    (hk : ∀ a t, (k a t).Frame t) : (r.andThen k).Frame s :=
  Run.Sat.andThen h fun a t ht =>
    (hk a t).mono (fun _ _ h => ht.trans h) (fun _ _ h => ht.trans h) (fun _ _ h => ht.trans h)

/-- A piece that runs from a state the engine reached from `s`. -/
theorem Run.Frame.from {α : Type} {s t : State} {r : Run α} (ht : OnlyEngine s t) (h : r.Frame t) : r.Frame s :=
  Run.Sat.mono h (fun _ _ h => ht.trans h) (fun _ _ h => ht.trans h) (fun _ _ h => ht.trans h)

theorem runDraw_frame (op : NvmOp) (d : NvmDraw) (s : State) : (runDraw op d s).Frame s := by
  unfold runDraw
  cases d.fin with
  | late => exact onlyEngine_iff.2 (by simp)
  | inTime =>
    simp only
    split <;> exact onlyEngine_iff.2 (by simp)

theorem physicalOp_frame (op : NvmOp) (s : State) : (physicalOp op s).Frame s := by
  rcases physicalOp_cases op s with ⟨r, h⟩ | ⟨f, h⟩ | h
  · rw [h]; trivial
  · rw [h]; trivial
  · rw [physicalOp_of_startable h]
    have ha : OnlyEngine s s.nextAnswer.2 := by rw [nextAnswer_snd, onlyEngine_iff]; simp
    generalize s.nextAnswer = na at ha
    obtain ⟨a, t⟩ := na
    cases a with
    | outcome d => exact Run.Frame.from ha (runDraw_frame op _ t)
    | sound d => simp only; split_ifs <;> exact Run.Frame.from ha (runDraw_frame op _ t)
    | cutBefore => exact ha
    | cutDuring content => exact ha.trans (onlyEngine_iff.2 (by simp))

theorem programBlock_frame (b : WriteBlock) (s : State) : (programBlock b s).Frame s :=
  (physicalOp_frame (.program b) s).andThen fun _ t => by
    unfold readBack
    split_ifs <;> exact OnlyEngine.refl t

theorem load_frame (S : Slot) (B : Nat) (s : State) : (load S B s).Frame s := by
  unfold load
  split_ifs
  · exact onlyEngine_setSlot _ _ _
  · trivial

theorem target_frame (S : Slot) (B : Nat) (s : State) : (target S B s).Frame s := by
  rcases target_cases S B s with ⟨_, h⟩ | ⟨b, _, _, h⟩ | ⟨b, _, _, h⟩ <;> rw [h]
  · exact load_frame _ _ _
  · exact OnlyEngine.refl s
  · exact (programBlock_frame b s).andThen fun _ t => load_frame _ _ t

theorem nextSlot_frame (S : Slot) (B : Nat) (s : State) : (nextSlot S B s).Frame s := by
  unfold nextSlot
  split_ifs
  · exact OnlyEngine.refl s
  · exact target_frame S B s

theorem onlyEngine_stage (S : Slot) (a : Nat) (v : Byte) (s : State) : OnlyEngine s (stage S a v s) := by
  unfold stage
  split
  · exact OnlyEngine.refl s
  · exact onlyEngine_setSlot _ _ _

theorem writeLoop_frame (bytes : List Byte) : ∀ (S : Slot) (a : Nat) (s : State), (writeLoop bytes S a s).Frame s := by
  induction bytes with
  | nil => exact fun _ _ s => OnlyEngine.refl s
  | cons v rest ih =>
    exact fun S a s => (nextSlot_frame S _ s).andThen fun S' t =>
      Run.Frame.from (onlyEngine_stage S' a v t) (ih S' (a + 1) _)

theorem eraseLoop_frame (l : List Sector) : ∀ s : State, (eraseLoop l s).Frame s := by
  induction l with
  | nil => exact fun s => OnlyEngine.refl s
  | cons x rest ih => exact fun s => (physicalOp_frame (.erase x) s).andThen fun _ t => ih t

theorem onlyEngine_dropSlots (kf kl : Nat) (s : State) : OnlyEngine s (dropSlots kf kl s) := by
  unfold dropSlots
  split_ifs <;> rfl

theorem commitSlot_frame (S : Slot) (s : State) : (commitSlot S s).Frame s := by
  unfold commitSlot
  split
  · exact OnlyEngine.refl s
  · exact (programBlock_frame _ s).andThen fun _ t => onlyEngine_setSlot t S none

/-! ### Erase: the sectors and the slots -/

/-- The sectors of index `kf` to `kl`. -/
theorem mem_sectorsBetween {c : Config} {kf kl : Nat} {x : Sector} :
    x ∈ sectorsBetween c kf kl ↔ ∃ k, kf ≤ k ∧ k ≤ kl ∧ c.sectors[k]? = some x := by
  unfold sectorsBetween
  rw [List.mem_iff_getElem?]
  constructor
  · rintro ⟨i, hi⟩
    rw [List.getElem?_take] at hi
    split_ifs at hi with h
    rw [List.getElem?_drop] at hi
    exact ⟨kf + i, by omega, by omega, hi⟩
  · rintro ⟨k, h1, h2, h3⟩
    refine ⟨k - kf, ?_⟩
    rw [List.getElem?_take, if_pos (by omega), List.getElem?_drop, ← h3]
    congr 1; omega

/-- Which slots survive an `erase` (R82, D12). -/
theorem dropSlots_slot (kf kl : Nat) (s : State) (S : Slot) (b : WriteBlock) :
    (dropSlots kf kl s).slot S = some b ↔ s.slot S = some b ∧
      ¬ (s.cfg.eraseDropsBuffers = true ∧ ∃ k, s.cfg.sectorOf b.base.toNat = some k ∧ kf ≤ k ∧ k ≤ kl) := by
  unfold dropSlots
  split_ifs with h
  · cases S <;> simp only [State.slot, h, true_and, Option.filter_eq_some_iff] <;> refine and_congr_right fun _ => ?_ <;>
      unfold blockInSectors <;> cases s.cfg.sectorOf b.base.toNat <;> simp <;> omega
  · simp [h]

/-- `erase` drops slots and changes nothing else before it starts. -/
theorem dropSlots_rest (kf kl : Nat) (s : State) :
    dropSlots kf kl s = { s with generic := (dropSlots kf kl s).generic, boot := (dropSlots kf kl s).boot } := by
  unfold dropSlots
  split_ifs <;> rfl

/-! ### The step -/

/-- Everything a step that answers a next state does: nothing, a reset, the end of an operation in flight, or one operation
after the port latched its operands. -/
theorem step_next {s t : State} (h : step s = .next t) :
    t = s ∨ (∃ content rest, s.inbox = .reset content :: rest ∧ t = ({ s with inbox := rest }.powerReset content)) ∨
      (∃ status content rest, s.inbox = .nvmDone status content :: rest ∧
        t = ({ s with inbox := rest }.endFlight status content)) ∨
      ∃ rest elapsed c i left, s.inbox = .command elapsed c :: rest ∧
        exec i { s with
          inbox := rest, now := s.now + elapsed, cw := c.cw, addr := c.addr, len := c.len, data := left } = .next t := by
  obtain ⟨_, h⟩ := configured_next h
  unfold takeInput at h
  split at h
  · left; cases h; rfl
  · rename_i heq
    split at heq
    · cases heq
    · cases heq; cases h; right; left; exact ⟨_, _, by assumption, rfl⟩
    · cases heq; cases h; right; right; left; exact ⟨_, _, _, by assumption, rfl⟩
    · simp only at heq; split at heq <;> cases heq
  · cases h
  · rename_i heq
    right; right; right
    split at heq
    · cases heq
    · cases heq
    · cases heq
    · simp only at heq
      split at heq
      · cases heq
      · cases heq; exact ⟨_, _, _, _, _, by assumption, h⟩

end Sys2Proof.Machine
end

