-- ==== Sys2Proof/Laws/PerInstr.lean ====
section
/-! SUPPORT. One lemma per instruction about its encoding: the command word the encoder presents for it belongs to its own row
of the opcode map and to no other (R64), whatever its operands. -/

namespace Sys2Proof.Laws

/-- The row of R64 an instruction belongs to. -/
def opOf : Instr → Op
  | .init => .init
  | .write _ _ => .write
  | .erase _ _ => .erase
  | .writeChecksum => .writeChecksum
  | .verifyChecksum => .verifyChecksum
  | .finalize => .finalize
  | .noByteThisTick => .noByteThisTick
  | .byteReceived _ => .byteReceived
  | .frameReceived _ => .frameReceived
  | .resolve _ _ => .resolve

/-- The word of format B and F matches the row of its OPC only, for every ARG8. -/
theorem arg8_rows : ∀ arg8 : Byte,
    (∀ r ∈ opcodeTable, commandWord 0x11 arg8 &&& r.mask = r.pattern ↔ r.op = .byteReceived) ∧
    (∀ r ∈ opcodeTable, commandWord 0x12 arg8 &&& r.mask = r.pattern ↔ r.op = .frameReceived) := by
  decide +kernel

namespace UniqueRow

/-- The instruction's command word matches a row exactly if the row is the instruction's. -/
def Statement (i : Instr) : Prop := ∀ r ∈ opcodeTable, (encode i).cw &&& r.mask = r.pattern ↔ r.op = opOf i

theorem init : Statement .init := by unfold Statement; decide
theorem write (address : Address) (data : List Byte) : Statement (.write address data) := by
  show ∀ r ∈ opcodeTable, commandWord 0x02 0 &&& r.mask = r.pattern ↔ r.op = Op.write
  decide
theorem erase (address : Address) (length : Word) : Statement (.erase address length) := by
  show ∀ r ∈ opcodeTable, commandWord 0x03 0 &&& r.mask = r.pattern ↔ r.op = Op.erase
  decide
theorem writeChecksum : Statement .writeChecksum := by unfold Statement; decide
theorem verifyChecksum : Statement .verifyChecksum := by unfold Statement; decide
theorem finalize : Statement .finalize := by unfold Statement; decide
theorem noByteThisTick : Statement .noByteThisTick := by unfold Statement; decide
theorem byteReceived (b : Byte) : Statement (.byteReceived b) := (arg8_rows b).1
theorem frameReceived (payload : List Byte) : Statement (.frameReceived payload) := (arg8_rows _).2
theorem resolve (clock rate : Word) : Statement (.resolve clock rate) := by
  show ∀ r ∈ opcodeTable, commandWord 0x20 0 &&& r.mask = r.pattern ↔ r.op = Op.resolve
  decide

end UniqueRow

end Sys2Proof.Laws
end

