-- ==== Sys2Proof/Laws/Staging.lean ====
section
/-! SUPPORT. What the pieces of an engine command do in a state that meets the invariant, each said once: the program of a
slot's block, the block switch, staging a byte, the loops of `write` and `erase`, and the commit of a slot. -/

namespace Sys2Proof.Machine

/-! ### Keeping the invariant -/

theorem ApmOk.later {c : Config} {n m : Nat} {a : ApmState} (h : ApmOk c n a) (hnm : n ≤ m) : ApmOk c m a := by
  cases a with
  | idle => trivial
  | receiving L t p => exact ⟨h.1, h.2.1, h.2.2.1, h.2.2.2.1.trans hnm, h.2.2.2.2⟩

/-- What must be checked of a state that only an engine command's writes reached. -/
theorem State.Inv.evolve {s t : State} (hs : s.Inv) (hi : s.initialised = true) (ho : OnlyEngine s t)
    (hf : t.flash.wf = true)
    (hg : ∀ b, t.generic = some b → SlotOk s.cfg b ∧ b.base.toNat ≠ s.cfg.bootBase)
    (hb : ∀ b, t.boot = some b → SlotOk s.cfg b ∧ b.base.toNat = s.cfg.bootBase)
    (hfl : ∀ r, t.inFlight = some r → t.timedOut = true ∧ s.cfg.covered r.start r.size = true)
    (hn : s.now ≤ t.now) (htr : ∀ ev ∈ t.trace, EventOk s.cfg ev) : t.Inv := by
  have h := onlyEngine_iff.1 ho
  have hc := h.1
  exact ⟨hc ▸ hs.config, hf, hc ▸ hg, hc ▸ hb, fun h' => by simp [h.2.1, hi] at h', hc ▸ hfl,
    by rw [h.2.2.1, hc]; exact hs.apm.later hn, hc ▸ htr⟩

theorem State.Inv.answer {s : State} (h : s.Inv) (v : BitVec 8) : (s.answer v).Inv :=
  ⟨h.config, h.flash, h.generic, h.boot, h.beforeInit, h.flight, h.apm, h.trace⟩

/-- Flash once an operation in flight is over: as before outside its range (R192, U2). -/
theorem State.read_flashSettled {s : State} (c : List Byte) {a : Nat}
    (h : ∀ r, s.inFlight = some r → a < r.start ∨ r.start + r.size ≤ a) : (s.flashSettled c).read a = s.flash.read a := by
  unfold State.flashSettled
  cases hr : s.inFlight with
  | none => rfl
  | some r => exact Flash.read_writeBytes_out _ (by rw [length_fitContent]; exact h r hr)

theorem State.wf_flashSettled {s : State} (h : s.flash.wf = true) (c : List Byte) : (s.flashSettled c).wf = true := by
  unfold State.flashSettled
  cases s.inFlight with
  | none => exact h
  | some r => exact Flash.wf_writeBytes _ _ h

theorem State.Inv.powerReset {s : State} (hc : s.cfg.wf = true) (hf : s.flash.wf = true) (c : List Byte) :
    (s.powerReset c).Inv := by
  exact ⟨hc, State.wf_flashSettled hf c, by simp, by simp, by simp, by simp, trivial, by simp⟩

/-- The end of an operation in flight keeps the invariant. -/
theorem State.Inv.endFlight {s : State} (h : s.Inv) (status : NvmStatus) (c : List Byte) : (s.endFlight status c).Inv :=
  ⟨by simpa using h.config, by simpa using State.wf_flashSettled h.flash c, by simpa using h.generic,
    by simpa using h.boot, by simpa using h.beforeInit, by simp, by simpa using h.apm, by simpa using h.trace⟩

/-- A valid slot holds a block that meets R23. -/
theorem State.Inv.slotOk {s : State} (h : s.Inv) {S : Slot} {b : WriteBlock} (hb : s.slot S = some b) : SlotOk s.cfg b := by
  cases S with
  | generic => exact (h.generic b hb).1
  | boot => exact (h.boot b hb).1

theorem SlotOk.programOk {c : Config} {b : WriteBlock} (h : SlotOk c b) : EventOk c (NvmOp.program b).event :=
  ⟨h.aligned, h.inside⟩

theorem State.Inv.trace_after {s t : State} {op : NvmOp} (hs : s.Inv) (ho : EventOk s.cfg op.event)
    (h : ∃ n, t.trace = s.trace ++ op.event :: List.replicate n .service) : ∀ ev ∈ t.trace, EventOk s.cfg ev := by
  obtain ⟨n, h⟩ := h
  intro ev hev
  rw [h] at hev
  simp only [List.mem_append, List.mem_cons, List.mem_replicate] at hev
  rcases hev with hev | rfl | ⟨_, rfl⟩
  · exact hs.trace ev hev
  · exact ho
  · trivial

theorem OpRan.inv {s t : State} {op : NvmOp} (h : OpRan op s t) (hs : s.Inv) (hi : s.initialised = true)
    (hop : EventOk s.cfg op.event)
    (hfl : t.inFlight = none ∨ (t.inFlight = some (op.range s.cfg) ∧ t.timedOut = true)) : t.Inv := by
  refine hs.evolve hi h.only (h.wf hs.flash) (h.generic ▸ hs.generic) (h.boot ▸ hs.boot) ?_ h.time
    (hs.trace_after hop h.trace)
  intro r hr
  rcases hfl with h1 | ⟨h1, h2⟩
  · rw [h1] at hr; cases hr
  · rw [h1] at hr; cases hr; exact ⟨h2, h.startable.covered⟩

theorem OpRan.physical {s t : State} {op : NvmOp} (h : OpRan op s t) : t.physical = s.physical ++ [op.event] := by
  obtain ⟨n, h⟩ := h.trace
  have : op.event.isPhysical = true := by cases op <;> rfl
  have hn : (List.replicate n Event.service).filter (·.isPhysical) = [] := by
    rw [List.filter_eq_nil_iff]
    intro ev hev
    rw [List.eq_of_mem_replicate hev]
    simp [Event.isPhysical]
  rw [State.physical, State.physical, h, List.filter_append, List.filter_cons_of_pos this, hn]

/-- The command was ended by an error in `t`: the invariant holds, and flash is as in `s` outside `touched`. -/
structure Ended (touched : Nat → Prop) (s t : State) : Prop where
  inv : t.Inv
  only : OnlyEngine s t
  flash : ∀ x, ¬ touched x → t.flash.read x = s.flash.read x
  time : s.now ≤ t.now

/-- Power was lost in `t`: after the reset that follows, flash is as in `s` outside `touched`. -/
structure Lost (touched : Nat → Prop) (s t : State) : Prop where
  only : OnlyEngine s t
  wf : t.flash.wf = true
  flash : ∀ c x, ¬ touched x → (t.powerReset c).flash.read x = s.flash.read x
  time : s.now ≤ t.now

theorem Ended.mono {p q : Nat → Prop} {s t : State} (h : Ended p s t) (hpq : ∀ x, p x → q x) : Ended q s t :=
  ⟨h.inv, h.only, fun x hx => h.flash x fun h' => hx (hpq x h'), h.time⟩

theorem Lost.mono {p q : Nat → Prop} {s t : State} (h : Lost p s t) (hpq : ∀ x, p x → q x) : Lost q s t :=
  ⟨h.only, h.wf, fun c x hx => h.flash c x fun h' => hx (hpq x h'), h.time⟩

/-- `Ended` across a first piece that went on from `s` to `t`. -/
theorem Ended.after {p : Nat → Prop} {s t u : State} (h : Ended p t u) (ho : OnlyEngine s t) (hn : s.now ≤ t.now)
    (hf : ∀ x, ¬ p x → t.flash.read x = s.flash.read x) : Ended p s u :=
  ⟨h.inv, ho.trans h.only, fun x hx => (h.flash x hx).trans (hf x hx), hn.trans h.time⟩

theorem Lost.after {p : Nat → Prop} {s t u : State} (h : Lost p t u) (ho : OnlyEngine s t) (hn : s.now ≤ t.now)
    (hf : ∀ x, ¬ p x → t.flash.read x = s.flash.read x) : Lost p s u :=
  ⟨ho.trans h.only, h.wf, fun c x hx => (h.flash c x hx).trans (hf x hx), hn.trans h.time⟩

theorem Ended.refl {s : State} (hs : s.Inv) (p : Nat → Prop) : Ended p s s :=
  ⟨hs, OnlyEngine.refl s, fun _ _ => rfl, le_rfl⟩

/-- The addresses of a physical operation's range. -/
def NvmOp.touches (c : Config) (op : NvmOp) (a : Nat) : Prop := op.start ≤ a ∧ a < op.start + op.span c

theorem OpRan.flash_out {s t : State} {op : NvmOp} (h : OpRan op s t) {x : Nat} (hx : ¬ op.touches s.cfg x) :
    t.flash.read x = s.flash.read x := h.flash x (by unfold NvmOp.touches at hx; omega)

theorem OpCut.lost {s t : State} {op : NvmOp} (h : OpCut op s t) (hw : s.flash.wf = true) :
    Lost (op.touches s.cfg) s t := by
  refine ⟨h.only, h.flash ▸ hw, ?_, h.time.ge⟩
  intro c x hx
  rw [State.powerReset_flash, State.read_flashSettled c, h.flash]
  intro r hr
  rcases h.flight with h5 | h5 <;> rw [h5] at hr <;> cases hr
  unfold NvmOp.touches at hx
  simp only [NvmOp.range]; omega

/-! ### The staged view -/

theorem WriteBlock.byteAt_none {b : WriteBlock} {a : Nat} {c : Config} (hl : b.buffer.length = c.blockSize)
    (h : ¬ inBlock c b.base.toNat a) : b.byteAt a = none := by
  unfold WriteBlock.byteAt
  unfold inBlock at h
  split_ifs with h1
  · rw [List.getElem?_eq_none]; omega
  · rfl

/-- Where flash holds what the buffer holds, the block's byte is the flash byte. -/
theorem WriteBlock.byteAt_flash {b : WriteBlock} {a n : Nat} {f : Flash} (h : f.readBytes b.base.toNat n = b.buffer)
    (h1 : b.base.toNat ≤ a) (h2 : a < b.base.toNat + n) : b.byteAt a = some (f.read a) := by
  unfold WriteBlock.byteAt
  rw [if_pos h1]
  exact Flash.read_of_readBytes_eq h h1 h2

theorem WriteBlock.byteAt_getD {c : Config} {f : Flash} {b : WriteBlock} {x : Nat} (hl : b.buffer.length = c.blockSize)
    (hr : f.readBytes b.base.toNat c.blockSize = b.buffer) : (b.byteAt x).getD (f.read x) = f.read x := by
  by_cases hx : inBlock c b.base.toNat x
  · rw [byteAt_flash hr hx.1 hx.2]; rfl
  · rw [byteAt_none hl hx]; rfl

theorem WriteBlock.byteAt_set {b : WriteBlock} {a x : Nat} {v : Byte} (h1 : b.base.toNat ≤ a)
    (h2 : a < b.base.toNat + b.buffer.length) :
    (⟨b.base, b.buffer.set (a - b.base.toNat) v⟩ : WriteBlock).byteAt x = if x = a then some v else b.byteAt x := by
  unfold WriteBlock.byteAt
  simp only
  split_ifs with h3 h4 h4
  · subst h4; rw [List.getElem?_set_self (by omega)]
  · rw [List.getElem?_set_ne (by omega)]
  · omega
  · rfl

/-- The two slots never cover the same address (R23). -/
theorem State.Inv.slots_disjoint {s : State} (hs : s.Inv) {x : Nat} (hx : inBlock s.cfg s.cfg.bootBase x) :
    s.generic.bind (·.byteAt x) = none := by
  cases hg : s.generic with
  | none => rfl
  | some g =>
    have w := Config.wf_clauses hs.config
    have := hs.generic g hg
    exact WriteBlock.byteAt_none this.1.length fun h => this.2 (w.block_unique this.1.aligned w.bootBase_mod h hx)

theorem State.view_of_empty {s : State} (h1 : s.generic = none) (h2 : s.boot = none) (x : Nat) :
    s.view x = s.flash.read x := by
  simp [State.view, State.staged, h1, h2]

/-- Programming a slot's block leaves the staged view as it was, whatever flash then holds there. -/
theorem OpRan.view {s t : State} {S : Slot} {b : WriteBlock} (h : OpRan (.program b) s t) (hs : s.Inv)
    (hb : s.slot S = some b) (x : Nat) : t.view x = s.view x := by
  have hok := hs.slotOk hb
  have hst : t.staged x = s.staged x := by simp only [State.staged, h.generic, h.boot]
  unfold State.view
  rw [hst]
  by_cases hx : inBlock s.cfg b.base.toNat x
  · have : (s.staged x).isSome = true := by
      have h1 : (b.byteAt x).isSome = true := by
        have hlt : x - b.base.toNat < b.buffer.length := by have := hok.length; have := hx.1; have := hx.2; omega
        rw [WriteBlock.byteAt, if_pos hx.1, List.getElem?_eq_getElem hlt]
        rfl
      cases S with
      | generic => simp only [State.slot_generic] at hb; simp [State.staged, hb, h1]
      | boot => simp only [State.slot_boot] at hb; simp [State.staged, hb, h1]
    obtain ⟨v, hv⟩ := Option.isSome_iff_exists.1 this
    rw [hv]; rfl
  · rw [h.flash_out (by simpa [NvmOp.touches, NvmOp.start, NvmOp.span, inBlock] using hx)]

/-- Everything the program of a valid slot's block can do. -/
theorem programSlot_sat {s : State} {S : Slot} {b : WriteBlock} (hs : s.Inv) (hi : s.initialised = true)
    (hb : s.slot S = some b) :
    (programBlock b s).Sat
      (fun _ t => OpRan (.program b) s t ∧ t.Inv ∧ t.inFlight = none ∧ t.timedOut = false ∧
        t.flash.readBytes b.base.toNat s.cfg.blockSize = b.buffer ∧ ∀ x, t.view x = s.view x)
      (fun _ t => OpRan (.program b) s t ∧ Ended (inSlot s.cfg (s.slot S)) s t)
      (fun _ t => Lost (inSlot s.cfg (s.slot S)) s t) := by
  have hok := hs.slotOk hb
  have hin : ∀ x, (NvmOp.program b).touches s.cfg x → inSlot s.cfg (s.slot S) x := fun x hx => ⟨b, hb, hx⟩
  refine (programBlock_sat hok.length).mono ?_ ?_ ?_
  · rintro _ t ⟨h1, h2, h3, h4⟩
    exact ⟨h1, h1.inv hs hi hok.programOk (.inl h2), h2, h3, h4, h1.view hs hb⟩
  · rintro e t ⟨h1, h2⟩
    refine ⟨h1, h1.inv hs hi hok.programOk ?_, h1.only, fun x hx => h1.flash_out fun h => hx (hin x h), h1.time⟩
    exact h2.elim (fun h => .inr ⟨h.2.1, h.2.2.1⟩) (fun h => .inl h.2.1)
  · intro c t h
    exact (h.lost hs.flash).mono hin

/-! ### The block switch -/

/-- The current slot after the byte at `a` was routed: it holds the byte's block, and nothing staged was lost (R81, R103). -/
structure Switched (a : Nat) (s : State) (S : Slot) (t : State) : Prop where
  inv : t.Inv
  only : OnlyEngine s t
  slot : ∃ b, t.slot S = some b ∧ b.base.toNat = s.cfg.blockBase a
  isSlot : S = if s.cfg.blockBase a = s.cfg.bootBase then .boot else .generic
  view : ∀ x, t.view x = s.view x
  flash : ∀ x, ¬ inSlot s.cfg s.generic x → t.flash.read x = s.flash.read x
  generic : t.generic = s.generic ∨ ∃ b, t.generic = some b ∧ b.base.toNat = s.cfg.blockBase a
  boots : t.bootPrograms ≤ s.bootPrograms
  time : s.now ≤ t.now

/-- The program of a generic block is not a program of the boot block. -/
theorem OpRan.bootPrograms {s t : State} {b : WriteBlock} (h : OpRan (.program b) s t) (hs : s.Inv)
    (hb : b.base.toNat ≠ s.cfg.bootBase) : t.bootPrograms ≤ s.bootPrograms := by
  obtain ⟨n, ht⟩ := h.trace
  have hne : b.base ≠ BitVec.ofNat 32 s.cfg.bootBase := by
    intro h'
    have w := Config.wf_clauses hs.config
    exact hb (by rw [h', w.toNat_blockBase w.bootBlock_inside])
  simp [State.bootPrograms, ht, h.only.cfg, NvmOp.event, List.count_append, hne, List.count_replicate]

theorem State.Inv.setSlot {s : State} {S : Slot} {b : WriteBlock} (hs : s.Inv) (hi : s.initialised = true)
    (hb : SlotOk s.cfg b) (hS : S = if b.base.toNat = s.cfg.bootBase then .boot else .generic) :
    (s.setSlot S (some b)).Inv := by
  refine hs.evolve hi (onlyEngine_setSlot _ _ _) (by simpa using hs.flash) ?_ ?_ (by simpa using hs.flight) (by simp)
    (by simpa using hs.trace)
  · intro c hc
    by_cases h : b.base.toNat = s.cfg.bootBase
    · rw [if_pos h] at hS; subst hS; exact hs.generic c hc
    · rw [if_neg h] at hS; subst hS; simp at hc; subst hc; exact ⟨hb, h⟩
  · intro c hc
    by_cases h : b.base.toNat = s.cfg.bootBase
    · rw [if_pos h] at hS; subst hS; simp at hc; subst hc; exact ⟨hb, h⟩
    · rw [if_neg h] at hS; subst hS; exact hs.boot c hc

theorem State.Inv.clearSlot {s : State} (S : Slot) (hs : s.Inv) (hi : s.initialised = true) : (s.setSlot S none).Inv := by
  refine hs.evolve hi (onlyEngine_setSlot _ _ _) (by simpa using hs.flash) ?_ ?_ (by simpa using hs.flight) (by simp)
    (by simpa using hs.trace) <;> intro c hc <;> cases S
  · simp at hc
  · exact hs.generic c hc
  · exact hs.boot c hc
  · simp at hc

/-- Loading a block into an invalid slot, or over a generic block that flash already holds, leaves the staged view as it
was. -/
theorem view_load {s : State} {B : Nat} {S : Slot} (hs : s.Inv) (hin : blockInside s.cfg B)
    (hS : S = if B = s.cfg.bootBase then .boot else .generic)
    (hn : s.slot S = none ∨ ∃ b, S = .generic ∧ s.generic = some b ∧
      s.flash.readBytes b.base.toNat s.cfg.blockSize = b.buffer) (x : Nat) :
    (s.setSlot S (some ⟨BitVec.ofNat 32 B, s.flash.readBytes B s.cfg.blockSize⟩)).view x = s.view x := by
  have hBn := (Config.wf_clauses hs.config).toNat_blockBase hin
  set nb : WriteBlock := ⟨BitVec.ofNat 32 B, s.flash.readBytes B s.cfg.blockSize⟩ with hnb
  have hnbase : nb.base.toNat = B := hBn
  have hnl : nb.buffer.length = s.cfg.blockSize := by simp [hnb]
  have hng : (nb.byteAt x).getD (s.flash.read x) = s.flash.read x := WriteBlock.byteAt_getD hnl (by rw [hnbase])
  by_cases hb : B = s.cfg.bootBase
  · rw [if_pos hb] at hS
    subst hS
    rcases hn with hn | ⟨b, h, _⟩
    · simp only [State.slot_boot] at hn
      simp only [State.view, State.staged, State.setSlot_boot_boot, State.setSlot_boot_generic, State.setSlot_flash, hn,
        Option.bind_some, Option.bind_none, Option.none_or]
      by_cases hx : inBlock s.cfg B x
      · simp [hs.slots_disjoint (hb ▸ hx), hng]
      · simp [WriteBlock.byteAt_none (c := s.cfg) hnl (by rw [hnbase]; exact hx)]
    · cases h
  · rw [if_neg hb] at hS
    subst hS
    simp only [State.view, State.staged, State.setSlot_generic_boot, State.setSlot_generic_generic, State.setSlot_flash,
      Option.bind_some]
    cases hbt : s.boot.bind (·.byteAt x) with
    | some v => rfl
    | none =>
      simp only [Option.none_or, hng]
      rcases hn with hn | ⟨b, _, hg, hr⟩
      · simp only [State.slot_generic] at hn; simp [hn]
      · simp [hg, WriteBlock.byteAt_getD (hs.generic b hg).1.length hr]

/-- `Load` of the block of an address inside the sectors, where the slot holds nothing to lose. -/
theorem load_switched {s : State} {a : Nat} {S : Slot} (hs : s.Inv) (hi : s.initialised = true)
    (ha : (s.cfg.sectorOf a).isSome = true) (hS : S = if s.cfg.blockBase a = s.cfg.bootBase then .boot else .generic)
    (hn : s.slot S = none ∨ ∃ b, S = .generic ∧ s.generic = some b ∧
      s.flash.readBytes b.base.toNat s.cfg.blockSize = b.buffer) :
    ∃ t, load S (s.cfg.blockBase a) s = .ok S t ∧ Switched a s S t ∧ t.flash = s.flash := by
  have w := Config.wf_clauses hs.config
  have hin := w.blockInside_of_sectorOf ha
  have hBn := w.toNat_blockBase hin
  refine ⟨_, load_of_covered (Config.covered_of_blockInside hin), ?_, by simp⟩
  refine ⟨?_, onlyEngine_setSlot _ _ _, ⟨_, State.slot_setSlot_same _ _ _, hBn⟩, hS, view_load hs hin hS hn, by simp, ?_,
    by simp [State.bootPrograms], by simp⟩
  · refine hs.setSlot hi ⟨?_, by simp, ?_⟩ ?_
    · simp only [hBn]; exact w.blockBase_mod a
    · simp only [hBn]; exact hin
    · simp only [hBn]; exact hS
  · subst hS
    by_cases h : s.cfg.blockBase a = s.cfg.bootBase
    · rw [if_pos h]; left; simp
    · rw [if_neg h]; right; exact ⟨_, rfl, hBn⟩

/-- Everything that can happen between two bytes of a `write` (R81, R103 to R105). -/
theorem nextSlot_sat {s : State} {a : Nat} {S : Slot} (hs : s.Inv) (hi : s.initialised = true)
    (ha : (s.cfg.sectorOf a).isSome = true) :
    (nextSlot S (s.cfg.blockBase a) s).Sat (fun S' t => Switched a s S' t)
      (fun _ t => Ended (inSlot s.cfg s.generic) s t ∧ t.bootPrograms ≤ s.bootPrograms)
      (fun _ t => Lost (inSlot s.cfg s.generic) s t) := by
  have same : ∀ S b, s.slot S = some b → b.base.toNat = s.cfg.blockBase a → Switched a s S s := by
    intro S b h1 h2
    refine ⟨hs, OnlyEngine.refl s, ⟨b, h1, h2⟩, ?_, fun _ => rfl, fun _ _ => rfl, .inl rfl, le_rfl, le_rfl⟩
    cases S with
    | generic => rw [if_neg]; rw [← h2]; exact (hs.generic b h1).2
    | boot => rw [if_pos]; rw [← h2]; exact (hs.boot b h1).2
  unfold nextSlot
  split_ifs with h
  · obtain ⟨b, h1, h2⟩ := holdsBase_iff.1 h
    exact same S b h1 h2
  · have hact := activeSlot_eq s.cfg S (s.cfg.blockBase a)
    rcases target_cases S (s.cfg.blockBase a) s with ⟨h1, h2⟩ | ⟨b, h1, h2, h3⟩ | ⟨b, h1, h2, h3⟩
    · obtain ⟨t, ht, h3, _⟩ := load_switched hs hi ha hact (.inl h1)
      rw [h2, ht]; exact h3
    · rw [h3]; exact same _ b h1 h2
    · rw [h3]
      have hgen : activeSlot s.cfg S (s.cfg.blockBase a) = .generic := by
        rw [hact]
        split_ifs with hb
        · rw [hact, if_pos hb] at h1
          exact absurd ((hs.boot b h1).2.trans hb.symm) h2
        · rfl
      rw [hgen] at h1 hact ⊢
      have hne := (hs.generic b h1).2
      refine Run.Sat.andThen ((programSlot_sat hs hi h1).mono (fun _ _ h => h) ?_ (fun _ _ h => h)) ?_
      · rintro e t ⟨h4, h5⟩
        exact ⟨h5, h4.bootPrograms hs hne⟩
      · rintro _ t ⟨h4, hti, _, _, h7, h8⟩
        have hc := h4.only.cfg
        have hflash : ∀ x, ¬ inSlot s.cfg s.generic x → t.flash.read x = s.flash.read x :=
          fun x hx => h4.flash_out fun h => hx ⟨b, h1, h⟩
        obtain ⟨u, hu, h9, h10⟩ := load_switched (a := a) (S := .generic) hti (by rw [h4.only.initialised, hi])
          (by rw [hc]; exact ha) (by rw [hc]; exact hact) (.inr ⟨b, rfl, by rw [h4.generic]; exact h1, by rw [hc]; exact h7⟩)
        rw [hc] at hu
        rw [hu]
        refine ⟨h9.inv, h4.only.trans h9.only, by rw [← hc]; exact h9.slot, hact, fun x => (h9.view x).trans (h8 x), ?_, .inr ?_,
          h9.boots.trans (h4.bootPrograms hs hne), h4.time.trans h9.time⟩
        · intro x hx
          rw [h10]; exact hflash x hx
        · rw [← hc]; exact h9.slot

/-- The byte at `a` goes to the boot block or to the block the generic slot holds: its routing switches nothing (R103). -/
def StaysIn (s : State) (a : Nat) : Prop := s.cfg.blockBase a = s.cfg.bootBase ∨ s.genericBase = some (s.cfg.blockBase a)

/-- The switch of the generic slot for the byte at `a` failed in the program of the outgoing block `b` (R81, D11): nothing staged
was lost and nothing loaded. -/
structure SwitchFailed (a : Nat) (b : WriteBlock) (e : EngineError) (s t : State) : Prop where
  code : e = .timeout ∨ e = .hardwareFault ∨ e = .verifyMismatch
  notBoot : s.cfg.blockBase a ≠ s.cfg.bootBase
  outgoing : s.generic = some b
  other : s.cfg.blockBase a ≠ b.base.toNat
  generic : t.generic = s.generic
  view : ∀ x, t.view x = s.view x
  mark : t.timedOut = decide (e = .timeout)
  busy : t.nvmBusy = decide (e = .timeout)
  physical : t.physical = s.physical ++ [.program b.base]

/-- The byte at `a` was routed: the base the generic slot holds now, and what was programmed (R103). -/
structure Routed (a : Nat) (s t : State) : Prop where
  stays : StaysIn s a → t.genericBase = s.genericBase ∧ t.physical = s.physical
  moves : ¬ StaysIn s a → t.genericBase = some (s.cfg.blockBase a) ∧
    t.physical = s.physical ++ s.generic.toList.map fun b => Event.program b.base

theorem load_genericBase {S S' : Slot} {B : Nat} {s t : State} (hw : s.cfg.wf = true) (hin : blockInside s.cfg B)
    (h : load S B s = .ok S' t) :
    t.physical = s.physical ∧ t.genericBase = if S = .generic then some B else s.genericBase := by
  rw [load_of_covered (Config.covered_of_blockInside hin)] at h
  cases h
  refine ⟨by simp [State.physical], ?_⟩
  cases S <;> simp [State.genericBase, (Config.wf_clauses hw).toNat_blockBase hin]

/-- What the routing of the byte at `a` programs and which base the generic slot then holds, and how it fails (R81, R103). -/
theorem nextSlot_switches {s : State} {a : Nat} {S : Slot} (hs : s.Inv) (ha : (s.cfg.sectorOf a).isSome = true) :
    (nextSlot S (s.cfg.blockBase a) s).Sat
      (fun _ t => Routed a s t) (fun e t => ∃ b, SwitchFailed a b e s t)
      (fun _ _ => True) := by
  have hin := (Config.wf_clauses hs.config).blockInside_of_sectorOf ha
  have hact := activeSlot_eq s.cfg S (s.cfg.blockBase a)
  have hload : ∀ (t : State), t.cfg = s.cfg → ∀ S' (l : List Event),
      t.physical = s.physical ++ l → S' = (if s.cfg.blockBase a = s.cfg.bootBase then .boot else .generic) →
      (StaysIn s a → s.cfg.blockBase a = s.cfg.bootBase ∧ t.genericBase = s.genericBase ∧ l = []) →
      (¬ StaysIn s a → l = s.generic.toList.map fun b => Event.program b.base) →
      (load S' (s.cfg.blockBase a) t).Sat
        (fun _ u => Routed a s u) (fun e u => ∃ b, SwitchFailed a b e s u) (fun _ _ => True) := by
    intro t hc S' l hp hS h1 h2
    cases hl : load S' (s.cfg.blockBase a) t with
    | ok S'' u =>
      obtain ⟨h3, h4⟩ := load_genericBase (hc ▸ hs.config) (hc ▸ hin) hl
      refine ⟨fun h => ?_, fun h => ?_⟩
      · obtain ⟨h5, h6, h7⟩ := h1 h
        rw [hS, if_pos h5] at h4
        exact ⟨h4.trans h6, by rw [h3, hp, h7, List.append_nil]⟩
      · rw [hS, if_neg fun h' => h (.inl h')] at h4
        exact ⟨h4, by rw [h3, hp, h2 h]⟩
    | raised e u => unfold load at hl; split_ifs at hl
    | powerLost => trivial
    | refused => trivial
    | fault => trivial
  have hstay : ∀ S', StaysIn s a → (Run.ok S' s : Run Slot).Sat (fun _ t => Routed a s t)
      (fun e t => ∃ b, SwitchFailed a b e s t) (fun _ _ => True) :=
    fun _ h => ⟨fun _ => ⟨rfl, rfl⟩, fun h' => absurd h h'⟩
  unfold nextSlot
  by_cases h : s.holdsBase S (s.cfg.blockBase a) = true
  · rw [if_pos h]
    obtain ⟨b, h1, h2⟩ := holdsBase_iff.1 h
    refine hstay S ?_
    cases S with
    | boot => exact .inl (h2 ▸ (hs.boot b h1).2)
    | generic => exact .inr (by rw [State.genericBase, show s.generic = some b from h1, ← h2]; rfl)
  · rw [if_neg h]
    by_cases hb : s.cfg.blockBase a = s.cfg.bootBase
    · rw [if_pos hb] at hact
      rcases target_cases S (s.cfg.blockBase a) s with ⟨h1, h2⟩ | ⟨b, h1, h2, h3⟩ | ⟨b, h1, h2, h3⟩
      · rw [h2, hact]
        exact hload s rfl _ [] (by simp) (by rw [if_pos hb]) (fun _ => ⟨hb, rfl, rfl⟩) fun h => absurd (.inl hb) h
      · rw [h3]; exact hstay _ (.inl hb)
      · rw [hact] at h1
        exact absurd ((hs.boot b h1).2.trans hb.symm) h2
    · rw [if_neg hb] at hact
      rcases target_cases S (s.cfg.blockBase a) s with ⟨h1, h2⟩ | ⟨b, h1, h2, h3⟩ | ⟨b, h1, h2, h3⟩ <;>
        rw [hact, State.slot_generic] at h1
      · rw [h2, hact]
        exact hload s rfl _ [] (by simp) (by rw [if_neg hb])
          (fun h => by rcases h with h | h <;> simp_all [State.genericBase]) fun _ => by simp [h1]
      · rw [h3]
        exact hstay _ (.inr (by simp [State.genericBase, h1, h2]))
      · have hns : ¬ StaysIn s a := by
          rintro (h | h)
          · exact hb h
          · simp only [State.genericBase, h1, Option.map_some, Option.some.injEq] at h; exact h2 h
        rw [h3, hact]
        refine Run.Sat.andThen (ok := fun _ t => OpRan (.program b) s t)
          ((programBlock_sat (hs.generic b h1).1.length).mono (fun _ _ h => h.1) ?_ (fun _ _ _ => trivial)) ?_
        · rintro e t ⟨h4, h5⟩
          refine ⟨b, ?_, hb, h1, Ne.symm h2, h4.generic, h4.view hs (S := .generic) h1, ?_, ?_, h4.physical⟩
          · rcases h5 with h5 | h5 <;> tauto
          · rcases h5 with ⟨rfl, _, h7, _⟩ | ⟨rfl | rfl, _, h7⟩ <;> rw [h7] <;> rfl
          · rcases h5 with ⟨rfl, h6, _⟩ | ⟨rfl | rfl, h6, _⟩ <;> rw [State.nvmBusy, h6] <;> rfl
        · intro _ t h4
          exact hload t h4.only.cfg _ [.program b.base] h4.physical (by rw [if_neg hb]) (fun h => absurd h hns)
            fun _ => by simp [h1]

/-! ### Staging -/

/-- One byte staged in the slot that holds its block: the staged view changes at that byte only (R113). -/
theorem stage_spec {s : State} {S : Slot} {a : Nat} {v : Byte} {b : WriteBlock} (hs : s.Inv) (hi : s.initialised = true)
    (hb : s.slot S = some b) (hbase : b.base.toNat = s.cfg.blockBase a)
    (hS : S = if s.cfg.blockBase a = s.cfg.bootBase then .boot else .generic) :
    (stage S a v s).Inv ∧ (∀ x, (stage S a v s).view x = if x = a then v else s.view x) ∧
      (stage S a v s).flash = s.flash ∧ (stage S a v s).bootPrograms = s.bootPrograms ∧ (stage S a v s).now = s.now ∧
      (∀ x, inSlot s.cfg (stage S a v s).generic x ↔ inSlot s.cfg s.generic x) := by
  have w := Config.wf_clauses hs.config
  have h1 : b.base.toNat ≤ a := hbase ▸ Config.Wf.blockBase_le s.cfg a
  have hok := hs.slotOk hb
  have h2 : a < b.base.toNat + b.buffer.length := by rw [hok.length, hbase]; exact w.lt_blockBase_add a
  have hba := fun x => WriteBlock.byteAt_set (x := x) (v := v) h1 h2
  rw [stage_of_slot hb]
  refine ⟨hs.setSlot hi ⟨hok.aligned, by simpa using hok.length, hok.inside⟩ (by rw [hbase]; exact hS), ?_, by simp,
    by simp [State.bootPrograms], by simp, ?_⟩
  · intro x
    cases S with
    | boot =>
      simp only [State.slot_boot] at hb
      simp only [State.view, State.staged, State.setSlot_boot_boot, State.setSlot_boot_generic, State.setSlot_flash, hb,
        Option.bind_some, hba]
      split_ifs <;> rfl
    | generic =>
      simp only [State.slot_generic] at hb
      have hne := (hs.generic b hb).2
      simp only [State.view, State.staged, State.setSlot_generic_boot, State.setSlot_generic_generic, State.setSlot_flash,
        hb, Option.bind_some, hba]
      split_ifs with hx
      · subst hx
        have hbn : s.boot.bind (·.byteAt x) = none := by
          cases hbt : s.boot with
          | none => rfl
          | some c =>
            have := hs.boot c hbt
            refine WriteBlock.byteAt_none this.1.length fun h => hne ?_
            rw [← this.2]
            exact w.block_unique hok.aligned this.1.aligned ⟨h1, by rw [← hok.length]; exact h2⟩ h
        simp [hbn]
      · rfl
  · intro x
    cases S with
    | boot => simp
    | generic =>
      simp only [State.slot_generic] at hb
      simp [inSlot, hb]

/-! ### The loop of write -/

/-- The addresses whose flash byte a `write` of `n` bytes from `a` on may change. -/
def writeTouches (c : Config) (g : Option WriteBlock) (a n x : Nat) : Prop := inSlot c g x ∨ inGenericBlockOf c a n x

/-- The loop of `write` staged all its bytes (R81): the staged view has them, and nothing else of it changed. -/
structure Staged (bytes : List Byte) (a : Nat) (s t : State) : Prop where
  inv : t.Inv
  only : OnlyEngine s t
  view : ∀ x, t.view x = if a ≤ x then (bytes[x - a]?).getD (s.view x) else s.view x
  flash : ∀ x, ¬ writeTouches s.cfg s.generic a bytes.length x → t.flash.read x = s.flash.read x
  boots : t.bootPrograms ≤ s.bootPrograms
  time : s.now ≤ t.now

theorem view_cons {f : Nat → Byte} {v : Byte} {rest : List Byte} {a x : Nat} :
    (if a + 1 ≤ x then (rest[x - (a + 1)]?).getD (if x = a then v else f x) else (if x = a then v else f x)) =
      if a ≤ x then ((v :: rest)[x - a]?).getD (f x) else f x := by
  rcases Nat.lt_trichotomy x a with h | h | h
  · simp [show ¬ a ≤ x by omega, show ¬ a + 1 ≤ x by omega, show x ≠ a by omega]
  · subst h; simp
  · obtain ⟨d, rfl⟩ : ∃ d, x = a + 1 + d := ⟨x - (a + 1), by omega⟩
    simp [show a ≤ a + 1 + d by omega, show a + 1 + d - a = d + 1 by omega, show a + 1 + d ≠ a by omega,
      show a + 1 + d - (a + 1) = d by omega]

theorem writeTouches_succ {c : Config} {g g' : Option WriteBlock} {a n x : Nat}
    (hg : ∀ x, inSlot c g' x → inSlot c g x ∨ (c.blockBase a ≠ c.bootBase ∧ inBlock c (c.blockBase a) x))
    (h : writeTouches c g' (a + 1) n x) : writeTouches c g a (n + 1) x := by
  rcases h with h | ⟨i, hi, h1, h2⟩
  · rcases hg x h with h | ⟨h, h'⟩
    · exact .inl h
    · exact .inr ⟨0, by omega, h, h'⟩
  · have : a + 1 + i = a + (i + 1) := by omega
    exact .inr ⟨i + 1, by omega, this ▸ h1, this ▸ h2⟩

/-- Everything the loop of `write` can do (R81). -/
theorem writeLoop_sat (bytes : List Byte) : ∀ (S : Slot) (a : Nat) (s : State), s.Inv → s.initialised = true →
    s.cfg.covered a bytes.length = true →
    (writeLoop bytes S a s).Sat (fun _ t => Staged bytes a s t)
      (fun _ t => Ended (writeTouches s.cfg s.generic a bytes.length) s t ∧ t.bootPrograms ≤ s.bootPrograms)
      (fun _ t => Lost (writeTouches s.cfg s.generic a bytes.length) s t) := by
  induction bytes with
  | nil =>
    intro S a s hs hi hc
    exact ⟨hs, OnlyEngine.refl s, by simp, fun _ _ => rfl, le_rfl, le_rfl⟩
  | cons v rest ih =>
    intro S a s hs hi hc
    have hc' := (Config.covered_iff _ _ _).1 hc
    have hca := hc' 0 (by simp)
    rw [Nat.add_zero] at hca
    simp only [writeLoop]
    refine Run.Sat.andThen ((nextSlot_sat hs hi hca).mono (fun _ _ h => h) ?_ ?_) ?_
    · intro e t h
      exact ⟨h.1.mono fun x hx => .inl hx, h.2⟩
    · intro c t h
      exact h.mono fun x hx => .inl hx
    · intro S' t h
      obtain ⟨b, hb, hbase⟩ := h.slot
      have hcfg := h.only.cfg
      obtain ⟨h1, h2, h3, h4, h5, h6⟩ := stage_spec (v := v) h.inv (by rw [h.only.initialised, hi]) hb
        (by rw [hcfg]; exact hbase) (by rw [hcfg]; exact h.isSlot)
      have ho := OnlyEngine.trans h.only (onlyEngine_stage S' a v t)
      have hcfg' := ho.cfg
      have hg : ∀ x, inSlot s.cfg (stage S' a v t).generic x →
          inSlot s.cfg s.generic x ∨ (s.cfg.blockBase a ≠ s.cfg.bootBase ∧ inBlock s.cfg (s.cfg.blockBase a) x) := by
        intro x hx
        rw [← hcfg, h6, hcfg] at hx
        rcases h.generic with hg | ⟨g, hg, hgb⟩
        · rw [hg] at hx; exact .inl hx
        · obtain ⟨g', hg', hin⟩ := hx
          rw [hg] at hg'; cases hg'
          have := (h.inv.generic g hg).2
          rw [hcfg] at this
          exact .inr ⟨hgb ▸ this, hgb ▸ hin⟩
      have hK : ∀ x, writeTouches (stage S' a v t).cfg (stage S' a v t).generic (a + 1) rest.length x →
          writeTouches s.cfg s.generic a (v :: rest).length x := fun x hx => writeTouches_succ hg (hcfg' ▸ hx)
      have hflash : ∀ x, ¬ writeTouches s.cfg s.generic a (v :: rest).length x →
          (stage S' a v t).flash.read x = s.flash.read x := by
        intro x hx
        rw [h3, h.flash x fun h => hx (.inl h)]
      have htm : s.now ≤ (stage S' a v t).now := h5 ▸ h.time
      have hbt : (stage S' a v t).bootPrograms ≤ s.bootPrograms := h4 ▸ h.boots
      refine (ih S' (a + 1) (stage S' a v t) h1 (by rw [ho.initialised, hi]) ?_).mono ?_ ?_ ?_
      · rw [hcfg', Config.covered_iff]
        intro i hi'
        rw [show a + 1 + i = a + (i + 1) by omega]
        exact hc' (i + 1) (by simp; omega)
      · rintro _ u hu
        refine ⟨hu.inv, ho.trans hu.only, fun x => ?_, fun x hx => ?_, hu.boots.trans hbt, htm.trans hu.time⟩
        · rw [hu.view, h2, h.view, view_cons]
        · rw [hu.flash x fun h => hx (hK x h), hflash x hx]
      · rintro _ u ⟨hu, hu'⟩
        exact ⟨(hu.mono hK).after ho htm hflash, hu'.trans hbt⟩
      · rintro c u hu
        exact (hu.mono hK).after ho htm hflash

/-! ### The commit of a slot -/

/-- The slot is committed (R85): flash holds its block, the slot is invalid, the staged view is as it was. -/
structure Committed (S : Slot) (s t : State) : Prop where
  inv : t.Inv
  only : OnlyEngine s t
  slot : t.slot S = none
  other : ∀ S', S' ≠ S → t.slot S' = s.slot S'
  view : ∀ x, t.view x = s.view x
  flash : ∀ x, ¬ inSlot s.cfg (s.slot S) x → t.flash.read x = s.flash.read x
  physical : t.physical = s.physical ++ (s.slot S).toList.map (fun b => Event.program b.base)
  time : s.now ≤ t.now

theorem view_clearSlot {s : State} {S : Slot} {b : WriteBlock} (hs : s.Inv) (hb : s.slot S = some b)
    (hr : s.flash.readBytes b.base.toNat s.cfg.blockSize = b.buffer) (x : Nat) :
    (s.setSlot S none).view x = s.view x := by
  have hok := hs.slotOk hb
  have hg := WriteBlock.byteAt_getD (x := x) hok.length hr
  cases S with
  | generic =>
    simp only [State.slot_generic] at hb
    simp only [State.view, State.staged, State.setSlot_generic_boot, State.setSlot_generic_generic, State.setSlot_flash, hb,
      Option.bind_some, Option.bind_none, Option.or_none]
    cases hbt : s.boot.bind (·.byteAt x) with
    | some v => rfl
    | none => simp only [Option.none_or, Option.getD_none, hg]
  | boot =>
    simp only [State.slot_boot] at hb
    simp only [State.view, State.staged, State.setSlot_boot_boot, State.setSlot_boot_generic, State.setSlot_flash, hb,
      Option.bind_some, Option.bind_none, Option.none_or]
    by_cases hx : inBlock s.cfg b.base.toNat x
    · rw [hs.slots_disjoint ((hs.boot b hb).2 ▸ hx), WriteBlock.byteAt_flash hr hx.1 hx.2]; rfl
    · rw [WriteBlock.byteAt_none hok.length hx, Option.none_or]

/-- Everything the commit of a slot can do (R85). -/
theorem commitSlot_sat {S : Slot} {s : State} (hs : s.Inv) (hi : s.initialised = true) :
    (commitSlot S s).Sat (fun _ t => Committed S s t) (fun _ t => Ended (inSlot s.cfg (s.slot S)) s t)
      (fun _ t => Lost (inSlot s.cfg (s.slot S)) s t) := by
  unfold commitSlot
  cases hb : s.slot S with
  | none => exact ⟨hs, OnlyEngine.refl s, hb, fun _ _ => rfl, fun _ => rfl, fun _ _ => rfl, by simp [hb], le_rfl⟩
  | some b =>
    refine Run.Sat.andThen ((programSlot_sat hs hi hb).mono (fun _ _ h => h) ?_ ?_) ?_
    · intro e t h; rw [← hb]; exact h.2
    · intro c t h; rw [← hb]; exact h
    · rintro _ t ⟨h4, hti, _, _, h7, h8⟩
      have hti' : t.initialised = true := by rw [h4.only.initialised, hi]
      have htb : t.slot S = some b := by
        cases S with
        | generic => exact h4.generic.trans hb
        | boot => exact h4.boot.trans hb
      refine ⟨hti.clearSlot S hti', h4.only.trans (onlyEngine_setSlot _ _ _), by simp, ?_,
        fun x => (view_clearSlot hti htb (by rw [h4.only.cfg]; exact h7) x).trans (h8 x), ?_, ?_, by simpa using h4.time⟩
      · intro S' hS'
        rw [State.slot_setSlot_ne _ _ _ hS']
        cases S' with
        | generic => exact h4.generic
        | boot => exact h4.boot
      · intro x hx
        rw [State.setSlot_flash]
        exact h4.flash_out fun h => hx ⟨b, hb, h⟩
      · rw [State.physical, State.setSlot_trace, ← State.physical, h4.physical, hb]
        rfl

/-! ### The loop of erase -/

/-- The addresses of a list of sectors. -/
def inSectors (l : List Sector) (a : Nat) : Prop := ∃ x ∈ l, x.has a = true

/-- The loop of `erase` erased its sectors (R82, R106): they read ERASED_BYTE, and nothing else changed. -/
structure Erased (l : List Sector) (s t : State) : Prop where
  inv : t.Inv
  only : OnlyEngine s t
  generic : t.generic = s.generic
  boot : t.boot = s.boot
  inside : ∀ a, inSectors l a → t.flash.read a = s.cfg.erasedByte
  flash : ∀ a, ¬ inSectors l a → t.flash.read a = s.flash.read a
  physical : t.physical = s.physical ++ l.map (fun x => Event.erase x.start)
  boots : t.bootPrograms = s.bootPrograms
  time : s.now ≤ t.now

theorem OpRan.bootPrograms_erase {s t : State} {x : Sector} (h : OpRan (.erase x) s t) :
    t.bootPrograms = s.bootPrograms := by
  obtain ⟨n, ht⟩ := h.trace
  simp [State.bootPrograms, ht, h.only.cfg, NvmOp.event, List.count_append, List.count_replicate]

/-- Everything the erase of a sector can do (R106). -/
theorem eraseSector_sat {x : Sector} {s : State} (hs : s.Inv) (hi : s.initialised = true) (hx : x ∈ s.cfg.sectors) :
    (eraseSector x s).Sat (fun _ t => Erased [x] s t)
      (fun _ t => Ended (inSectors [x]) s t ∧ t.generic = s.generic ∧ t.boot = s.boot ∧ t.bootPrograms = s.bootPrograms)
      (fun _ t => Lost (inSectors [x]) s t) := by
  have hop : EventOk s.cfg (NvmOp.erase x).event := ⟨x, hx, rfl⟩
  have hin : ∀ a, (NvmOp.erase x).touches s.cfg a ↔ inSectors [x] a := by
    intro a
    simp only [NvmOp.touches, NvmOp.start, NvmOp.span, inSectors, List.mem_singleton, exists_eq_left, Sector.has_iff,
      Sector.stop]
  refine (physicalOp_sat (NvmOp.sized_erase _ x)).mono ?_ ?_ ?_
  · rintro _ t ⟨h1, h2, h3, content, h4, h5, h6⟩
    refine ⟨h1.inv hs hi hop (.inl h2), h1.only, h1.generic, h1.boot, ?_, ?_, h1.physical, h1.bootPrograms_erase, h1.time⟩
    · intro a ha
      have ha' := (hin a).2 ha
      rw [h4, h5 x rfl, Flash.read_writeBytes _ _ _ hs.flash]
      simp only [NvmOp.touches, NvmOp.start, NvmOp.span] at ha'
      simp only [NvmOp.intended, NvmOp.start]
      simp [ha'.1, show a - x.start.toNat < x.size.toNat by omega]
    · intro a ha
      exact h1.flash_out fun h => ha ((hin a).1 h)
  · rintro e t ⟨h1, h2⟩
    refine ⟨⟨h1.inv hs hi hop ?_, h1.only, fun a ha => h1.flash_out fun h => ha ((hin a).1 h), h1.time⟩, h1.generic, h1.boot,
      h1.bootPrograms_erase⟩
    exact h2.elim (fun h => .inr ⟨h.2.1, h.2.2.1⟩) (fun h => .inl h.2.1)
  · intro c t h
    exact (h.lost hs.flash).mono fun a ha => (hin a).1 ha

/-- Everything the loop of `erase` can do (R82). -/
theorem eraseLoop_sat (l : List Sector) : ∀ s : State, s.Inv → s.initialised = true → (∀ x ∈ l, x ∈ s.cfg.sectors) →
    (eraseLoop l s).Sat (fun _ t => Erased l s t)
      (fun _ t => Ended (inSectors l) s t ∧ t.generic = s.generic ∧ t.boot = s.boot ∧ t.bootPrograms = s.bootPrograms)
      (fun _ t => Lost (inSectors l) s t) := by
  induction l with
  | nil =>
    intro s hs hi hl
    exact ⟨hs, OnlyEngine.refl s, rfl, rfl, by simp [inSectors], fun _ _ => rfl, by simp, rfl, le_rfl⟩
  | cons x rest ih =>
    intro s hs hi hl
    have h1 : ∀ a, inSectors [x] a → inSectors (x :: rest) a := by simp [inSectors]; tauto
    have h2 : ∀ a, inSectors rest a → inSectors (x :: rest) a := by
      rintro a ⟨y, hy, hya⟩; exact ⟨y, List.mem_cons_of_mem _ hy, hya⟩
    simp only [eraseLoop]
    refine Run.Sat.andThen ((eraseSector_sat hs hi (hl x List.mem_cons_self)).mono (fun _ _ h => h) ?_ ?_) ?_
    · rintro e t ⟨h, h'⟩; exact ⟨h.mono h1, h'⟩
    · intro c t h; exact h.mono h1
    · intro _ t h
      have hf : ∀ a, ¬ inSectors (x :: rest) a → t.flash.read a = s.flash.read a :=
        fun a ha => h.flash a fun h' => ha (h1 a h')
      refine (ih t h.inv (by rw [h.only.initialised, hi])
        (fun y hy => by rw [h.only.cfg]; exact hl y (List.mem_cons_of_mem _ hy))).mono ?_ ?_ ?_
      · intro _ u hu
        refine ⟨hu.inv, h.only.trans hu.only, hu.generic.trans h.generic, hu.boot.trans h.boot, ?_, ?_, ?_,
          hu.boots.trans h.boots, h.time.trans hu.time⟩
        · rintro a ⟨y, hy, hya⟩
          by_cases ha : inSectors rest a
          · rw [hu.inside a ha, h.only.cfg]
          · rw [hu.flash a ha]
            rcases List.mem_cons.1 hy with rfl | hy
            · exact h.inside a ⟨y, List.mem_cons_self, hya⟩
            · exact absurd ⟨y, hy, hya⟩ ha
        · intro a ha
          rw [hu.flash a fun h' => ha (h2 a h'), hf a ha]
        · rw [hu.physical, h.physical]; simp
      · rintro e u ⟨hu, h3, h4, h5⟩
        exact ⟨(hu.mono h2).after h.only h.time hf, h3.trans h.generic, h4.trans h.boot, h5.trans h.boots⟩
      · intro c u hu
        exact (hu.mono h2).after h.only h.time hf

/-! ### Erase, before its loop -/

theorem State.Inv.dropSlots {s : State} (hs : s.Inv) (hi : s.initialised = true) (kf kl : Nat) : (dropSlots kf kl s).Inv := by
  have h := dropSlots_rest kf kl s
  have h1 : (Machine.dropSlots kf kl s).flash = s.flash := by rw [h]
  have h2 : (Machine.dropSlots kf kl s).now = s.now := by rw [h]
  have h3 : (Machine.dropSlots kf kl s).trace = s.trace := by rw [h]
  have h4 : (Machine.dropSlots kf kl s).inFlight = s.inFlight := by rw [h]
  have h5 : (Machine.dropSlots kf kl s).timedOut = s.timedOut := by rw [h]
  refine hs.evolve hi (onlyEngine_dropSlots _ _ _) (h1 ▸ hs.flash) ?_ ?_ (by rw [h4, h5]; exact hs.flight) h2.ge
    (h3 ▸ hs.trace)
  · intro b hb; exact hs.generic b ((dropSlots_slot kf kl s .generic b).1 hb).1
  · intro b hb; exact hs.boot b ((dropSlots_slot kf kl s .boot b).1 hb).1

/-! ### Where operations succeed -/

/-- The hardware is idle unless a Timeout was raised. -/
theorem State.Inv.idle {s : State} (hs : s.Inv) (ht : s.timedOut = false) : s.inFlight = none := by
  cases h : s.inFlight with
  | none => rfl
  | some r => rw [(hs.flight r h).1] at ht; cases ht

theorem State.Dependable.cons {s : State} {n : Nat} (h : s.Dependable (n + 1)) : ∃ d rest, s.nvmAnswers = .sound d :: rest := by
  obtain ⟨d, hd⟩ := h 0 (Nat.succ_pos n)
  cases ha : s.nvmAnswers with
  | nil => rw [ha] at hd; cases hd
  | cons x rest => rw [ha] at hd; cases hd; exact ⟨d, rest, rfl⟩

theorem State.Dependable.after {s t : State} {n : Nat} (h : s.Dependable (n + 1)) (ht : t.nvmAnswers = s.nvmAnswers.tail) :
    t.Dependable n := by
  intro k hk
  obtain ⟨d, hd⟩ := h (k + 1) (Nat.succ_lt_succ hk)
  exact ⟨d, by rw [ht, ← hd, List.getElem?_tail]⟩

/-- NVM_ERASE_OK (R110) over the loop of `erase`: it goes on to the end. -/
theorem eraseLoop_sound (l : List Sector) : ∀ s : State, s.Inv → s.initialised = true → s.timedOut = false →
    (∀ x ∈ l, x ∈ s.cfg.sectors) → s.Dependable l.length → ∃ t, eraseLoop l s = .ok () t := by
  induction l with
  | nil => exact fun s _ _ _ _ _ => ⟨s, rfl⟩
  | cons x rest ih =>
    intro s hs hi ht hl hd
    obtain ⟨d, r, hn⟩ := State.Dependable.cons hd
    have hx := hl x List.mem_cons_self
    obtain ⟨t, h1, h2, h3, h4, _⟩ := physicalOp_sound (op := .erase x)
      ⟨ht, hs.idle ht, Config.covered_of_sector hx le_rfl le_rfl⟩ (NvmOp.sized_erase _ x) hn rfl
    obtain ⟨u, hu⟩ := ih t (h2.inv hs hi ⟨x, hx, rfl⟩ (.inl h3)) (by rw [h2.only.initialised, hi]) h4
      (fun y hy => by rw [h2.only.cfg]; exact hl y (List.mem_cons_of_mem _ hy)) (State.Dependable.after hd h2.answers)
    exact ⟨u, by simp only [eraseLoop, eraseSector, h1, Run.andThen_ok, hu]⟩

/-- NVM_PROGRAM_ERASED_OK (R110) at the commit of a slot: it goes on. -/
theorem commitSlot_sound {s : State} {S : Slot} {n : Nat} (hs : s.Inv) (ht : s.timedOut = false)
    (hd : s.Dependable (n + 1)) (he : ∀ b, s.slot S = some b → s.BlockErased b.base.toNat) :
    ∃ t, commitSlot S s = .ok () t ∧ t.timedOut = false ∧ t.Dependable n := by
  unfold commitSlot
  cases hb : s.slot S with
  | none => exact ⟨s, rfl, ht, fun k hk => hd k (hk.trans (Nat.lt_succ_self n))⟩
  | some b =>
    have hok := hs.slotOk hb
    obtain ⟨d, r, hn⟩ := hd.cons
    obtain ⟨t, h1, h2, _, h4, _⟩ := programBlock_sound ⟨ht, hs.idle ht, Config.covered_of_blockInside hok.inside⟩
      hok.length hs.flash hn (he b hb)
    refine ⟨t.setSlot S none, by simp only [h1, Run.andThen_ok], by simpa using h4, ?_⟩
    exact hd.after (by simpa using h2.answers)

/-! ### A write inside one block -/

theorem splice_cons {α : Type} (buf : List α) (v : α) (rest : List α) (i : Nat) (hi : i + rest.length < buf.length) :
    (buf.set i v).take (i + 1) ++ rest ++ (buf.set i v).drop (i + 1 + rest.length) =
      buf.take i ++ (v :: rest) ++ buf.drop (i + (v :: rest).length) := by
  rw [List.drop_set_of_lt (by omega), List.take_set]
  rw [show i + (v :: rest).length = i + 1 + rest.length by simp only [List.length_cons]; omega]
  rw [List.take_succ_eq_append_getElem (by omega : i < buf.length), List.set_append_right _ _ (by simp)]
  simp [show min i buf.length = i by omega]

/-- The loop of `write` over bytes that all lie in the block its current slot holds: they replace that part of the buffer, and
nothing else happens. -/
theorem writeLoop_inside (bytes : List Byte) : ∀ (S : Slot) (a : Nat) (s : State) (b : WriteBlock), s.cfg.Wf →
    s.slot S = some b → b.buffer.length = s.cfg.blockSize → b.base.toNat % s.cfg.blockSize = 0 → b.base.toNat ≤ a →
    a + bytes.length ≤ b.base.toNat + s.cfg.blockSize →
    writeLoop bytes S a s = .ok () (s.setSlot S (some ⟨b.base,
      b.buffer.take (a - b.base.toNat) ++ bytes ++ b.buffer.drop (a - b.base.toNat + bytes.length)⟩)) := by
  induction bytes with
  | nil => intro S a s b _ h _ _ _ _; simp [writeLoop, setSlot_of_slot s S h]
  | cons v rest ih =>
    intro S a s b w h hl hm h1 h2
    simp only [List.length_cons] at h2
    have hbb : s.cfg.blockBase a = b.base.toNat := w.blockBase_of_inBlock hm h1 (by omega)
    simp only [writeLoop, nextSlot, hbb]
    rw [if_pos (holdsBase_iff.2 ⟨b, h, rfl⟩), Run.andThen_ok, stage_of_slot h]
    rw [ih S (a + 1) _ ⟨b.base, b.buffer.set (a - b.base.toNat) v⟩ (by simpa using w) (by simp) (by simpa using hl)
      (by simpa using hm) (by simp; omega) (by simp; omega), setSlot_setSlot]
    simp only
    rw [show a + 1 - b.base.toNat = a - b.base.toNat + 1 by omega, splice_cons _ _ _ _ (by omega)]

end Sys2Proof.Machine
end

