-- ==== Sys2Proof/Tests/Slice0.lean ====
section
/-! SUPPORT. Tests of the model against the spec's own vectors (95_test_vectors.md, under its configuration CFG-A), the
well-formedness smoke test, the decoding of words written out from 30_encoding.md, and for every obligation with hypotheses a
state and operands that meet them together. -/

namespace Sys2Proof.Tests

open Sys2Proof.Machine

/-! ### Helpers -/

/-- What the next state shows of `f`; none where there is no next state. -/
def after {α : Type} (o : Host.Outcome State Fault Refusal) (f : State → α) : Option α :=
  match o with
  | .next t => some (f t)
  | .fault _ => none
  | .refused _ => none

/-- The reason of a refusal. -/
def refusal (o : Host.Outcome State Fault Refusal) : Option Refusal :=
  match o with
  | .refused r => some r
  | .next _ => none
  | .fault _ => none

theorem next_of_after {α : Type} {o : Host.Outcome State Fault Refusal} {f : State → α} {v : α} (h : after o f = some v) :
    ∃ t, o = .next t ∧ f t = v := by
  cases o with
  | next t => exact ⟨t, rfl, Option.some.inj h⟩
  | fault r => cases h
  | refused r => cases h

/-- After reset and `init`, flash erased. -/
def ready : State := { State.reset with initialised := true }

/-- 11H at the edges of the sectors that the tests look at, erased elsewhere. -/
def flash11 : Flash := [(0x203F, 0x11), (0x2040, 0x11), (0x207F, 0x11), (0x2100, 0x11), (0x217F, 0x11)]

/-- The 24 bytes of program P1, step 5. -/
def p1Vectors : List Byte :=
  [0x00, 0x10, 0x00, 0x20, 0x01, 0x21, 0x00, 0x00, 0x01, 0x22, 0x00, 0x00, 0x01, 0x23, 0x00, 0x00, 0, 0, 0, 0, 0, 0, 0, 0]

/-- The boot block of P1 before step 7. -/
def p1Boot : WriteBlock := ⟨0x2000, p1Vectors ++ List.replicate 8 0xFF⟩

/-- The boot block of P1 after step 7. -/
def p1BootSummed : WriteBlock := ⟨0x2000, p1Vectors ++ [0xFD, 0x89, 0xFF, 0xDF] ++ List.replicate 4 0xFF⟩

/-- The generic block of P1 after step 6. -/
def p1Generic : WriteBlock := ⟨0x2040, [0xDE, 0xAD, 0xBE, 0xEF] ++ List.replicate 28 0xFF⟩

/-- P1 before step 9: both blocks staged, flash erased. -/
def p1Staged : State := { ready with boot := some p1BootSummed, generic := some p1Generic }

/-- An answer that meets the premises of R110. -/
def ideal : NvmAnswer := .sound ⟨.inTime, .ok, [], 1, 0⟩

/-- An operation that is Late, leaving zeros, as in vector E2. -/
def lateDraw : NvmDraw := ⟨.late, .ok, List.replicate 64 0x00, 11, 0⟩

/-- An operation that completes with status Fault, as in vector E3. -/
def faultDraw : NvmDraw := ⟨.inTime, .fault, List.replicate 64 0x3C, 1, 0⟩

/-- A program whose last byte reads back wrong. -/
def mismatchDraw : NvmDraw := ⟨.inTime, .ok, [0xDE, 0xAD, 0xBE, 0xEF] ++ List.replicate 27 0xFF ++ [0], 1, 0⟩

/-- Receiving a packet of the given length begun at a time (3.7). -/
def receiving (length : Byte) (start : Nat) (payload : List Byte) (now : Nat) : State :=
  { State.reset with apm := .receiving length start payload, now := now }

/-- The Frame build of CFG-A. -/
def frameBuild : State := { State.reset with cfg := { Config.cfgA with transportKind := .frame } }

/-! ### Well-formedness -/

/-- A `write` longer than LEN can say is refused. -/
theorem test_long_write_is_ill_formed (data : List Byte) (h : data.length = 2 ^ 32) :
    (Instr.write 0 data).wellFormed = false := by
  simp [Instr.wellFormed, h]

/-- There is such a list. -/
theorem test_long_list : ∃ data : List Byte, data.length = 2 ^ 32 := ⟨List.replicate (2 ^ 32) 0, List.length_replicate⟩

/-- A frame longer than ARG8 can say is refused; the longest that fits is not. -/
theorem test_long_frame_is_ill_formed :
    (Instr.frameReceived (List.replicate 256 0)).wellFormed = false ∧
      (Instr.frameReceived (List.replicate 255 0)).wellFormed = true := by decide +kernel

/-- R9: an ill-formed configuration is seen: no sector, a block that does not hold the checksum, overlapping sectors. -/
theorem test_ill_formed_configurations :
    Config.cfgA.wf = true ∧ Config.wf { Config.cfgA with sectors := [] } = false ∧
      { Config.cfgA with checksumOffset := 29 }.wf = false ∧
      { Config.cfgA with sectors := [⟨0x2000, 0x60, 2⟩, ⟨0x2040, 0x40, 3⟩] }.wf = false := by decide

/-! ### Decoding (30_encoding.md, and the encodings of 95_test_vectors.md, 4) -/

theorem test_decode_init : decode ⟨0x00000001, 0, 0, []⟩ = .ok (.init, []) := by decide
/-- P2, step 2; a byte that belongs to the next command is left. -/
theorem test_decode_write :
    decode ⟨0x00000002, 0x00002040, 2, [0xA0, 0xA1, 0x77]⟩ = .ok (.write 0x2040 [0xA0, 0xA1], [0x77]) := by decide
theorem test_decode_erase : decode ⟨0x00000003, 0x00002000, 0x80, []⟩ = .ok (.erase 0x2000 0x80, []) := by decide
theorem test_decode_write_checksum : decode ⟨0x00000004, 0, 0, []⟩ = .ok (.writeChecksum, []) := by decide
theorem test_decode_verify_checksum : decode ⟨0x00000005, 0, 0, []⟩ = .ok (.verifyChecksum, []) := by decide
theorem test_decode_finalize : decode ⟨0x00000006, 0, 0, []⟩ = .ok (.finalize, []) := by decide
theorem test_decode_no_byte : decode ⟨0x00000010, 0, 0, []⟩ = .ok (.noByteThisTick, []) := by decide
/-- P4, steps 1 and 2. -/
theorem test_decode_byte_received :
    decode ⟨0x00000311, 0, 0, []⟩ = .ok (.byteReceived 0x03, []) ∧
      decode ⟨0x0000FF11, 0, 0, []⟩ = .ok (.byteReceived 0xFF, []) := by decide
/-- P5. -/
theorem test_decode_frame_received :
    decode ⟨0x00000212, 0, 0, [0xFF, 0x00]⟩ = .ok (.frameReceived [0xFF, 0x00], []) ∧
      decode ⟨0x00000012, 0, 0, []⟩ = .ok (.frameReceived [], []) := by decide
theorem test_decode_resolve :
    decode ⟨0x00000020, 0x02255100, 0x0001E848, []⟩ = .ok (.resolve 36000000 125000, []) := by decide
/-- P5: no such opcode; reserved bits set; ARG8 set in format N. -/
theorem test_decode_illegal_words :
    decode ⟨0x00000007, 0, 0, []⟩ = .error .illegalWord ∧ decode ⟨0x00010001, 0, 0, []⟩ = .error .illegalWord ∧
      decode ⟨0x00000101, 0, 0, []⟩ = .error .illegalWord ∧ decode ⟨0x01000011, 0, 0, []⟩ = .error .illegalWord := by decide
/-- A `write` whose bytes are missing is no operation. -/
theorem test_decode_underrun : decode ⟨0x00000002, 0x2040, 4, [0xDE]⟩ = .error .dataUnderrun := by decide
/-- The encoder's words, from R61 to R64. -/
theorem test_encode_words :
    (encode (.byteReceived 0xFF)).cw = 0x0000FF11 ∧ (encode (.frameReceived [0xFF, 0x00])).cw = 0x00000212 ∧
      (encode (.write 0x2040 [0xDE, 0xAD])).len = 2 ∧ (encode (.resolve 36000000 125000)).addr = 0x02255100 := by decide

/-! ### The host's two functions -/

theorem test_table_words :
    decodeTableWord 32 0x00000001 = some .init ∧ decodeTableWord 32 0x00000002 = some (.write 0 []) ∧
      decodeTableWord 96 (2 ^ 64 * 0x80 + 2 ^ 32 * 0x2000 + 3) = some (.erase 0x2000 0x80) ∧
      decodeTableWord 32 0x00000411 = some (.byteReceived 4) ∧ decodeTableWord 32 0x212 = some (.frameReceived [0, 0]) ∧
      decodeTableWord 32 0x7 = none := by decide

/-- A placed `init` runs as the first instruction after reset. -/
theorem test_placed_word_runs :
    after (step (State.reset.withFetchWord 32 1)) (fun t => (t.initialised, t.inbox, t.cw)) = some (true, [], 1) := by decide

/-! ### init (R80, example; 3.5) -/

theorem test_init_invalidates :
    after (exec .init p1Staged) (fun t => (t.generic, t.boot, t.result)) = some (none, none, 0) ∧
      after (exec .init p1Staged) (fun t => (t.flash, t.trace)) = some ([], []) := by decide

/-! ### write (3.3, P2) -/

/-- P2, step 1: the boot block's tail and the block after it, and nothing is programmed. -/
theorem test_write_boot_then_generic :
    after (exec (.write 0x201C [1, 2, 3, 4, 5, 6, 7, 8]) ready) (fun t => (t.result, t.trace, t.boot, t.generic)) =
      some (0, [], some ⟨0x2000, List.replicate 28 0xFF ++ [1, 2, 3, 4]⟩,
        some ⟨0x2020, [5, 6, 7, 8] ++ List.replicate 28 0xFF⟩) := by decide +kernel

/-- E2: the displaced block's program is Late. -/
theorem test_write_timeout :
    after (exec (.write 0x205E [0xB0, 0xB1, 0xB2, 0xB3]) { ready with nvmAnswers := [.outcome lateDraw] })
      (fun t => (t.result, t.trace, t.generic, t.nvmBusy, t.flash.readBytes 0x2040 32)) =
      some (3, [.program 0x2040], some ⟨0x2040, List.replicate 30 0xFF ++ [0xB0, 0xB1]⟩, true, List.replicate 32 0x00) := by
  decide +kernel

/-! ### erase (3.4) -/

/-- `erase(0x207F, 0x82)` spans the gap and erases `T[1]` and `T[2]`. -/
theorem test_erase_over_the_gap :
    after (exec (.erase 0x207F 0x82) { ready with flash := flash11, nvmAnswers := [ideal, ideal] })
      (fun t => (t.result, t.trace, t.flash.read 0x203F, t.flash.read 0x2040, t.flash.read 0x207F, t.flash.read 0x217F)) =
      some (0, [.erase 0x2040, .erase 0x2100], 0x11, 0xFF, 0xFF, 0xFF) := by decide +kernel

/-- E3: the second sector's erase ends with Fault; the generic slot was dropped before the first. -/
theorem test_erase_hardware_fault :
    after (exec (.erase 0x2000 0x180)
        { ready with flash := flash11, generic := some p1Generic, nvmAnswers := [ideal, .outcome faultDraw] })
      (fun t => (t.result, t.trace, t.generic, t.flash.read 0x203F, t.flash.read 0x2040, t.flash.read 0x2100)) =
      some (4, [.erase 0x2000, .erase 0x2040], none, 0xFF, 0x3C, 0x11) := by decide +kernel

/-! ### write_checksum, verify_checksum, finalize (3.1, 3.5, P1, P2, E1) -/

/-- P1, step 7. -/
theorem test_write_checksum : after (exec .writeChecksum { ready with boot := some p1Boot })
    (fun t => (t.result, t.boot, t.trace)) = some (0, some p1BootSummed, []) := by decide

/-- P2, step 6: words loaded from erased flash count. -/
theorem test_write_checksum_erased_words :
    after (exec .writeChecksum { ready with boot := some ⟨0x2000, [0x11, 0x22, 0x33, 0x44] ++ List.replicate 28 0xFF⟩ })
      (fun t => (t.boot.map fun b => (b.buffer.drop 24).take 4)) = some (some [0xF4, 0xDD, 0xCC, 0xBB]) := by decide

/-- P1, steps 8 and 10: staged data is invisible; once it is in flash the sum is zero. -/
theorem test_verify_checksum :
    after (exec .verifyChecksum p1Staged) (·.flag) = some false ∧
      after (exec .verifyChecksum { State.reset with flash := Flash.writeBytes [] 0x2000 p1BootSummed.buffer }) (·.flag) =
        some true := by decide

/-- P1, step 9: generic first, boot last. -/
theorem test_finalize :
    after (exec .finalize { p1Staged with nvmAnswers := [ideal, ideal] })
      (fun t => (t.result, t.trace, t.flash.readBytes 0x2018 4 ++ t.flash.readBytes 0x2040 4)) =
      some (0, [.program 0x2040, .program 0x2000], [0xFD, 0x89, 0xFF, 0xDF, 0xDE, 0xAD, 0xBE, 0xEF]) := by
  decide +kernel

/-- E1: the read-back finds byte 1 changed. -/
theorem test_finalize_verify_mismatch :
    after (exec .finalize
        { p1Staged with nvmAnswers := [.outcome ⟨.inTime, .ok, [0xDE, 0xAC] ++ List.replicate 30 0xFF, 1, 0⟩] })
      (fun t => (t.result, t.trace, t.generic, t.boot, t.flash.readBytes 0x2040 2)) =
      some (5, [.program 0x2040], some p1Generic, some p1BootSummed, [0xDE, 0xAC]) := by decide +kernel

/-! ### The activation machine (3.7) -/

/-- The timeout test is strict: 1100 is not past 1000 + 100, 1101 is. -/
theorem test_empty_tick :
    after (exec .noByteThisTick (receiving 3 1000 [0xFF] 1100)) (·.apm) = some (.receiving 3 1000 [0xFF]) ∧
      after (exec .noByteThisTick (receiving 3 1000 [0xFF] 1101)) (·.apm) = some .idle := by decide

/-- 64 is a length, 65 and 0 are not. -/
theorem test_length_byte :
    after (exec (.byteReceived 0x40) { State.reset with now := 10 }) (·.apm) = some (.receiving 64 10 []) ∧
      after (exec (.byteReceived 0x41) State.reset) (·.apm) = some .idle ∧
      after (exec (.byteReceived 0x00) State.reset) (·.apm) = some .idle := by decide

/-- The byte that completes `FF 00` fires, however late; `FF 01` does not; a packet of one byte cannot. -/
theorem test_last_byte :
    after (exec (.byteReceived 0x00) (receiving 2 0 [0xFF] 500)) (fun t => (t.apm, t.flag, t.trace)) =
        some (.idle, true, [.trigger]) ∧
      after (exec (.byteReceived 0x01) (receiving 2 0 [0xFF] 2)) (fun t => (t.apm, t.flag, t.trace)) = some (.idle, false, []) ∧
      after (exec (.byteReceived 0xFF) (receiving 1 0 [] 1)) (fun t => (t.apm, t.flag, t.trace)) = some (.idle, false, []) := by
  decide

theorem test_frames :
    after (exec (.frameReceived [0xFF, 0x00]) frameBuild) (fun t => (t.flag, t.trace)) = some (true, [.trigger]) ∧
      after (exec (.frameReceived [0xFF]) frameBuild) (fun t => (t.flag, t.trace)) = some (false, []) ∧
      after (exec (.frameReceived [0x00, 0xFF]) frameBuild) (·.flag) = some false := by decide

/-! ### The CAN resolver (3.8) -/

/-- 8 quanta give 4.5, so the 9 of the second entry are taken. -/
theorem test_resolve : after (exec (.resolve 36000000 1000000) State.reset) (fun t => (t.flag, t.presc, t.tseg1, t.tseg2)) =
    some (true, 4, 6, 2) := by decide

/-- No exact division; rate zero; a product that would wrap in 32 bits. -/
theorem test_resolve_fails :
    after (exec (.resolve 36000000 83333) State.reset) (·.flag) = some false ∧
      after (exec (.resolve 36000000 0) State.reset) (·.flag) = some false ∧
      after (exec (.resolve 4294967295 4294967295) State.reset) (·.flag) = some false := by decide

/-! ### States for the witnesses -/

theorem cfgA_wf : Config.cfgA.wf = true := by decide

theorem p1Generic_ok : SlotOk Config.cfgA p1Generic :=
  ⟨by decide, by decide, ⟨0x2040, 0x40, 3⟩, by decide, by decide, by decide⟩

theorem p1Boot_ok : SlotOk Config.cfgA p1Boot := ⟨by decide, by decide, ⟨0x2000, 0x40, 2⟩, by decide, by decide, by decide⟩

theorem p1BootSummed_ok : SlotOk Config.cfgA p1BootSummed :=
  ⟨by decide, by decide, ⟨0x2000, 0x40, 2⟩, by decide, by decide, by decide⟩

/-- A state after `init` under CFG-A, whose slots hold nothing or P1's blocks, meets the invariant. -/
theorem inv_of {s : State} (hc : s.cfg = Config.cfgA) (hf : s.flash.wf = true) (hi : s.initialised = true)
    (hg : s.generic = none ∨ s.generic = some p1Generic)
    (hb : s.boot = none ∨ s.boot = some p1Boot ∨ s.boot = some p1BootSummed) (hn : s.inFlight = none) (ha : s.apm = .idle)
    (ht : s.trace = []) : s.Inv := by
  refine ⟨by rw [hc]; decide, hf, ?_, ?_, ?_, ?_, by rw [ha]; trivial, ?_⟩
  rotate_left 2
  · rw [hi]; intro h; cases h
  · rw [hn]; intro r h; cases h
  · rw [ht]; intro ev h; cases h
  · intro b h
    rcases hg with hg | hg <;> rw [hg] at h <;> cases h
    rw [hc]; exact ⟨p1Generic_ok, by decide⟩
  · intro b h
    rcases hb with hb | hb | hb <;> rw [hb] at h <;> cases h <;> rw [hc]
    · exact ⟨p1Boot_ok, by decide⟩
    · exact ⟨p1BootSummed_ok, by decide⟩

/-- Each field is as `inv_of` asks, by unfolding. -/
theorem ready_inv : ready.Inv := inv_of rfl rfl rfl (.inl rfl) (.inl rfl) rfl rfl rfl

theorem p1Staged_inv (answers : List NvmAnswer) (late : Bool) :
    State.Inv { p1Staged with nvmAnswers := answers, timedOut := late } :=
  inv_of rfl rfl rfl (.inr rfl) (.inr (.inr rfl)) rfl rfl rfl

/-- P1's state before step 9, on a device that meets R110. -/
def dependable : State := { p1Staged with nvmAnswers := List.replicate 8 ideal }

theorem dependable_ready : dependable.Ready := ⟨p1Staged_inv _ false, rfl, rfl⟩

theorem dependable_of {s : State} {n : Nat} (h : s.nvmAnswers = List.replicate 8 ideal) (hn : n ≤ 8) : s.Dependable n := by
  intro k hk
  exact ⟨⟨.inTime, .ok, [], 1, 0⟩, by rw [h, List.getElem?_replicate, if_pos (by omega)]; rfl⟩

theorem erased_of {s : State} (hf : s.flash = []) (hc : s.cfg = Config.cfgA) (B : Nat) : s.BlockErased B := by
  intro a _
  rw [hf, hc]; rfl

/-! ### Witnesses: encoding and the port -/

theorem witness_DecodeOfEncodeIsTheInstruction :
    (Instr.write 0x2040 [0xDE]).wellFormed = true ∧
      (Instr.frameReceived (List.replicate 255 7)).wellFormed = true := by decide +kernel

theorem witness_DecodedCommandEncodesBack :
    decode ⟨0x00000002, 0x2040, 1, [0xDE, 0xAD]⟩ = .ok (.write 0x2040 [0xDE], [0xAD]) ∧
      usesAddrLen (.write 0x2040 [0xDE]) = true := by decide

/-- Each kind of illegal word, and a state it arrives in. -/
theorem witness_IllegalCommandWordsAreRefused :
    (opcOf 0x07 ∉ ([0x01, 0x02, 0x03, 0x04, 0x05, 0x06, 0x10, 0x11, 0x12, 0x20] : List Byte)) ∧ reservedOf 0x10001 ≠ 0 ∧
      (arg8Of 0x101 ≠ 0 ∧ opcOf 0x101 ≠ 0x11 ∧ opcOf 0x101 ≠ 0x12) ∧
      (∃ s : State, s.cfg.wf = true ∧ s.inbox = .command 0 ⟨0x07, 0, 0, []⟩ :: [] ∧ decode ⟨0x07, 0, 0, []⟩ = .error .illegalWord) :=
  ⟨by decide, by decide, by decide, ⟨{ ready with inbox := [.command 0 ⟨0x07, 0, 0, []⟩] }, by decide, rfl, by decide⟩⟩

theorem witness_StepRunsTheDecodedInstruction :
    ∃ (s : State) (c : PortCommand), s.inbox = .command 3 c :: [] ∧
      decode { c with data := s.data ++ c.data } = .ok (.write 0x2040 [0xDE], [0xAD]) :=
  ⟨{ ready with data := [0xDE], inbox := [.command 3 ⟨2, 0x2040, 1, [0xAD]⟩] }, _, rfl, by decide⟩

theorem witness_NothingHappensWithoutInput : State.reset.cfg.wf = true ∧ State.reset.inbox = [] := by decide

/-- With no operation in flight, and with one: an address just below its range and just above it. -/
theorem witness_ResetKeepsOnlyFlash :
    (∃ s : State, s.cfg.wf = true ∧ s.inbox = .reset [] :: [] ∧ s.inFlight = none) ∧
      ∃ s : State, s.cfg.wf = true ∧ s.inbox = .reset [0x5A] :: [] ∧ s.inFlight = some ⟨0x2040, 32⟩ ∧
        (∀ r, s.inFlight = some r → 0x203F < r.start ∨ r.start + r.size ≤ 0x203F) ∧
        ∀ r, s.inFlight = some r → 0x2060 < r.start ∨ r.start + r.size ≤ 0x2060 := by
  refine ⟨⟨{ ready with inbox := [.reset []] }, by decide, rfl, rfl⟩,
    ⟨{ ready with inbox := [.reset [0x5A]], inFlight := some ⟨0x2040, 32⟩, timedOut := true }, by decide, rfl, rfl, ?_, ?_⟩⟩ <;>
    · rintro r h; cases h; decide

/-- With a fault reported and without; an address just below the range and just above it. -/
theorem witness_TheHardwareEndsAnOperationInFlight :
    ∀ status ∈ [NvmStatus.ok, .fault], ∃ s : State, s.cfg.wf = true ∧ s.inFlight = some ⟨0x2040, 32⟩ ∧
      s.inbox = .nvmDone status [0x5A] :: [] ∧ 0x203F < 0x2040 ∧ 0x2040 + 32 ≤ 0x2060 := by
  intro status _
  exact ⟨{ ready with inbox := [.nvmDone status [0x5A]], inFlight := some ⟨0x2040, 32⟩, timedOut := true }, cfgA_wf, rfl,
    rfl, by decide, by decide⟩

/-! ### Witnesses: invariants and whole-machine rules -/

/-- A step whose state meets the invariant, and addresses outside the sectors: just below them, in the gap, just above. -/
theorem witness_EveryStepKeepsTheInvariant :
    ∃ s t : State, s.Inv ∧ step s = .next t ∧ s.cfg.sectorOf 0x1FFF = none ∧ s.cfg.sectorOf 0x2080 = none ∧
      s.cfg.sectorOf 0x2180 = none := by
  obtain ⟨t, h, _⟩ := next_of_after (o := step { ready with inbox := [.command 5 ⟨1, 0, 0, []⟩] }) (f := (·.now)) (v := 5)
    (by decide)
  exact ⟨_, t, inv_of rfl rfl rfl (.inl rfl) (.inl rfl) rfl rfl rfl, h, by decide, by decide, by decide⟩

theorem witness_NoStepChangesTheConfiguration : ∃ s t : State, step s = .next t ∧ t.now = 5 := by
  obtain ⟨t, h, hn⟩ := next_of_after (o := step { ready with inbox := [.command 5 ⟨1, 0, 0, []⟩] }) (f := (·.now)) (v := 5)
    (by decide)
  exact ⟨_, t, h, hn⟩

theorem witness_TimeNeverRunsBackwards : ∃ s t : State, step s = .next t := by
  obtain ⟨s, t, h, _⟩ := witness_NoStepChangesTheConfiguration
  exact ⟨s, t, h⟩

theorem witness_FlashOutsideTheSectorsIsNeverChanged :
    ∃ s t : State, s.Inv ∧ step s = .next t ∧ s.cfg.sectorOf 0x2080 = none := by
  obtain ⟨s, t, h1, h2, _, h3, _⟩ := witness_EveryStepKeepsTheInvariant
  exact ⟨s, t, h1, h2, h3⟩

/-- A `write` over three blocks that programs a generic block, and both ends of BOOT_RANGE. -/
theorem witness_OnlyFinalizeCommitsTheBootBlock :
    ∃ t, dependable.Inv ∧ exec (.write 0x2100 [1]) dependable = .next t ∧ t.physical = [.program 0x2040] ∧
      inBootRange dependable.cfg 0x2000 ∧ inBootRange dependable.cfg 0x201F := by
  obtain ⟨t, h, hp⟩ := next_of_after (o := exec (.write 0x2100 [1]) dependable) (f := (·.physical)) (v := [.program 0x2040])
    (by decide +kernel)
  exact ⟨t, dependable_ready.inv, h, hp, by unfold inBootRange inBlock; decide, by unfold inBootRange inBlock; decide⟩

/-- Nothing waits, and a reset does. -/
theorem test_ill_formed_steps :
    refusal (step { State.reset with cfg := { Config.cfgA with sectors := [] } }) = some .illFormedConfig ∧
      refusal (step { State.reset with cfg := { Config.cfgA with sectors := [] }, inbox := [.reset []] }) =
        some .illFormedConfig := by decide

theorem witness_IllFormedConfigurationIsRefused :
    ∃ s : State, s.cfg.wf = false := ⟨{ ready with cfg := { Config.cfgA with sectors := [] } }, by decide⟩

theorem witness_NothingReachesFlashAfterATimeout :
    ∃ t, State.timedOut { p1Staged with timedOut := true } = true ∧
      exec (.write 0x2044 [9]) { p1Staged with timedOut := true } = .next t := by
  obtain ⟨t, h, _⟩ := next_of_after (o := exec (.write 0x2044 [9]) { p1Staged with timedOut := true }) (f := (·.result))
    (v := 0) (by decide +kernel)
  exact ⟨t, rfl, h⟩

/-- A state after a Timeout, with a request for each clause. -/
theorem witness_PhysicalOperationsAfterATimeoutAreRefused :
    ∃ s : State, s.Inv ∧ s.initialised = true ∧ s.timedOut = true ∧ (s.generic ≠ none ∨ s.boot ≠ none) ∧
      (0 < (1 : Word).toNat ∧ s.cfg.addrLo ≤ (0x2000 : Address).toNat ∧
        (0x2000 : Address).toNat + (1 : Word).toNat ≤ s.cfg.addrHi ∧ s.cfg.sectorOf (0x2000 : Address).toNat ≠ none ∧
        s.cfg.sectorOf ((0x2000 : Address).toNat + (1 : Word).toNat - 1) ≠ none) ∧
      (s.cfg.covered (0x205E : Address).toNat 3 = true ∧ s.generic = some p1Generic ∧
        s.cfg.blockBase ((0x205E : Address).toNat + 2) ≠ s.cfg.bootBase ∧
        p1Generic.base.toNat ≠ s.cfg.blockBase ((0x205E : Address).toNat + 2)) :=
  ⟨{ p1Staged with timedOut := true }, p1Staged_inv _ true, rfl, rfl, .inl (by decide), by decide, by decide⟩

/-- With the generic slot invalid: a `write` from the boot block over one generic block into the next. -/
theorem witness_PhysicalOperationsAfterATimeoutAreRefused_twoBlocks :
    ∃ s : State, s.Inv ∧ s.initialised = true ∧ s.timedOut = true ∧ s.generic = none ∧
      s.cfg.covered (0x201F : Address).toNat 34 = true ∧ s.cfg.blockBase ((0x201F : Address).toNat + 33) ≠ s.cfg.bootBase ∧
      ∃ j < 33, s.cfg.blockBase ((0x201F : Address).toNat + j) ≠ s.cfg.bootBase ∧
        s.cfg.blockBase ((0x201F : Address).toNat + j) ≠ s.cfg.blockBase ((0x201F : Address).toNat + 33) :=
  ⟨{ ready with timedOut := true }, inv_of rfl rfl rfl (.inl rfl) (.inl rfl) rfl rfl rfl, rfl, rfl, rfl, by decide, by decide,
    1, by decide, by decide, by decide⟩

/-- Power is lost before the first operation of `finalize`. -/
theorem witness_PowerLossInsideACommandIsAReset :
    ∃ t, exec .finalize { p1Staged with nvmAnswers := [.cutBefore] } = .next t ∧ t.initialised = false := by
  obtain ⟨t, h, hv⟩ := next_of_after (o := exec .finalize { p1Staged with nvmAnswers := [.cutBefore] })
    (f := (·.initialised)) (v := false) (by decide)
  exact ⟨t, h, hv⟩

/-! ### Witnesses: init and request validation -/

theorem witness_InitInvalidatesBothSlots : p1Staged.cfg.wf = true := by decide

theorem witness_EngineCommandsBeforeInitAreRefused : State.reset.cfg.wf = true ∧ State.reset.initialised = false := by decide

/-- The last address below the region and the first past it, for each command; a sum that would wrap in 32 bits. -/
theorem witness_OutOfRangeRequestsChangeNothing :
    ready.cfg.wf = true ∧ ready.initialised = true ∧ ([1] : List Byte) ≠ [] ∧ (0x1FFF : Address).toNat < ready.cfg.addrLo ∧
      ready.cfg.addrHi < (0x217F : Address).toNat + ([1, 2] : List Byte).length ∧ (1 : Word).toNat ≠ 0 ∧
      ready.cfg.addrHi < (0x2000 : Address).toNat + (0x181 : Word).toNat ∧
      ready.cfg.addrHi < (0xFFFFFFFF : Address).toNat + (2 : Word).toNat := by decide

/-- `write(0x207E, 4)`, and an `erase` that begins in the gap and one that ends there. -/
theorem witness_RequestsInAGapChangeNothing :
    ready.cfg.wf = true ∧ ready.initialised = true ∧ ready.cfg.addrLo ≤ (0x207E : Address).toNat ∧
      (0x207E : Address).toNat + 4 ≤ ready.cfg.addrHi ∧ (∃ i < 4, ready.cfg.sectorOf ((0x207E : Address).toNat + i) = none) ∧
      ready.cfg.sectorOf (0x20FF : Address).toNat = none ∧
      ready.cfg.sectorOf ((0x207F : Address).toNat + (2 : Word).toNat - 1) = none := by decide

theorem witness_ZeroLengthRequestsChangeNothing :
    ready.cfg.wf = true ∧ ready.initialised = true ∧ ready.cfg.zeroLenResult = .ok ∧
      { Config.cfgA with zeroLenResult := .outOfRange }.wf = true := by decide

/-- The first and the last byte of a sector, and the byte after it; three indices of the table. -/
theorem witness_SectorOfIsTheUniqueSector :
    Config.cfgA.wf = true ∧ Config.cfgA.sectorOf 0x2040 = some 1 ∧ Config.cfgA.sectorOf 0x207F = some 1 ∧
      Config.cfgA.sectorOf 0x2080 = none ∧ Config.cfgA.sectors[0]? = some ⟨0x2000, 0x40, 2⟩ ∧
      Config.cfgA.sectors[2]? = some ⟨0x2100, 0x80, 5⟩ ∧ Config.cfgA.sectors[1]? = some ⟨0x2040, 0x40, 3⟩ := by decide

/-! ### Witnesses: write and the block switch -/

/-- A slot that is invalid (the boot slot), and one that holds the block; the last byte of a block. -/
theorem witness_WriteInsideOneBlockOnlyStages :
    (ready.Inv ∧ ready.initialised = true ∧ ([7] : List Byte) ≠ [] ∧
        ready.cfg.covered (0x201F : Address).toNat ([7] : List Byte).length = true ∧
        (0x201F : Address).toNat + ([7] : List Byte).length ≤
          ready.cfg.blockBase (0x201F : Address).toNat + ready.cfg.blockSize ∧
        ready.cfg.blockBase (0x201F : Address).toNat = ready.cfg.bootBase ∧ ready.slot .boot = none) ∧
      (p1Staged.Inv ∧ p1Staged.initialised = true ∧ p1Staged.cfg.covered (0x2040 : Address).toNat 1 = true ∧
        p1Staged.cfg.blockBase (0x2040 : Address).toNat ≠ p1Staged.cfg.bootBase ∧
        p1Staged.slot .generic = some ⟨BitVec.ofNat 32 (p1Staged.cfg.blockBase (0x2040 : Address).toNat), p1Generic.buffer⟩) :=
  ⟨⟨ready_inv, rfl, by decide, by decide, by decide, by decide, rfl⟩,
    ⟨p1Staged_inv [] false, rfl, by decide, by decide, by decide⟩⟩

/-- A `write` that displaces a block and crosses a block boundary. -/
theorem witness_WriteUpdatesTheStagedView :
    ∃ t, dependable.Inv ∧ exec (.write 0x205E [1, 2, 3, 4]) dependable = .next t ∧ t.initialised = true ∧ t.result = 0 := by
  obtain ⟨t, h, hv⟩ := next_of_after (o := exec (.write 0x205E [1, 2, 3, 4]) dependable)
    (f := fun t => (t.initialised, t.result)) (v := (true, 0)) (by decide +kernel)
  exact ⟨t, dependable_ready.inv, h, congrArg Prod.fst hv, congrArg Prod.snd hv⟩

theorem witness_WriteSucceedsOnADependableDevice :
    ∃ (address : Address) (bytes : List Byte), dependable.Ready ∧ bytes ≠ [] ∧
      dependable.cfg.covered address.toNat bytes.length = true ∧ dependable.Dependable bytes.length ∧
      (∀ b, dependable.generic = some b → dependable.BlockErased b.base.toNat) ∧
      (∀ i < bytes.length, dependable.cfg.blockBase (address.toNat + i) ≠ dependable.cfg.bootBase →
        dependable.BlockErased (dependable.cfg.blockBase (address.toNat + i))) ∧
      (∀ b, dependable.generic = some b → ∀ i < bytes.length, dependable.cfg.blockBase (address.toNat + i) = b.base.toNat →
        ∀ j < i, dependable.cfg.blockBase (address.toNat + j) = b.base.toNat ∨
          dependable.cfg.blockBase (address.toNat + j) = dependable.cfg.bootBase) := by
  refine ⟨0x205E, [1, 2, 3, 4], dependable_ready, by decide, by decide, dependable_of rfl (by decide),
    fun b _ => erased_of rfl rfl _, fun i _ _ => erased_of rfl rfl _, ?_⟩
  intro b hb
  cases hb
  decide

theorem witness_WriteChangesOnlyGenericBlocks :
    ∃ t, dependable.Inv ∧ exec (.write 0x2100 [1]) dependable = .next t ∧ ¬ inSlot dependable.cfg dependable.generic 0x203F ∧
      ¬ inGenericBlockOf dependable.cfg (0x2100 : Address).toNat 1 0x203F ∧ t.initialised = true := by
  obtain ⟨t, h, hv⟩ := next_of_after (o := exec (.write 0x2100 [1]) dependable) (f := (·.initialised)) (v := true)
    (by decide +kernel)
  refine ⟨t, dependable_ready.inv, h, ?_, ?_, hv⟩
  · rintro ⟨b, hb, h⟩
    cases hb
    exact absurd h.1 (by decide)
  · rintro ⟨i, hi, _, h⟩
    obtain rfl : i = 0 := by omega
    exact absurd h.1 (by decide)

/-- E2, and the same with the other two failures: the result is 3, 4 and 5. Then a request from the last byte of the boot block
on, whose first switch succeeds and whose second fails. -/
theorem witness_AFailedWriteKeepsWhatIsStaged :
    ∀ p ∈ [(lateDraw, (3 : BitVec 8)), (faultDraw, 4), (mismatchDraw, 5)],
      (∃ t, exec (.write 0x205E [1, 2, 3, 4]) { p1Staged with nvmAnswers := [.outcome p.1] } = .next t ∧
        State.Inv { p1Staged with nvmAnswers := [.outcome p.1] } ∧ 2 < t.result.toNat ∧ t.result = p.2) ∧
      ∃ t, exec (.write 0x201F (List.replicate 34 1)) { p1Staged with nvmAnswers := [ideal, .outcome p.1] } = .next t ∧
        State.Inv { p1Staged with nvmAnswers := [ideal, .outcome p.1] } ∧ 2 < t.result.toNat ∧ t.result = p.2 := by
  intro p hp
  have h : (after (exec (.write 0x205E [1, 2, 3, 4]) { p1Staged with nvmAnswers := [.outcome p.1] }) (·.result) = some p.2 ∧
      after (exec (.write 0x201F (List.replicate 34 1)) { p1Staged with nvmAnswers := [ideal, .outcome p.1] }) (·.result) =
        some p.2) ∧ 2 < p.2.toNat := by
    simp only [List.mem_cons, List.not_mem_nil, or_false] at hp
    rcases hp with rfl | rfl | rfl <;> decide +kernel
  obtain ⟨t, ht, hv⟩ := next_of_after h.1.1
  obtain ⟨u, hu, hw⟩ := next_of_after h.1.2
  exact ⟨⟨t, ht, p1Staged_inv _ false, by rw [hv]; exact h.2, hv⟩, u, hu, p1Staged_inv _ false, by rw [hw]; exact h.2, hw⟩

/-- The bases the generic slot holds in turn on CFG-A (R102, R103): E2's request before its failing byte; the one of
`witness_AFailedWriteKeepsWhatIsStaged` that begins in the boot block and returns to the block first held; one from an invalid
slot; and one that stays in the boot block. -/
theorem test_generic_bases :
    p1Staged.genericBases 0x205E 2 = [0x2040] ∧ p1Staged.genericBases 0x201F 33 = [0x2040, 0x2020] ∧
      p1Staged.genericBases 0x201F 34 = [0x2040, 0x2020, 0x2040] ∧
      genericBases Config.cfgA none 0x201F 34 = [0x2020, 0x2040] ∧ genericBases Config.cfgA none 0x2000 32 = [] := by decide

/-- The rows of R112 on CFG-A with the generic slot valid at 0x2040 (3.3). -/
theorem witness_SwitchPlanFollowsTheTable :
    switchPlan Config.cfgA .boot 0x2020 (some p1Generic) = (some .generic, .generic) ∧
      switchPlan Config.cfgA .boot 0x2040 (some p1Generic) = (none, .generic) ∧
      switchPlan Config.cfgA .generic 0x2000 (some p1Generic) = (none, .boot) ∧
      switchPlan Config.cfgA .generic 0x2060 (some p1Generic) = (some .generic, .generic) ∧
      switchPlan Config.cfgA .boot 0x2000 (some p1Generic) = (none, .boot) := by decide

theorem witness_TargetFollowsTheSwitchPlan : p1Staged.Inv := p1Staged_inv [] false

/-! ### Witnesses: erase -/

/-- A request from `T[1]` to `T[2]` over the gap; the first byte of `T[1]`, the last of `T[2]`, and a byte of `T[0]`. -/
theorem witness_EraseErasesWholeSectors :
    dependable.Ready ∧ (0x82 : Word).toNat ≠ 0 ∧ dependable.cfg.sectorOf (0x207F : Address).toNat = some 1 ∧
      dependable.cfg.sectorOf ((0x207F : Address).toNat + (0x82 : Word).toNat - 1) = some 2 ∧
      dependable.Dependable (2 + 1 - 1) ∧ dependable.cfg.sectors[1]? = some ⟨0x2040, 0x40, 3⟩ ∧
      dependable.cfg.sectors[2]? = some ⟨0x2100, 0x80, 5⟩ ∧
      ∀ k, dependable.cfg.sectorOf 0x203F = some k → k < 1 ∨ 2 < k :=
  ⟨dependable_ready, by decide, by decide, by decide, dependable_of rfl (by decide), rfl, rfl,
    fun k h => .inl (by have : dependable.cfg.sectorOf 0x203F = some 0 := by decide
                        rw [this] at h; cases h; decide)⟩

theorem witness_EraseChangesOnlyItsSectors :
    ∃ t, dependable.Inv ∧ exec (.erase 0x2050 1) dependable = .next t ∧ t.initialised = true := by
  obtain ⟨t, h, hv⟩ := next_of_after (o := exec (.erase 0x2050 1) dependable) (f := (·.initialised)) (v := true)
    (by decide +kernel)
  exact ⟨t, dependable_ready.inv, h, hv⟩

/-- Both failures, at the first and at the last sector of a request over all three. -/
theorem witness_EraseStopsAtTheFirstFailure :
    ∀ d ∈ [lateDraw, faultDraw], ∀ answers ∈ [[.outcome d], [ideal, .outcome ⟨.inTime, .ok, [], 1, 0⟩, .outcome d]],
      ∃ s : State, s.Ready ∧ (0x180 : Word).toNat ≠ 0 ∧ s.cfg.sectorOf (0x2000 : Address).toNat = some 0 ∧
        s.cfg.sectorOf ((0x2000 : Address).toNat + (0x180 : Word).toNat - 1) = some 2 ∧
        (∀ n < answers.length - 1, s.ErasesWell n) ∧ s.nvmAnswers[answers.length - 1]? = some (.outcome d) ∧
        (d.fin = .late ∨ d.status = .fault) := by
  intro d hd answers ha
  refine ⟨{ p1Staged with nvmAnswers := answers }, ⟨p1Staged_inv _ false, rfl, rfl⟩, by decide,
    (by decide : Config.cfgA.sectorOf (0x2000 : Address).toNat = some 0),
    (by decide : Config.cfgA.sectorOf ((0x2000 : Address).toNat + (0x180 : Word).toNat - 1) = some 2), ?_, ?_, ?_⟩
  · simp only [List.mem_cons, List.not_mem_nil, or_false] at ha
    rcases ha with rfl | rfl <;> intro n hn
    · exact absurd hn (by simp)
    · match n, hn with
      | 0, _ => exact ⟨_, .inl rfl⟩
      | 1, _ => exact ⟨_, .inr ⟨rfl, rfl, rfl⟩⟩
  · simp only [List.mem_cons, List.not_mem_nil, or_false] at ha
    rcases ha with rfl | rfl <;> rfl
  · simp only [List.mem_cons, List.not_mem_nil, or_false] at hd
    rcases hd with rfl | rfl <;> decide

/-! ### Witnesses: the checksum commands -/

/-- With the boot slot invalid, and with it valid. -/
theorem witness_WriteChecksumStagesTheChecksum :
    (ready.Inv ∧ ready.initialised = true ∧ ready.boot = none) ∧
      (p1Staged.Inv ∧ p1Staged.initialised = true ∧ p1Staged.boot = some p1BootSummed) :=
  ⟨⟨ready_inv, rfl, rfl⟩, ⟨p1Staged_inv [] false, rfl, rfl⟩⟩

theorem witness_VerifyChecksumTestsTheSumInFlash : State.reset.cfg.wf = true := by decide

/-- The first and the last byte of the vector words. -/
theorem witness_AMutatedVectorByteFailsVerification :
    ∃ s t : State, s.Inv ∧ s.cfg.bootBase ≤ 0x2000 ∧ 0x2017 < s.cfg.bootBase + 24 ∧ (0xAA : Byte) ≠ s.flash.read 0x2000 ∧
      (0xAA : Byte) ≠ s.flash.read 0x2017 ∧ exec .verifyChecksum s = .next t ∧ t.flag = true := by
  obtain ⟨t, h, hv⟩ := next_of_after
    (o := exec .verifyChecksum { ready with flash := Flash.writeBytes [] 0x2000 p1BootSummed.buffer }) (f := (·.flag))
    (v := true) (by decide)
  exact ⟨_, t, inv_of rfl (by decide) rfl (.inl rfl) (.inl rfl) rfl rfl rfl, by decide, by decide, by decide, by decide, h, hv⟩

/-- P1, steps 7 and 9. -/
theorem witness_ACompletedSessionVerifies :
    ∃ s t u : State, s.Inv ∧ s.boot ≠ none ∧ exec .writeChecksum s = .next t ∧ t.initialised = true ∧
      exec .finalize t = .next u ∧ u.initialised = true ∧ u.result = 0 := by
  obtain ⟨t, h, hv⟩ := next_of_after
    (o := exec .writeChecksum { ready with boot := some p1Boot, nvmAnswers := [ideal] })
    (f := fun t => (t.initialised, after (exec .finalize t) fun u => (u.initialised, u.result))) (v := (true, some (true, 0)))
    (by decide +kernel)
  obtain ⟨u, h', hv'⟩ := next_of_after (congrArg Prod.snd hv)
  exact ⟨_, t, u, inv_of rfl rfl rfl (.inl rfl) (.inr (.inl rfl)) rfl rfl rfl, by decide, h, congrArg Prod.fst hv, h',
    congrArg Prod.fst hv', congrArg Prod.snd hv'⟩

/-! ### Witnesses: finalize -/

theorem witness_FinalizeCommitsTheStagedView :
    ∃ t, dependable.Inv ∧ exec .finalize dependable = .next t ∧ t.initialised = true ∧ t.result = 0 := by
  obtain ⟨t, h, hv⟩ := next_of_after (o := exec .finalize dependable) (f := fun t => (t.initialised, t.result))
    (v := (true, 0)) (by decide +kernel)
  exact ⟨t, dependable_ready.inv, h, congrArg Prod.fst hv, congrArg Prod.snd hv⟩

theorem witness_FinalizeSucceedsOnADependableDevice :
    dependable.Ready ∧ dependable.Dependable 2 ∧ (∀ S b, dependable.slot S = some b → dependable.BlockErased b.base.toNat) ∧
      dependable.slot .generic = some p1Generic ∧ dependable.slot .boot = some p1BootSummed :=
  ⟨dependable_ready, dependable_of rfl (by decide), fun _ b _ => erased_of rfl rfl _, rfl, rfl⟩

theorem witness_FinalizeWithNothingStagedDoesNothing :
    ready.cfg.wf = true ∧ ready.initialised = true ∧ ready.generic = none ∧ ready.boot = none := by decide

/-- A Timeout, a HardwareFault, and a byte that reads back wrong (E1), at the last byte of the block: of the generic block, of the
boot block after a successful program of the generic one, and of the boot block alone. -/
theorem witness_FinalizeReportsTheFirstFailure :
    ∀ d ∈ [lateDraw, faultDraw, mismatchDraw],
      (∃ s : State, s.Ready ∧ failsProgram s.cfg p1Generic d ∧ s.generic = some p1Generic ∧ s.Draws 0 p1Generic.base.toNat d) ∧
      (∃ s : State, s.Ready ∧ failsProgram s.cfg p1BootSummed d ∧ s.boot = some p1BootSummed ∧ s.generic = some p1Generic ∧
        s.ProgramsWell 0 p1Generic ∧ s.Draws 1 p1BootSummed.base.toNat d) ∧
      ∃ s : State, s.Ready ∧ failsProgram s.cfg p1BootSummed d ∧ s.boot = some p1BootSummed ∧ s.generic = none ∧
        s.Draws 0 p1BootSummed.base.toNat d := by
  intro d hd
  have h : failsProgram Config.cfgA p1Generic d ∧ failsProgram Config.cfgA p1BootSummed d := by
    simp only [List.mem_cons, List.not_mem_nil, or_false] at hd
    rcases hd with rfl | rfl | rfl
    · exact ⟨.inl rfl, .inl rfl⟩
    · exact ⟨.inr (.inl rfl), .inr (.inl rfl)⟩
    · exact ⟨.inr (.inr ⟨31, 0, by decide, by decide, by decide⟩), .inr (.inr ⟨31, 0, by decide, by decide, by decide⟩)⟩
  refine ⟨⟨{ p1Staged with nvmAnswers := [.outcome d] }, ⟨p1Staged_inv _ false, rfl, rfl⟩, h.1, rfl, .inl rfl⟩,
    ⟨{ p1Staged with nvmAnswers := [ideal, .outcome d] }, ⟨p1Staged_inv _ false, rfl, rfl⟩, h.2, rfl, rfl,
      ⟨_, .inl ⟨rfl, erased_of rfl rfl _⟩⟩, .inl rfl⟩,
    ⟨{ ready with boot := some p1BootSummed, nvmAnswers := [.outcome d] },
      ⟨inv_of rfl rfl rfl (.inl rfl) (.inr (.inr rfl)) rfl rfl rfl, rfl, rfl⟩, h.2, rfl, rfl, .inl rfl⟩⟩

/-- The other ways the conditions on an answer are met: a program that is drawn to succeed, a device that meets R110 under a
block that is not erased, and a draw that succeeds there. -/
theorem witness_answers :
    (∃ s : State, s.ProgramsWell 0 p1Generic ∧ s.nvmAnswers = [.outcome ⟨.inTime, .ok, p1Generic.buffer, 1, 0⟩]) ∧
      ∃ s : State, s.Draws 0 0x2040 lateDraw ∧ s.nvmAnswers = [.sound lateDraw] :=
  ⟨⟨{ p1Staged with nvmAnswers := [.outcome ⟨.inTime, .ok, p1Generic.buffer, 1, 0⟩] },
      ⟨_, .inr ⟨.inl rfl, rfl, rfl, by decide⟩⟩, rfl⟩,
    ⟨{ p1Staged with nvmAnswers := [.sound lateDraw], flash := [(0x2040, 0x11)] },
      .inr ⟨rfl, fun h => absurd (h 0x2040 (by unfold inBlock; decide)) (by decide)⟩, rfl⟩⟩

theorem witness_FinalizeChangesOnlyTheStagedBlocks :
    ∃ t, dependable.Inv ∧ exec .finalize dependable = .next t ∧ ¬ inSlot dependable.cfg dependable.generic 0x2060 ∧
      ¬ inSlot dependable.cfg dependable.boot 0x2060 ∧ t.initialised = true := by
  obtain ⟨t, h1, h2, h3, _⟩ := witness_FinalizeCommitsTheStagedView
  refine ⟨t, h1, h2, ?_, ?_, h3⟩
  · rintro ⟨b, hb, h⟩
    cases hb
    exact absurd h.2 (by decide)
  · rintro ⟨b, hb, h⟩
    cases hb
    exact absurd h.2 (by decide)

/-- Power is lost before the generic block's program and in it, as the last answer the list holds, and between the two programs
(P1's last remark). -/
theorem witness_PowerLossBeforeTheBootCommitSparesTheBootBlock :
    (∀ x ∈ [NvmAnswer.cutBefore, .cutDuring [0x5A]], ∃ s t : State, s.Inv ∧ exec .finalize s = .next t ∧
      (s.generic ≠ none ∧ (∃ y, s.nvmAnswers[0]? = some y ∧ keepsPower y = false)) ∧ s.nvmAnswers = [x] ∧
      inBootRange s.cfg 0x2000 ∧ inBootRange s.cfg 0x201F) ∧
    ∃ s t : State, s.Inv ∧ exec .finalize s = .next t ∧ s.generic ≠ none ∧
      s.nvmAnswers[s.generic.toList.length]? = some .cutBefore ∧ keepsPower s.nvmAnswers[0]! = true ∧
      inBootRange s.cfg 0x2000 := by
  have hb : inBootRange Config.cfgA 0x2000 ∧ inBootRange Config.cfgA 0x201F := by unfold inBootRange inBlock; decide
  refine ⟨fun x hx => ?_, ?_⟩
  · have h : after (exec .finalize { p1Staged with nvmAnswers := [x] }) (·.initialised) = some false ∧
        keepsPower x = false := by
      simp only [List.mem_cons, List.not_mem_nil, or_false] at hx
      rcases hx with rfl | rfl <;> decide +kernel
    obtain ⟨t, ht, _⟩ := next_of_after h.1
    exact ⟨_, t, p1Staged_inv _ false, ht, ⟨Option.some_ne_none p1Generic, x, rfl, h.2⟩, rfl, hb⟩
  · obtain ⟨t, h, _⟩ := next_of_after (o := exec .finalize { p1Staged with nvmAnswers := [ideal, .cutBefore] })
      (f := (·.initialised)) (v := false) (by decide +kernel)
    exact ⟨_, t, p1Staged_inv _ false, h, by decide, rfl, rfl, hb.1⟩

/-- The same with the generic slot invalid: power is lost before the boot block's program, the only one. -/
theorem witness_PowerLossBeforeTheOnlyBootCommit :
    ∃ s t : State, s.Inv ∧ exec .finalize s = .next t ∧ s.generic = none ∧ s.boot = some p1BootSummed ∧
      s.nvmAnswers[s.generic.toList.length]? = some .cutBefore ∧ inBootRange s.cfg 0x2000 := by
  obtain ⟨t, h, _⟩ := next_of_after
    (o := exec .finalize { ready with boot := some p1BootSummed, nvmAnswers := [.cutBefore] })
    (f := (·.initialised)) (v := false) (by decide +kernel)
  exact ⟨_, t, inv_of rfl rfl rfl (.inl rfl) (.inr (.inr rfl)) rfl rfl rfl, h, rfl, rfl, rfl,
    by unfold inBootRange inBlock; decide⟩

/-! ### Witnesses: the activation machine and the resolver -/

/-- The smallest length, the largest, and the two just outside. -/
theorem witness_AByteInIdleIsALength :
    State.reset.cfg.wf = true ∧ State.reset.cfg.transportKind = .stream ∧ State.reset.apm = .idle ∧
      (0 < (1 : Byte).toNat ∧ (64 : Byte).toNat ≤ State.reset.cfg.maxPayload.toNat) ∧ ¬ 0 < (0 : Byte).toNat ∧
      ¬ (65 : Byte).toNat ≤ State.reset.cfg.maxPayload.toNat := by decide

/-- A byte that does not complete the packet, one that completes CONNECT, one that completes another payload. -/
theorem witness_AByteInReceivingIsAppended :
    (receiving 2 0 [0xFF] 5).cfg.wf = true ∧ (receiving 2 0 [0xFF] 5).cfg.transportKind = .stream ∧
      (receiving 2 0 [0xFF] 5).apm = .receiving 2 0 [0xFF] ∧ (receiving 2 0 [] 5).apm = .receiving 2 0 [] ∧
      ([] : List Byte).length + 1 ≠ (2 : Byte).toNat ∧ ([0xFF] : List Byte).length + 1 = (2 : Byte).toNat ∧
      (([0xFF, 0x00] : List Byte)[0]? = some Config.cfgA.sig0 ∧ ([0xFF, 0x00] : List Byte)[1]? = some Config.cfgA.sig1) ∧
      ¬ (([0xFF, 0x01] : List Byte)[0]? = some Config.cfgA.sig0 ∧
        ([0xFF, 0x01] : List Byte)[1]? = some Config.cfgA.sig1) := by decide

/-- Idle; Receiving at the last tick in time and at the first one late. -/
theorem witness_AnEmptyTickAbandonsAStalledPacket :
    State.reset.cfg.wf = true ∧ State.reset.apm = .idle ∧
      (receiving 3 1000 [0xFF] 1100).apm = .receiving 3 1000 [0xFF] ∧
      ¬ 1000 + State.reset.cfg.rxTimeout < (receiving 3 1000 [0xFF] 1100).now ∧
      1000 + State.reset.cfg.rxTimeout < (receiving 3 1000 [0xFF] 1101).now := by decide

theorem witness_AFrameIsInspectedAtOnce :
    frameBuild.cfg.wf = true ∧ frameBuild.cfg.transportKind = .frame ∧
      (([0xFF, 0x00] : List Byte)[0]? = some frameBuild.cfg.sig0 ∧
        ([0xFF, 0x00] : List Byte)[1]? = some frameBuild.cfg.sig1) ∧
      ¬ (([0xFF] : List Byte)[0]? = some frameBuild.cfg.sig0 ∧ ([0xFF] : List Byte)[1]? = some frameBuild.cfg.sig1) := by
  decide

/-- A Frame build and a Stream build. -/
theorem witness_EventsOfTheOtherTransportAreRefused :
    frameBuild.cfg.wf = true ∧ frameBuild.cfg.transportKind = .frame ∧ State.reset.cfg.wf = true ∧
      State.reset.cfg.transportKind = .stream := by decide

/-- P4's packet `03 FF 00 00` at 1000, 1001, 1002 and 1003; and packets whose payload is no CONNECT, or too short to be. -/
theorem witness_APacketFiresTheTriggerOnce :
    ∀ p ∈ [((3 : Byte), ([0xFF, 0x00, 0x00] : List Byte), [1000, 1, 1, 1]), (2, [0xFF, 0x01], [0, 0, 900]), (1, [0xFF], [5, 5])],
      ∃ s : State, s.cfg.wf = true ∧ s.cfg.transportKind = .stream ∧ s.apm = .idle ∧ 0 < p.1.toNat ∧
        p.1.toNat ≤ s.cfg.maxPayload.toNat ∧ p.2.1.length = p.1.toNat ∧ p.2.2.length = p.1.toNat + 1 ∧ s.data = [] ∧
        s.inbox = List.zipWith (fun t b => PortInput.command t (encode (.byteReceived b))) p.2.2 (p.1 :: p.2.1) ++ [] := by
  intro p hp
  have h : 0 < p.1.toNat ∧ p.1.toNat ≤ Config.cfgA.maxPayload.toNat ∧ p.2.1.length = p.1.toNat ∧
      p.2.2.length = p.1.toNat + 1 := by
    revert p; decide
  exact ⟨{ State.reset with
      inbox := List.zipWith (fun t b => PortInput.command t (encode (.byteReceived b))) p.2.2 (p.1 :: p.2.1) },
    cfgA_wf, rfl, rfl, h.1, h.2.1, h.2.2.1, h.2.2.2, rfl, by simp⟩

/-- 36 MHz at 1 MHz: the second entry divides, the first does not; 36 MHz at 83333 Hz: none does. -/
theorem witness_ResolveReportsTheFirstExactEntry :
    State.reset.cfg.wf = true ∧ State.reset.cfg.canTable[1]? = some ⟨6, 2⟩ ∧
      ((1000000 : Word).toNat * (1 + (6 : Byte).toNat + (2 : Byte).toNat) ≠ 0 ∧
        (36000000 : Word).toNat % ((1000000 : Word).toNat * (1 + (6 : Byte).toNat + (2 : Byte).toNat)) = 0 ∧
        State.reset.cfg.prescalerMin ≤
          (36000000 : Word).toNat / ((1000000 : Word).toNat * (1 + (6 : Byte).toNat + (2 : Byte).toNat)) ∧
        (36000000 : Word).toNat / ((1000000 : Word).toNat * (1 + (6 : Byte).toNat + (2 : Byte).toNat)) ≤
          State.reset.cfg.prescalerMax) ∧
      (∀ j < 1, ∀ f, State.reset.cfg.canTable[j]? = some f →
        (36000000 : Word).toNat % ((1000000 : Word).toNat * (1 + f.tseg1.toNat + f.tseg2.toNat)) ≠ 0) ∧
      (∀ f ∈ State.reset.cfg.canTable,
        (36000000 : Word).toNat % ((83333 : Word).toNat * (1 + f.tseg1.toNat + f.tseg2.toNat)) ≠ 0) := by
  refine ⟨by decide, rfl, by decide, ?_, by decide⟩
  intro j hj f hf
  obtain rfl : j = 0 := by omega
  cases hf
  decide

theorem witness_AResolvedTimingIsExact :
    ∃ t, exec (.resolve 36000000 125000) State.reset = .next t ∧ t.flag = true := by
  obtain ⟨t, h, hv⟩ := next_of_after (o := exec (.resolve 36000000 125000) State.reset) (f := (·.flag)) (v := true) (by decide)
  exact ⟨t, h, hv⟩

theorem witness_ResolveReadsNoMutableState : ready.cfg.wf = true ∧ State.reset.cfg = ready.cfg := by decide

end Sys2Proof.Tests
end

/-! PROOFS. The invariant over every step and at reset (R9, R23, R28, R36, R46), the refusal of a configuration that is not
well formed (R9), the step around `exec` (R12, R31), and words as bytes (R10). -/

namespace Sys2Proof.Machine

/-! ### What the invariant does not speak of -/

/-- The invariant speaks of no register and no input still to arrive, and time may pass. -/
theorem State.Inv.frame {s t : State} (h : s.Inv)
    (ht : t = { s with
      now := t.now, cw := t.cw, addr := t.addr, len := t.len, data := t.data, result := t.result, flag := t.flag,
      presc := t.presc, tseg1 := t.tseg1, tseg2 := t.tseg2, inbox := t.inbox, freeCount := t.freeCount })
    (hn : s.now ≤ t.now) : t.Inv := by
  rw [ht]
  exact ⟨h.config, h.flash, h.generic, h.boot, h.beforeInit, h.flight, h.apm.later hn, h.trace⟩

theorem State.Inv.setEventFlags {s : State} (h : s.Inv) (b : Bool) : (s.setEventFlags b).Inv := h.frame rfl le_rfl

theorem State.Inv.fireTrigger {s : State} (h : s.Inv) : s.fireTrigger.Inv := by
  refine ⟨h.config, h.flash, h.generic, h.boot, h.beforeInit, h.flight, h.apm, fun ev hev => ?_⟩
  rw [State.fireTrigger_trace, List.mem_append, List.mem_singleton] at hev
  rcases hev with hev | rfl
  · exact h.trace ev hev
  · trivial

theorem State.Inv.setApm {s : State} (h : s.Inv) {a : ApmState} (ha : ApmOk s.cfg s.now a) :
    State.Inv { s with apm := a } :=
  ⟨h.config, h.flash, h.generic, h.boot, h.beforeInit, h.flight, ha, h.trace⟩

/-! ### The activation machine keeps the invariant (R28, R131 to R135) -/

theorem State.Inv.inspect {s : State} (h : s.Inv) (payload : List Byte) : (inspect payload s).Inv := by
  unfold Machine.inspect
  split_ifs
  · exact h.fireTrigger.setEventFlags true
  · exact h.setEventFlags false

theorem State.Inv.acceptLength {s : State} (h : s.Inv) (hk : s.cfg.transportKind = .stream) (b : Byte) :
    (acceptLength b s).Inv := by
  unfold Machine.acceptLength
  split_ifs with hb
  · exact (h.setEventFlags false).setApm ⟨hb.1, hb.2, hb.1, le_rfl, hk⟩
  · exact h.setEventFlags false

/-- A payload byte that does not complete its packet leaves `received < length` (R28). -/
theorem State.Inv.acceptPayload {s : State} (h : s.Inv) {length : Byte} {startTime : Nat} {payload : List Byte}
    (ha : s.apm = .receiving length startTime payload) (b : Byte) :
    (acceptPayload length startTime payload b s).Inv := by
  have hok := h.apm
  rw [ha] at hok
  obtain ⟨hpos, hmax, hlt, hstart, hkind⟩ := hok
  unfold Machine.acceptPayload
  split_ifs with hfull
  · exact (h.inspect _).setApm trivial
  · rw [List.length_append, List.length_singleton] at hfull
    refine (h.setEventFlags false).setApm ⟨hpos, hmax, ?_, hstart, hkind⟩
    rw [List.length_append, List.length_singleton]
    omega

theorem State.Inv.emptyTick {s : State} (h : s.Inv) : (emptyTick s).Inv := by
  unfold Machine.emptyTick
  split
  · exact h.setEventFlags false
  · split_ifs
    · exact (h.setEventFlags false).setApm trivial
    · exact h.setEventFlags false

theorem onTransport_next {kind : TransportKind} {s u t : State} (h : onTransport kind s u = .next t) :
    s.cfg.transportKind = kind ∧ t = u := by
  obtain ⟨_, h⟩ := configured_next h
  split_ifs at h with hk
  exact ⟨hk, by simpa using h.symm⟩

theorem execNoByteThisTick_inv {s t : State} (hs : s.Inv) (h : execNoByteThisTick s = .next t) : t.Inv := by
  obtain ⟨_, h⟩ := configured_next h
  cases h
  exact hs.emptyTick

theorem execByteReceived_inv {b : Byte} {s t : State} (hs : s.Inv) (h : execByteReceived b s = .next t) : t.Inv := by
  obtain ⟨hk, rfl⟩ := onTransport_next h
  split
  · exact hs.acceptLength hk b
  · next ha => exact hs.acceptPayload ha b

theorem execFrameReceived_inv {payload : List Byte} {s t : State} (hs : s.Inv)
    (h : execFrameReceived payload s = .next t) : t.Inv := by
  obtain ⟨_, rfl⟩ := onTransport_next h
  exact hs.inspect payload

/-! ### Commands that start no operation keep the invariant -/

theorem execResolve_inv {clock rate : Word} {s t : State} (hs : s.Inv) (h : execResolve clock rate s = .next t) :
    t.Inv := by
  obtain ⟨_, h⟩ := configured_next h
  split at h <;> cases h
  · exact hs.frame rfl le_rfl
  · exact hs.frame rfl le_rfl

theorem execVerifyChecksum_inv {s t : State} (hs : s.Inv) (h : execVerifyChecksum s = .next t) : t.Inv := by
  obtain ⟨_, h⟩ := configured_next h
  split_ifs at h
  cases h
  exact hs.frame rfl le_rfl

/-! ### The engine's commands keep the invariant -/

/-- However the piece ends, the command that ends with it leaves a state that meets the invariant: where power is lost only
CFG and flash outlive the reset (R192). -/
def Run.KeepsInv {α : Type} (r : Run α) : Prop :=
  r.Sat (fun _ t => t.Inv) (fun _ t => t.Inv) (fun _ t => t.cfg.wf = true ∧ t.flash.wf = true)

theorem finish_inv {r : Run Unit} {t : State} (hr : r.KeepsInv) (h : finish r = .next t) : t.Inv :=
  finish_sat h hr (fun _ hu => hu.answer codeOk) (fun e _ hu => hu.answer e.code)
    fun c _ hu => State.Inv.powerReset hu.1 hu.2 c

theorem engineCommand_inv {body : State → Run Unit} {s t : State} (hbody : s.initialised = true → (body s).KeepsInv)
    (h : engineCommand body s = .next t) : t.Inv := by
  obtain ⟨_, hi, h⟩ := engineCommand_next h
  exact finish_inv (hbody hi) h

/-- A piece whose ends are described by `Ended` and `Lost`, from a state under a well-formed CFG, keeps the invariant. -/
theorem Run.Sat.keepsInv {α : Type} {r : Run α} {s : State} {touched : Nat → Prop} {ok : α → State → Prop}
    {raised : EngineError → State → Prop} (h : r.Sat ok raised fun _ t => Lost touched s t) (hw : s.cfg.wf = true)
    (hok : ∀ a t, ok a t → t.Inv) (hraised : ∀ e t, raised e t → Ended touched s t) : r.KeepsInv :=
  h.mono hok (fun e t ht => (hraised e t ht).inv) fun _ _ ht => ⟨ht.only.cfg ▸ hw, ht.wf⟩

theorem runInit_keepsInv {s : State} (hs : s.Inv) : (runInit s).KeepsInv :=
  ⟨hs.config, hs.flash, nofun, nofun, fun _ => ⟨rfl, rfl⟩, hs.flight, hs.apm, hs.trace⟩

theorem zeroLength_keepsInv {s : State} (hs : s.Inv) : (zeroLength s).KeepsInv := by
  unfold zeroLength
  split <;> exact hs

theorem covered_of_validateWrite {c : Config} {a n : Nat} (h : validateWrite c a n = none) : c.covered a n = true := by
  unfold validateWrite at h
  split_ifs at h with h1 h2
  simpa using h2

theorem runWrite_keepsInv {s : State} (hs : s.Inv) (hi : s.initialised = true) (address : Nat) (bytes : List Byte) :
    (runWrite address bytes s).KeepsInv := by
  unfold runWrite
  split_ifs
  · exact zeroLength_keepsInv hs
  · split
    · exact hs
    · next hv =>
      exact (writeLoop_sat bytes _ _ s hs hi (covered_of_validateWrite hv)).keepsInv hs.config (fun _ _ h => h.inv)
        fun _ _ h => h.1

theorem runErase_keepsInv {s : State} (hs : s.Inv) (hi : s.initialised = true) (address length : Nat) :
    (runErase address length s).KeepsInv := by
  unfold runErase
  split_ifs
  · exact zeroLength_keepsInv hs
  · split
    · exact hs
    · next kf kl _ =>
      have ho := onlyEngine_dropSlots kf kl s
      have hd := hs.dropSlots hi kf kl
      refine (eraseLoop_sat (sectorsBetween s.cfg kf kl) _ hd (ho.initialised.trans hi) fun x hx => ?_).keepsInv hd.config
        (fun _ _ h => h.inv) fun _ _ h => h.1
      obtain ⟨k, _, _, hk⟩ := mem_sectorsBetween.1 hx
      exact ho.cfg ▸ List.mem_of_getElem? hk

theorem runWriteChecksum_keepsInv {s : State} (hs : s.Inv) (hi : s.initialised = true) :
    (runWriteChecksum s).KeepsInv := by
  unfold runWriteChecksum
  split
  · exact hs
  · exact runWrite_keepsInv hs hi _ _

theorem commitSlot_keepsInv {s : State} (hs : s.Inv) (hi : s.initialised = true) (S : Slot) :
    (commitSlot S s).KeepsInv :=
  (commitSlot_sat hs hi).keepsInv hs.config (fun _ _ h => h.inv) fun _ _ h => h

theorem runFinalize_keepsInv {s : State} (hs : s.Inv) (hi : s.initialised = true) : (runFinalize s).KeepsInv := by
  have h := commitSlot_sat (S := .generic) hs hi
  refine Run.Sat.andThen (h.mono (fun _ _ h => h) (fun _ _ h => h.inv) fun _ _ h => ⟨h.only.cfg ▸ hs.config, h.wf⟩) ?_
  intro _ t ht
  exact commitSlot_keepsInv ht.inv (ht.only.initialised.trans hi) .boot

theorem execInit_inv {s t : State} (hs : s.Inv) (h : execInit s = .next t) : t.Inv :=
  finish_inv (runInit_keepsInv hs) (configured_next h).2

/-! ### Every step keeps the invariant -/

theorem exec_inv {s t : State} (hs : s.Inv) (i : Instr) (h : exec i s = .next t) : t.Inv := by
  cases i with
  | init => exact execInit_inv hs h
  | write address bytes => exact engineCommand_inv (fun hi => runWrite_keepsInv hs hi _ bytes) h
  | erase address length => exact engineCommand_inv (fun hi => runErase_keepsInv hs hi _ _) h
  | writeChecksum => exact engineCommand_inv (runWriteChecksum_keepsInv hs) h
  | verifyChecksum => exact execVerifyChecksum_inv hs h
  | finalize => exact engineCommand_inv (runFinalize_keepsInv hs) h
  | noByteThisTick => exact execNoByteThisTick_inv hs h
  | byteReceived b => exact execByteReceived_inv hs h
  | frameReceived payload => exact execFrameReceived_inv hs h
  | resolve clock rate => exact execResolve_inv hs h

/-- Settles O10, by cases on what the step took from the port. -/
theorem everyStepKeepsTheInvariant : Obligations.EveryStepKeepsTheInvariant := by
  intro s t hs h
  rcases step_next h with rfl | ⟨content, rest, _, rfl⟩ | ⟨status, content, rest, _, rfl⟩ |
    ⟨rest, elapsed, c, i, left, _, h⟩
  · exact hs
  · exact State.Inv.powerReset (s := { s with inbox := rest }) hs.config hs.flash content
  · exact State.Inv.endFlight (s := { s with inbox := rest }) (hs.frame rfl le_rfl) status content
  · exact exec_inv (hs.frame rfl (Nat.le_add_right s.now elapsed)) i h

/-- Settles O9: every field is evaluated, and CFG-A is well formed. -/
theorem resetMeetsTheInvariant : Obligations.ResetMeetsTheInvariant where
  config := by decide
  flash := rfl
  generic := by simp [State.reset]
  boot := by simp [State.reset]
  beforeInit := fun _ => ⟨rfl, rfl⟩
  flight := by simp [State.reset]
  apm := trivial
  trace := by simp [State.reset]

/-! ### Configurations that are not well formed (R9) -/

/-- Whatever operation is run, R9's test comes first. -/
theorem exec_guarded (i : Instr) (s : State) : ∃ k, exec i s = configured s k := by
  cases i <;> exact ⟨_, rfl⟩

theorem configured_of_not_wf {s : State} (h : s.cfg.wf = false) (k : Host.Outcome State Fault Refusal) :
    configured s k = .refused .illFormedConfig := by
  simp [configured, h]

theorem exec_of_not_wf {s : State} (h : s.cfg.wf = false) (i : Instr) : exec i s = .refused .illFormedConfig := by
  obtain ⟨k, hk⟩ := exec_guarded i s
  rw [hk, configured_of_not_wf h]

theorem step_of_not_wf {s : State} (h : s.cfg.wf = false) : step s = .refused .illFormedConfig :=
  configured_of_not_wf h _

/-- Settles O15: both a step and an operation begin with the test of R9. -/
theorem illFormedConfigurationIsRefused : Obligations.IllFormedConfigurationIsRefused :=
  fun _ h => ⟨step_of_not_wf h, exec_of_not_wf h⟩

/-! ### A step takes the next command from the port -/

theorem takeInput_command {s : State} {elapsed : Nat} {c : PortCommand} {rest : List PortInput} {i : Instr}
    {left : List Byte} (hin : s.inbox = .command elapsed c :: rest)
    (hdec : decode { c with data := s.data ++ c.data } = .ok (i, left)) :
    takeInput s = .instr i { s with
      inbox := rest, now := s.now + elapsed, cw := c.cw, addr := c.addr, len := c.len, data := left } := by
  simp [takeInput, hin, hdec, State.latch]

/-- Settles O5: under a well-formed CFG by what the port takes; under any other both sides are refused (R9). -/
theorem stepRunsTheDecodedInstruction : Obligations.StepRunsTheDecodedInstruction := by
  intro s elapsed c rest i left hin hdec
  cases hw : s.cfg.wf with
  | true => rw [step, configured_of_wf hw, takeInput_command hin hdec]
  | false =>
    refine (step_of_not_wf hw).trans (exec_of_not_wf ?_ i).symm
    exact hw

/-! ### Words and their bytes (R10) -/

theorem wordOf_be (b0 b1 b2 b3 : Byte) : wordOf .be b0 b1 b2 b3 = wordOf .le b3 b2 b1 b0 := rfl

theorem bytesOf_be (w : Word) : bytesOf .be w = (bytesOf .le w).reverse := rfl

theorem toNat_append_byte {n : Nat} (x : BitVec n) (y : Byte) : (x ++ y).toNat = 2 ^ 8 * x.toNat + y.toNat := by
  rw [BitVec.toNat_append, ← Nat.shiftLeft_add_eq_or_of_lt y.isLt, Nat.shiftLeft_eq, Nat.mul_comm]

theorem toNat_wordOf_le (b0 b1 b2 b3 : Byte) :
    (wordOf .le b0 b1 b2 b3).toNat = b0.toNat + 2 ^ 8 * b1.toNat + 2 ^ 16 * b2.toNat + 2 ^ 24 * b3.toNat := by
  simp only [wordOf, toNat_append_byte]
  omega

/-- The bytes of a little-endian word are the digits of its value to the base 256. -/
theorem bytesOf_wordOf_le (b0 b1 b2 b3 : Byte) : bytesOf .le (wordOf .le b0 b1 b2 b3) = [b0, b1, b2, b3] := by
  have hw := toNat_wordOf_le b0 b1 b2 b3
  have h0 := b0.isLt
  have h1 := b1.isLt
  have h2 := b2.isLt
  have h3 := b3.isLt
  simp only [bytesOf, List.cons.injEq, and_true, ← BitVec.toNat_inj, BitVec.extractLsb'_toNat,
    Nat.shiftRight_eq_div_pow, hw]
  omega

theorem wordOf_bytesOf_le (w : Word) : wordInBuffer .le (bytesOf .le w) 0 = w := by
  have hw := w.isLt
  apply BitVec.eq_of_toNat_eq
  simp only [wordInBuffer, bytesOf, toNat_wordOf_le, List.getD_cons_zero, List.getD_cons_succ, BitVec.extractLsb'_toNat,
    Nat.shiftRight_eq_div_pow]
  omega

theorem bytesOf_wordOf (order : WordOrder) (b0 b1 b2 b3 : Byte) :
    bytesOf order (wordOf order b0 b1 b2 b3) = [b0, b1, b2, b3] := by
  cases order with
  | le => exact bytesOf_wordOf_le b0 b1 b2 b3
  | be => rw [wordOf_be, bytesOf_be, bytesOf_wordOf_le]; rfl

theorem wordInBuffer_bytesOf (order : WordOrder) (w : Word) : wordInBuffer order (bytesOf order w) 0 = w := by
  cases order with
  | le => exact wordOf_bytesOf_le w
  | be => exact wordOf_bytesOf_le w

theorem toNat_wordOf_be (b0 b1 b2 b3 : Byte) :
    (wordOf .be b0 b1 b2 b3).toNat = 2 ^ 24 * b0.toNat + 2 ^ 16 * b1.toNat + 2 ^ 8 * b2.toNat + b3.toNat := by
  rw [wordOf_be, toNat_wordOf_le]
  omega

/-- Settles O36: a big-endian word is the little-endian word of the bytes reversed, whose bytes are its digits to the base
256. -/
theorem bytesIsTheInverseOfWord : Obligations.BytesIsTheInverseOfWord :=
  fun order w b0 b1 b2 b3 => ⟨bytesOf_wordOf order b0 b1 b2 b3, wordInBuffer_bytesOf order w,
    toNat_wordOf_le b0 b1 b2 b3, toNat_wordOf_be b0 b1 b2 b3⟩

end Sys2Proof.Machine

/-! PROOFS. What no step changes: a flash byte outside the sectors of `T` (R25, R45, R46), CFG (R20, R36), and the direction of
time (R26); the state after reset (R36) and the end of an operation in flight (R32, R199). -/

namespace Sys2Proof.Machine

/-! ### What an operation does, by the kind it is of -/

/-- `t` differs from `s` only in the out-registers, the activation machine, the trace and the counter of the free values: what
`verify_checksum`, an activation event and `resolve` may write (R84, R131 to R135, R150). -/
def OnlyPort (s t : State) : Prop :=
  t = { s with
    apm := t.apm, result := t.result, flag := t.flag, presc := t.presc, tseg1 := t.tseg1, tseg2 := t.tseg2,
    trace := t.trace, freeCount := t.freeCount }

theorem OnlyPort.cfg {s t : State} (h : OnlyPort s t) : t.cfg = s.cfg := by
  unfold OnlyPort at h
  rw [h]

theorem OnlyPort.now {s t : State} (h : OnlyPort s t) : t.now = s.now := by
  unfold OnlyPort at h
  rw [h]

theorem OnlyPort.flash {s t : State} (h : OnlyPort s t) : t.flash = s.flash := by
  unfold OnlyPort at h
  rw [h]

theorem onlyPort_acceptLength (b : Byte) (s : State) : OnlyPort s (acceptLength b s) := by
  unfold acceptLength
  split_ifs <;> rfl

theorem onlyPort_inspect (payload : List Byte) (s : State) : OnlyPort s (inspect payload s) := by
  unfold inspect
  split_ifs <;> rfl

theorem onlyPort_acceptPayload (length : Byte) (startTime : Nat) (payload : List Byte) (b : Byte) (s : State) :
    OnlyPort s (acceptPayload length startTime payload b s) := by
  unfold acceptPayload inspect
  split_ifs <;> rfl

theorem onlyPort_emptyTick (s : State) : OnlyPort s (emptyTick s) := by
  unfold emptyTick
  split
  · rfl
  · split_ifs <;> rfl

theorem execByteReceived_onlyPort {b : Byte} {s t : State} (h : execByteReceived b s = .next t) : OnlyPort s t := by
  obtain ⟨_, rfl⟩ := onTransport_next h
  split
  · exact onlyPort_acceptLength b s
  · exact onlyPort_acceptPayload _ _ _ b s

theorem execVerifyChecksum_onlyPort {s t : State} (h : execVerifyChecksum s = .next t) : OnlyPort s t := by
  obtain ⟨_, h⟩ := configured_next h
  split_ifs at h
  cases h
  rfl

theorem execResolve_onlyPort {clock rate : Word} {s t : State} (h : execResolve clock rate s = .next t) :
    OnlyPort s t := by
  obtain ⟨_, h⟩ := configured_next h
  split at h <;> cases h <;> rfl

/-- The instructions that are engine commands needing an earlier `init` (R86(c)), each with its body (R81 to R83, R85). -/
inductive EngineBody : Instr → (State → Run Unit) → Prop
  | write (address : Address) (bytes : List Byte) :
      EngineBody (.write address bytes) (runWrite address.toNat bytes)
  | erase (address : Address) (length : Word) :
      EngineBody (.erase address length) (runErase address.toNat length.toNat)
  | writeChecksum : EngineBody .writeChecksum runWriteChecksum
  | finalize : EngineBody .finalize runFinalize

/-- Everything an operation that answers a next state does: it writes the port only, or it is `init`, or it is the end of an
engine command's body after `init` has run (R86(c)). -/
theorem exec_next {i : Instr} {s t : State} (h : exec i s = .next t) :
    OnlyPort s t ∨ (i = .init ∧ finish (runInit s) = .next t) ∨
      ∃ body, EngineBody i body ∧ s.initialised = true ∧ finish (body s) = .next t := by
  have engine : ∀ body, EngineBody i body → engineCommand body s = .next t →
      ∃ body, EngineBody i body ∧ s.initialised = true ∧ finish (body s) = .next t :=
    fun body hb h => ⟨body, hb, (engineCommand_next h).2⟩
  cases i with
  | init => exact .inr (.inl ⟨rfl, (configured_next h).2⟩)
  | write address bytes => exact .inr (.inr (engine _ (.write address bytes) h))
  | erase address length => exact .inr (.inr (engine _ (.erase address length) h))
  | writeChecksum => exact .inr (.inr (engine _ .writeChecksum h))
  | finalize => exact .inr (.inr (engine _ .finalize h))
  | verifyChecksum => exact .inl (execVerifyChecksum_onlyPort h)
  | noByteThisTick =>
    obtain ⟨_, h⟩ := configured_next h
    cases h
    exact .inl (onlyPort_emptyTick s)
  | byteReceived b => exact .inl (execByteReceived_onlyPort h)
  | frameReceived payload =>
    obtain ⟨_, rfl⟩ := onTransport_next h
    exact .inl (onlyPort_inspect payload s)
  | resolve clock rate => exact .inl (execResolve_onlyPort h)

/-! ### Flash outside the sectors of `T` (R25, R45, R46) -/

/-- The address lies in a sector of `T`. -/
def inTable (c : Config) (a : Nat) : Prop := (c.sectorOf a).isSome = true

theorem not_inTable {c : Config} {a : Nat} (h : c.sectorOf a = none) : ¬ inTable c a := by simp [inTable, h]

theorem inTable_of_inBlock {c : Config} {B x : Nat} (hB : blockInside c B) (hx : inBlock c B x) : inTable c x := by
  obtain ⟨y, hy, h1, h2⟩ := hB
  exact (c.sectorOf_isSome_iff x).2 ⟨y, hy, h1.trans hx.1, hx.2.trans_le h2⟩

theorem State.Inv.inTable_of_inSlot {s : State} (hs : s.Inv) {S : Slot} {x : Nat} (hx : inSlot s.cfg (s.slot S) x) :
    inTable s.cfg x := by
  obtain ⟨b, hb, hx⟩ := hx
  exact inTable_of_inBlock (hs.slotOk hb).inside hx

theorem inTable_of_inSectors {c : Config} {l : List Sector} (hl : ∀ x ∈ l, x ∈ c.sectors) {a : Nat}
    (ha : inSectors l a) : inTable c a := by
  obtain ⟨x, hx, hxa⟩ := ha
  exact (c.sectorOf_isSome_iff a).2 ⟨x, hl x hx, (x.has_iff a).1 hxa⟩

theorem State.Inv.inTable_of_writeTouches {s : State} (hs : s.Inv) {a n x : Nat} (hc : s.cfg.covered a n = true)
    (hx : writeTouches s.cfg s.generic a n x) : inTable s.cfg x := by
  rcases hx with hx | ⟨i, hi, _, hx⟩
  · exact hs.inTable_of_inSlot (S := .generic) hx
  · have hai := (Config.covered_iff _ _ _).1 hc i hi
    exact inTable_of_inBlock ((Config.wf_clauses hs.config).blockInside_of_sectorOf hai) hx

/-- However the piece ends, flash has changed in the sectors of `T` only, and so it is after the reset that follows where power
was lost. -/
def Run.InTable {α : Type} (s : State) (r : Run α) : Prop :=
  r.Sat (fun _ t => Ended (inTable s.cfg) s t) (fun _ t => Ended (inTable s.cfg) s t)
    (fun _ t => Lost (inTable s.cfg) s t)

theorem Run.InTable.andThen {α β : Type} {s : State} {r : Run α} {k : α → State → Run β} (h : r.InTable s)
    (hk : ∀ a t, Ended (inTable s.cfg) s t → (k a t).InTable t) : (r.andThen k).InTable s := by
  refine Run.Sat.andThen h fun a t ht => ?_
  have hkt := hk a t ht
  rw [Run.InTable, ht.only.cfg] at hkt
  exact hkt.mono (fun _ _ hu => hu.after ht.only ht.time ht.flash) (fun _ _ hu => hu.after ht.only ht.time ht.flash)
    fun _ _ hu => hu.after ht.only ht.time ht.flash

theorem Staged.ended {bytes : List Byte} {a : Nat} {s t : State} (h : Staged bytes a s t) :
    Ended (writeTouches s.cfg s.generic a bytes.length) s t := ⟨h.inv, h.only, h.flash, h.time⟩

theorem Erased.ended {l : List Sector} {s t : State} (h : Erased l s t) : Ended (inSectors l) s t :=
  ⟨h.inv, h.only, h.flash, h.time⟩

theorem Committed.ended {S : Slot} {s t : State} (h : Committed S s t) : Ended (inSlot s.cfg (s.slot S)) s t :=
  ⟨h.inv, h.only, h.flash, h.time⟩

theorem zeroLength_inTable {s : State} (hs : s.Inv) : (zeroLength s).InTable s := by
  unfold zeroLength
  split <;> exact Ended.refl hs _

theorem runWrite_inTable {s : State} (hs : s.Inv) (hi : s.initialised = true) (address : Nat) (bytes : List Byte) :
    (runWrite address bytes s).InTable s := by
  unfold runWrite
  split_ifs
  · exact zeroLength_inTable hs
  · split
    · exact Ended.refl hs _
    · next hv =>
      have hc := covered_of_validateWrite hv
      have hin : ∀ x, writeTouches s.cfg s.generic address bytes.length x → inTable s.cfg x :=
        fun _ => hs.inTable_of_writeTouches hc
      exact (writeLoop_sat bytes _ _ s hs hi hc).mono
        (fun _ _ h => h.ended.mono hin) (fun _ _ h => h.1.mono hin) fun _ _ h => h.mono hin

theorem eraseLoop_inTable {l : List Sector} {s : State} (hs : s.Inv) (hi : s.initialised = true)
    (hl : ∀ x ∈ l, x ∈ s.cfg.sectors) : (eraseLoop l s).InTable s := by
  have hin : ∀ a, inSectors l a → inTable s.cfg a := fun _ => inTable_of_inSectors hl
  exact (eraseLoop_sat l s hs hi hl).mono
    (fun _ _ h => h.ended.mono hin) (fun _ _ h => h.1.mono hin) fun _ _ h => h.mono hin

/-- `erase` drops slots before it starts, which touches no flash byte (R82). -/
theorem ended_dropSlots {s : State} (hs : s.Inv) (hi : s.initialised = true) (kf kl : Nat) (touched : Nat → Prop) :
    Ended touched s (dropSlots kf kl s) :=
  ⟨hs.dropSlots hi kf kl, onlyEngine_dropSlots kf kl s, fun _ _ => by rw [dropSlots_rest], by rw [dropSlots_rest]⟩

theorem runErase_inTable {s : State} (hs : s.Inv) (hi : s.initialised = true) (address length : Nat) :
    (runErase address length s).InTable s := by
  unfold runErase
  split_ifs
  · exact zeroLength_inTable hs
  · split
    · exact Ended.refl hs _
    · next kf kl _ =>
      have hdrop : (Run.ok () (dropSlots kf kl s)).InTable s := ended_dropSlots hs hi kf kl _
      refine hdrop.andThen (k := fun _ => eraseLoop (sectorsBetween s.cfg kf kl)) fun _ t ht => ?_
      refine eraseLoop_inTable ht.inv (ht.only.initialised.trans hi) fun x hx => ?_
      obtain ⟨k, _, _, hk⟩ := mem_sectorsBetween.1 hx
      exact ht.only.cfg ▸ List.mem_of_getElem? hk

theorem runWriteChecksum_inTable {s : State} (hs : s.Inv) (hi : s.initialised = true) :
    (runWriteChecksum s).InTable s := by
  unfold runWriteChecksum
  split
  · exact Ended.refl hs _
  · exact runWrite_inTable hs hi _ _

theorem commitSlot_inTable {s : State} (hs : s.Inv) (hi : s.initialised = true) (S : Slot) :
    (commitSlot S s).InTable s := by
  have hin : ∀ x, inSlot s.cfg (s.slot S) x → inTable s.cfg x := fun _ => hs.inTable_of_inSlot
  exact (commitSlot_sat hs hi).mono
    (fun _ _ h => h.ended.mono hin) (fun _ _ h => h.mono hin) fun _ _ h => h.mono hin

theorem runFinalize_inTable {s : State} (hs : s.Inv) (hi : s.initialised = true) : (runFinalize s).InTable s :=
  (commitSlot_inTable hs hi .generic).andThen fun _ _ ht =>
    commitSlot_inTable ht.inv (ht.only.initialised.trans hi) .boot

theorem EngineBody.inTable {i : Instr} {body : State → Run Unit} (h : EngineBody i body) {s : State} (hs : s.Inv)
    (hi : s.initialised = true) : (body s).InTable s := by
  cases h with
  | write address bytes => exact runWrite_inTable hs hi _ bytes
  | erase address length => exact runErase_inTable hs hi _ _
  | writeChecksum => exact runWriteChecksum_inTable hs hi
  | finalize => exact runFinalize_inTable hs hi

theorem finish_flash_outside {r : Run Unit} {s t : State} (hr : r.InTable s) (h : finish r = .next t) {a : Nat}
    (ha : ¬ inTable s.cfg a) : t.flash.read a = s.flash.read a :=
  finish_sat (P := fun t => t.flash.read a = s.flash.read a) h hr (fun _ hu => hu.flash a ha)
    (fun _ _ hu => hu.flash a ha) fun c _ hu => hu.flash c a ha

theorem exec_flash_outside {i : Instr} {s t : State} (hs : s.Inv) (h : exec i s = .next t) {a : Nat}
    (ha : ¬ inTable s.cfg a) : t.flash.read a = s.flash.read a := by
  rcases exec_next h with h | ⟨_, h⟩ | ⟨body, hbody, hi, h⟩
  · rw [h.flash]
  · cases h; rfl
  · exact finish_flash_outside (hbody.inTable hs hi) h ha

/-- The range of an operation in flight lies in the sectors of `T` (R46), so its end changes no byte outside them. -/
theorem State.Inv.flashSettled_outside {s : State} (hs : s.Inv) (content : List Byte) {a : Nat}
    (ha : ¬ inTable s.cfg a) : (s.flashSettled content).read a = s.flash.read a := by
  refine State.read_flashSettled content fun r hr => ?_
  have hcov := (Config.covered_iff _ _ _).1 (hs.flight r hr).2
  by_contra hin
  have hmem := hcov (a - r.start) (by omega)
  rw [show r.start + (a - r.start) = a by omega] at hmem
  exact ha hmem

/-- Settles O13: every operation ends inside the sectors of `T`, and so does what a reset or the hardware's end of an operation
in flight leaves. -/
theorem flashOutsideTheSectorsIsNeverChanged : Obligations.FlashOutsideTheSectorsIsNeverChanged := by
  intro s t hs h a ha
  have ha := not_inTable ha
  rcases step_next h with rfl | ⟨content, rest, _, rfl⟩ | ⟨status, content, rest, _, rfl⟩ |
    ⟨rest, elapsed, c, i, left, _, h⟩
  · rfl
  · exact hs.flashSettled_outside content ha
  · rw [State.endFlight_flash]
    exact hs.flashSettled_outside content ha
  · exact exec_flash_outside (hs.frame rfl (Nat.le_add_right s.now elapsed)) h ha

/-! ### Relations that hold across every engine command -/

/-- However the piece ends, its end has the property; where power was lost, the state before the reset has it. -/
def Run.Ends {α : Type} (P : State → Prop) (r : Run α) : Prop := r.Sat (fun _ => P) (fun _ => P) (fun _ => P)

/-- A preorder of states that holds across each write of a slot and each physical operation, however it ends: those are all that
the body of an engine command does to the state, `init`'s mark apart. -/
structure EngineRel (R : State → State → Prop) : Prop where
  refl : ∀ s, R s s
  trans : ∀ s t u, R s t → R t u → R s u
  setSlot : ∀ s S b, R s (s.setSlot S b)
  operation : ∀ op s, (physicalOp op s).Ends (R s)

namespace EngineRel

variable {R : State → State → Prop}

theorem from_ends (hR : EngineRel R) {α : Type} {s t : State} {r : Run α} (ht : R s t) (h : r.Ends (R t)) :
    r.Ends (R s) :=
  Run.Sat.mono h (fun _ _ => hR.trans _ _ _ ht) (fun _ _ => hR.trans _ _ _ ht) fun _ _ => hR.trans _ _ _ ht

theorem andThen (hR : EngineRel R) {α β : Type} {s : State} {r : Run α} {k : α → State → Run β} (h : r.Ends (R s))
    (hk : ∀ a t, (k a t).Ends (R t)) : (r.andThen k).Ends (R s) :=
  Run.Sat.andThen h fun a t ht => hR.from_ends ht (hk a t)

theorem programBlock (hR : EngineRel R) (b : WriteBlock) (s : State) : (programBlock b s).Ends (R s) :=
  hR.andThen (hR.operation _ s) fun _ t => by
    unfold readBack
    split_ifs <;> exact hR.refl t

theorem load (hR : EngineRel R) (S : Slot) (B : Nat) (s : State) : (load S B s).Ends (R s) := by
  unfold Machine.load
  split_ifs
  · exact hR.setSlot s S _
  · trivial

theorem nextSlot (hR : EngineRel R) (S : Slot) (B : Nat) (s : State) : (nextSlot S B s).Ends (R s) := by
  unfold Machine.nextSlot
  split_ifs
  · exact hR.refl s
  · rcases target_cases S B s with ⟨_, h⟩ | ⟨b, _, _, h⟩ | ⟨b, _, _, h⟩ <;> rw [h]
    · exact hR.load _ B s
    · exact hR.refl s
    · exact hR.andThen (hR.programBlock b s) fun _ t => hR.load _ B t

theorem stage (hR : EngineRel R) (S : Slot) (a : Nat) (v : Byte) (s : State) : R s (stage S a v s) := by
  unfold Machine.stage
  split
  · exact hR.refl s
  · exact hR.setSlot s S _

theorem writeLoop (hR : EngineRel R) (bytes : List Byte) :
    ∀ (S : Slot) (a : Nat) (s : State), (writeLoop bytes S a s).Ends (R s) := by
  induction bytes with
  | nil => exact fun _ _ s => hR.refl s
  | cons v rest ih =>
    exact fun S a s => hR.andThen (hR.nextSlot S _ s) fun S' t => hR.from_ends (hR.stage S' a v t) (ih S' (a + 1) _)

theorem eraseLoop (hR : EngineRel R) (l : List Sector) : ∀ s : State, (eraseLoop l s).Ends (R s) := by
  induction l with
  | nil => exact fun s => hR.refl s
  | cons x rest ih => exact fun s => hR.andThen (hR.operation (.erase x) s) fun _ t => ih t

theorem dropSlots (hR : EngineRel R) (kf kl : Nat) (s : State) : R s (dropSlots kf kl s) := by
  have hslots : Machine.dropSlots kf kl s = (s.setSlot .generic (Machine.dropSlots kf kl s).generic).setSlot .boot
      (Machine.dropSlots kf kl s).boot := dropSlots_rest kf kl s
  rw [hslots]
  exact hR.trans _ _ _ (hR.setSlot s .generic _) (hR.setSlot _ .boot _)

theorem commitSlot (hR : EngineRel R) (S : Slot) (s : State) : (commitSlot S s).Ends (R s) := by
  unfold Machine.commitSlot
  split
  · exact hR.refl s
  · exact hR.andThen (hR.programBlock _ s) fun _ t => hR.setSlot t S none

theorem zeroLength (hR : EngineRel R) (s : State) : (zeroLength s).Ends (R s) := by
  unfold Machine.zeroLength
  split <;> exact hR.refl s

theorem runWrite (hR : EngineRel R) (address : Nat) (bytes : List Byte) (s : State) :
    (runWrite address bytes s).Ends (R s) := by
  unfold Machine.runWrite
  split_ifs
  · exact hR.zeroLength s
  · split
    · exact hR.refl s
    · exact hR.writeLoop bytes _ address s

theorem runErase (hR : EngineRel R) (address length : Nat) (s : State) : (runErase address length s).Ends (R s) := by
  unfold Machine.runErase
  split_ifs
  · exact hR.zeroLength s
  · split
    · exact hR.refl s
    · exact hR.from_ends (hR.dropSlots _ _ s) (hR.eraseLoop _ _)

theorem runWriteChecksum (hR : EngineRel R) (s : State) : (runWriteChecksum s).Ends (R s) := by
  unfold Machine.runWriteChecksum
  split
  · exact hR.refl s
  · exact hR.runWrite _ _ s

theorem runFinalize (hR : EngineRel R) (s : State) : (runFinalize s).Ends (R s) :=
  hR.andThen (hR.commitSlot .generic s) fun _ t => hR.commitSlot .boot t

theorem engineBody (hR : EngineRel R) {i : Instr} {body : State → Run Unit} (h : EngineBody i body) (s : State) :
    (body s).Ends (R s) := by
  cases h with
  | write address bytes => exact hR.runWrite _ bytes s
  | erase address length => exact hR.runErase _ _ s
  | writeChecksum => exact hR.runWriteChecksum s
  | finalize => exact hR.runFinalize s

end EngineRel

/-! ### CFG and time (R20, R26, R36) -/

/-- `t` is no earlier than `s`, under the same CFG. -/
structure Onward (s t : State) : Prop where
  cfg : t.cfg = s.cfg
  time : s.now ≤ t.now

theorem runDraw_now (op : NvmOp) (d : NvmDraw) (s : State) : (runDraw op d s).Ends fun t => s.now ≤ t.now := by
  have hle : s.now ≤ ((s.clearStatus.startNvm op).completeNvm op d).now := Nat.le_add_right _ _
  unfold runDraw
  cases d.fin with
  | late => exact hle
  | inTime =>
    simp only
    split <;> exact hle

theorem physicalOp_now (op : NvmOp) (s : State) : (physicalOp op s).Ends fun t => s.now ≤ t.now := by
  rcases physicalOp_cases op s with ⟨r, h⟩ | ⟨f, h⟩ | h
  · rw [h]; trivial
  · rw [h]; trivial
  · rw [physicalOp_of_startable h]
    have hnow : s.nextAnswer.2.now = s.now := by rw [nextAnswer_snd]
    rw [← hnow]
    generalize s.nextAnswer = na
    obtain ⟨a, t⟩ := na
    cases a with
    | outcome d => exact runDraw_now op _ t
    | sound d => simp only; split_ifs <;> exact runDraw_now op _ t
    | cutBefore => exact le_rfl
    | cutDuring content => exact le_rfl

theorem Run.Frame.ends_cfg {α : Type} {s : State} {r : Run α} (h : r.Frame s) : r.Ends fun t => t.cfg = s.cfg :=
  Run.Sat.mono h (fun _ _ h => h.cfg) (fun _ _ h => h.cfg) fun _ _ h => h.cfg

theorem Run.Ends.onward {α : Type} {s : State} {r : Run α} (hc : r.Ends fun t => t.cfg = s.cfg)
    (hn : r.Ends fun t => s.now ≤ t.now) : r.Ends (Onward s) := by
  cases r with
  | ok a t => exact ⟨hc, hn⟩
  | raised e t => exact ⟨hc, hn⟩
  | powerLost content t => exact ⟨hc, hn⟩
  | refused r => trivial
  | fault f => trivial

theorem engineRel_onward : EngineRel Onward where
  refl _ := ⟨rfl, le_rfl⟩
  trans _ _ _ h1 h2 := ⟨h2.cfg.trans h1.cfg, h1.time.trans h2.time⟩
  setSlot s S b := ⟨s.setSlot_cfg S b, (s.setSlot_now S b).ge⟩
  operation op s := (physicalOp_frame op s).ends_cfg.onward (physicalOp_now op s)

theorem exec_onward {i : Instr} {s t : State} (h : exec i s = .next t) : Onward s t := by
  rcases exec_next h with h | ⟨_, h⟩ | ⟨body, hbody, _, h⟩
  · exact ⟨h.cfg, h.now.ge⟩
  · cases h; exact ⟨rfl, le_rfl⟩
  · exact finish_sat h (engineRel_onward.engineBody hbody s) (fun _ hu => ⟨hu.cfg, hu.time⟩)
      (fun _ _ hu => ⟨hu.cfg, hu.time⟩) fun _ _ hu => ⟨hu.cfg, hu.time⟩

theorem onward_endFlight (s : State) (status : NvmStatus) (content : List Byte) : Onward s (s.endFlight status content) :=
  ⟨s.endFlight_cfg status content, (s.endFlight_now status content).ge⟩

theorem step_onward {s t : State} (h : step s = .next t) : Onward s t := by
  rcases step_next h with rfl | ⟨content, rest, _, rfl⟩ | ⟨status, content, rest, _, rfl⟩ |
    ⟨rest, elapsed, c, i, left, _, h⟩
  · exact engineRel_onward.refl t
  · exact ⟨rfl, le_rfl⟩
  · have hend := onward_endFlight { s with inbox := rest } status content
    exact ⟨hend.cfg, hend.time⟩
  · have hexec := exec_onward h
    exact ⟨hexec.cfg, (Nat.le_add_right s.now elapsed).trans hexec.time⟩

/-- Settles O11: a reset keeps CFG, and no operation writes it. -/
theorem noStepChangesTheConfiguration : Obligations.NoStepChangesTheConfiguration :=
  fun _ _ h => (step_onward h).cfg

/-- Settles O12: the port adds the milliseconds that pass, a physical operation the drawn duration, and nothing else writes
`now`. -/
theorem timeNeverRunsBackwards : Obligations.TimeNeverRunsBackwards :=
  fun _ _ h => (step_onward h).time

/-! ### Reset, and the end of an operation in flight -/

/-- Settles O8: the five fields of the reset state, evaluated. -/
theorem resetStateIsAsSpecified : Obligations.ResetStateIsAsSpecified :=
  ⟨rfl, rfl, rfl, rfl, rfl⟩

theorem step_nvmDone {s : State} {status : NvmStatus} {content : List Byte} {rest : List PortInput}
    (hw : s.cfg.wf = true) (hin : s.inbox = .nvmDone status content :: rest) :
    step s = .next ({ s with inbox := rest }.endFlight status content) := by
  simp only [step, configured_of_wf hw, takeInput, hin]

theorem State.endFlight_of_flight {s : State} {r : FlashRange} (h : s.inFlight = some r) (status : NvmStatus)
    (content : List Byte) :
    s.endFlight status content =
      { s with
        flash := s.flashSettled content, inFlight := none, nvmStatus := reportedStatus s.nvmStatus status,
        freeCount := s.freeCount + 1 } := by
  simp only [State.endFlight, h]

theorem reportedStatus_eq (sticky status : NvmStatus) :
    reportedStatus sticky status = if status = .fault then .fault else sticky := by
  cases status <;> rfl

/-- Settles O56: the step takes the hardware's report, which settles flash inside the operation's range only. -/
theorem theHardwareEndsAnOperationInFlight : Obligations.TheHardwareEndsAnOperationInFlight := by
  intro s status content r rest hw hr hin
  have hstep := step_nvmDone hw hin
  rw [State.endFlight_of_flight (s := { s with inbox := rest }) hr] at hstep
  refine ⟨_, hstep, rfl, reportedStatus_eq s.nvmStatus status, fun a ha => ?_, rfl⟩
  refine State.read_flashSettled content fun r' hr' => ?_
  cases hr.symm.trans hr'
  exact ha

end Sys2Proof.Machine

/-! PROOFS. What `write` does to the staged view (R48, R81), and which operations program the boot block or change BOOT_RANGE
(R48(c), R103(d)). -/

namespace Sys2Proof.Machine

/-! ### The body of `write` and the staged view (R81) -/

theorem zeroLength_cases (s : State) : zeroLength s = .ok () s ∨ zeroLength s = .raised .outOfRange s := by
  unfold zeroLength
  split
  · exact .inl rfl
  · exact .inr rfl

/-- Everything the body of `write` can do: a request of length zero stages nothing, one that is not valid raises at once, and
any other runs the loop (R81). -/
theorem runWrite_sat {s : State} (hs : s.Inv) (hi : s.initialised = true) (address : Nat) (bytes : List Byte) :
    (runWrite address bytes s).Sat (fun _ t => Staged bytes address s t)
      (fun _ t => Ended (writeTouches s.cfg s.generic address bytes.length) s t ∧ t.bootPrograms ≤ s.bootPrograms)
      (fun _ t => Lost (writeTouches s.cfg s.generic address bytes.length) s t) := by
  unfold runWrite
  split_ifs with hlen
  · obtain rfl := List.eq_nil_of_length_eq_zero hlen
    rcases zeroLength_cases s with h | h <;> rw [h]
    · exact ⟨hs, OnlyEngine.refl s, by simp, fun _ _ => rfl, le_rfl, le_rfl⟩
    · exact ⟨Ended.refl hs _, le_rfl⟩
  · split
    · exact ⟨Ended.refl hs _, le_rfl⟩
    · next hv => exact writeLoop_sat bytes _ address s hs hi (covered_of_validateWrite hv)

theorem State.view_answer (s : State) (v : BitVec 8) (a : Nat) : (s.answer v).view a = s.view a := rfl

/-- A command that answers Ok with `init` still marked ran its body to the end: every error has a code of its own, and a loss of
power clears the mark. -/
theorem finish_answersOk {r : Run Unit} {t : State} (h : finish r = .next t) (hi : t.initialised = true)
    (hok : t.result = 0) : ∃ u, r = .ok () u ∧ t = u.answer codeOk := by
  rcases finish_next h with hend | ⟨e, u, _, rfl⟩ | ⟨c, u, _, rfl⟩
  · exact hend
  · exact absurd hok e.code_ne_ok
  · exact absurd hi (by simp)

/-- Settles O26: the answer is Ok only where the loop went on to its end, and there every byte is staged. -/
theorem writeUpdatesTheStagedView : Obligations.WriteUpdatesTheStagedView := by
  intro s t address bytes hs h hti hok a
  obtain ⟨_, hi, h⟩ := engineCommand_next h
  obtain ⟨u, hrun, rfl⟩ := finish_answersOk h hti hok
  have hstaged := runWrite_sat hs hi address.toNat bytes
  rw [hrun] at hstaged
  exact (u.view_answer codeOk a).trans (hstaged.view a)

/-! ### The boot block (R48(c), R103(d)) -/

/-- From `s` to `t` no program of the boot block was started and BOOT_RANGE was not changed. -/
structure SparesBoot (s t : State) : Prop where
  boots : t.bootPrograms ≤ s.bootPrograms
  flash : ∀ a, inBootRange s.cfg a → t.flash.read a = s.flash.read a

theorem bootPrograms_powerReset (s : State) (content : List Byte) : (s.powerReset content).bootPrograms = 0 := rfl

theorem State.bootPrograms_eq_count_physical (s : State) :
    s.bootPrograms = s.physical.count (.program (BitVec.ofNat 32 s.cfg.bootBase)) :=
  (List.count_filter rfl).symm

/-! ### The port's operations and `init` start no operation -/

@[simp] theorem physical_fireTrigger (s : State) : s.fireTrigger.physical = s.physical := by
  simp [State.physical, Event.isPhysical]

theorem physical_inspect (payload : List Byte) (s : State) : (inspect payload s).physical = s.physical := by
  unfold inspect
  split_ifs
  · exact physical_fireTrigger s
  · rfl

theorem physical_acceptLength (b : Byte) (s : State) : (acceptLength b s).physical = s.physical := by
  unfold acceptLength
  split_ifs <;> rfl

theorem physical_acceptPayload (length : Byte) (startTime : Nat) (payload : List Byte) (b : Byte) (s : State) :
    (acceptPayload length startTime payload b s).physical = s.physical := by
  unfold acceptPayload
  split_ifs
  · exact physical_inspect (payload ++ [b]) s
  · rfl

theorem physical_emptyTick (s : State) : (emptyTick s).physical = s.physical := by
  unfold emptyTick
  split
  · rfl
  · split_ifs <;> rfl

/-- An operation starts a physical operation only as an engine command that needs an earlier `init`. -/
theorem exec_physical {i : Instr} {s t : State} (h : exec i s = .next t) :
    t.physical = s.physical ∨ ∃ body, EngineBody i body ∧ s.initialised = true ∧ finish (body s) = .next t := by
  cases i with
  | init =>
    obtain ⟨_, h⟩ := configured_next h
    cases h
    exact .inl rfl
  | write address bytes => exact .inr ⟨_, .write address bytes, (engineCommand_next h).2⟩
  | erase address length => exact .inr ⟨_, .erase address length, (engineCommand_next h).2⟩
  | writeChecksum => exact .inr ⟨_, .writeChecksum, (engineCommand_next h).2⟩
  | finalize => exact .inr ⟨_, .finalize, (engineCommand_next h).2⟩
  | verifyChecksum =>
    obtain ⟨_, h⟩ := configured_next h
    split_ifs at h
    cases h
    exact .inl rfl
  | noByteThisTick =>
    obtain ⟨_, h⟩ := configured_next h
    cases h
    exact .inl (physical_emptyTick s)
  | byteReceived b =>
    obtain ⟨_, rfl⟩ := onTransport_next h
    left
    split
    · exact physical_acceptLength b s
    · exact physical_acceptPayload _ _ _ b s
  | frameReceived payload =>
    obtain ⟨_, rfl⟩ := onTransport_next h
    exact .inl (physical_inspect payload s)
  | resolve clock rate =>
    obtain ⟨_, h⟩ := configured_next h
    split at h <;> cases h <;> exact .inl rfl

/-- Without a physical operation and a change of flash the boot block is spared. -/
theorem sparesBoot_of_physical {s t : State} (hc : t.cfg = s.cfg) (hf : t.flash = s.flash)
    (hp : t.physical = s.physical) : SparesBoot s t := by
  refine ⟨?_, fun _ _ => by rw [hf]⟩
  rw [t.bootPrograms_eq_count_physical, s.bootPrograms_eq_count_physical, hp, hc]

theorem exec_sparesBoot_or_engine {i : Instr} {s t : State} (h : exec i s = .next t) :
    SparesBoot s t ∨ ∃ body, EngineBody i body ∧ s.initialised = true ∧ finish (body s) = .next t := by
  rcases exec_next h with hport | ⟨_, hinit⟩ | hengine
  · exact (exec_physical h).imp (sparesBoot_of_physical hport.cfg hport.flash) id
  · cases hinit
    exact .inl ⟨le_rfl, fun _ _ => rfl⟩
  · exact .inr hengine

/-! ### The engine's commands but `finalize` -/

/-- The generic slot never holds the boot block (R23), and a `write` programs generic blocks only (R103). -/
theorem State.Inv.not_inBootRange_of_writeTouches {s : State} (hs : s.Inv) {a n x : Nat}
    (h : writeTouches s.cfg s.generic a n x) : ¬ inBootRange s.cfg x := by
  have w := Config.wf_clauses hs.config
  intro hx
  rcases h with ⟨b, hb, hin⟩ | ⟨i, _, hne, hin⟩
  · obtain ⟨hok, hne⟩ := hs.generic b hb
    exact hne (w.block_unique hok.aligned w.bootBase_mod hin hx)
  · exact hne (w.block_unique (w.blockBase_mod _) w.bootBase_mod hin hx)

/-- However the command that ends with this piece ends, the boot block was spared. -/
def Run.SparesBoot (s : State) (r : Run Unit) : Prop :=
  r.Sat (fun _ t => Machine.SparesBoot s t) (fun _ t => Machine.SparesBoot s t)
    fun content t => Machine.SparesBoot s (t.powerReset content)

theorem finish_sparesBoot {r : Run Unit} {s t : State} (hr : r.SparesBoot s) (h : finish r = .next t) : SparesBoot s t :=
  finish_sat h hr (fun _ hu => ⟨hu.boots, hu.flash⟩) (fun _ _ hu => ⟨hu.boots, hu.flash⟩) fun _ _ hu => hu

theorem runWrite_sparesBoot {s : State} (hs : s.Inv) (hi : s.initialised = true) (address : Nat) (bytes : List Byte) :
    (runWrite address bytes s).SparesBoot s := by
  have hout : ∀ a, inBootRange s.cfg a → ¬ writeTouches s.cfg s.generic address bytes.length a :=
    fun a ha h => hs.not_inBootRange_of_writeTouches h ha
  refine (runWrite_sat hs hi address bytes).mono ?_ ?_ ?_
  · exact fun _ t h => ⟨h.boots, fun a ha => h.flash a (hout a ha)⟩
  · exact fun _ t ⟨h, hboots⟩ => ⟨hboots, fun a ha => h.flash a (hout a ha)⟩
  · exact fun content t h => ⟨Nat.zero_le _, fun a ha => h.flash content a (hout a ha)⟩

theorem runWriteChecksum_sparesBoot {s : State} (hs : s.Inv) (hi : s.initialised = true) :
    (runWriteChecksum s).SparesBoot s := by
  unfold runWriteChecksum
  split
  · exact ⟨le_rfl, fun _ _ => rfl⟩
  · exact runWrite_sparesBoot hs hi _ _

/-- `erase` may clear BOOT_RANGE, but it programs nothing (R82, R106). -/
theorem runErase_bootPrograms {s : State} (hs : s.Inv) (hi : s.initialised = true) (address length : Nat) :
    (runErase address length s).Sat (fun _ t => t.bootPrograms ≤ s.bootPrograms)
      (fun _ t => t.bootPrograms ≤ s.bootPrograms) fun _ _ => True := by
  unfold runErase
  split_ifs
  · rcases zeroLength_cases s with h | h <;> rw [h] <;> exact le_rfl
  · split
    · exact le_rfl
    · next kf kl _ =>
      have ho := onlyEngine_dropSlots kf kl s
      have hdrop : (dropSlots kf kl s).bootPrograms = s.bootPrograms := by rw [dropSlots_rest]; rfl
      rw [← hdrop]
      refine (eraseLoop_sat _ _ (hs.dropSlots hi kf kl) (ho.initialised.trans hi) fun x hx => ?_).mono
        (fun _ _ h => h.boots.le) (fun _ _ h => h.2.2.2.le) fun _ _ _ => trivial
      obtain ⟨k, _, _, hk⟩ := mem_sectorsBetween.1 hx
      exact ho.cfg ▸ List.mem_of_getElem? hk

theorem finish_bootPrograms {r : Run Unit} {s t : State}
    (hr : r.Sat (fun _ t => t.bootPrograms ≤ s.bootPrograms) (fun _ t => t.bootPrograms ≤ s.bootPrograms) fun _ _ => True)
    (h : finish r = .next t) : t.bootPrograms ≤ s.bootPrograms :=
  finish_sat (P := fun t => t.bootPrograms ≤ s.bootPrograms) h hr (fun _ hu => hu) (fun _ _ hu => hu)
    fun c u _ => by rw [bootPrograms_powerReset]; exact Nat.zero_le _

/-- Settles O14: `write` and `write_checksum` reach flash only in generic blocks, `erase` programs nothing, and the operations
that are no engine command start no physical operation. -/
theorem onlyFinalizeCommitsTheBootBlock : Obligations.OnlyFinalizeCommitsTheBootBlock := by
  intro s t i hs hne h
  have spared : SparesBoot s t → t.bootPrograms ≤ s.bootPrograms ∧
      ((∀ address length, i ≠ .erase address length) → ∀ a, inBootRange s.cfg a → t.flash.read a = s.flash.read a) :=
    fun hb => ⟨hb.boots, fun _ => hb.flash⟩
  rcases exec_sparesBoot_or_engine h with hport | ⟨body, hbody, hi, h⟩
  · exact spared hport
  · cases hbody with
    | write address bytes => exact spared (finish_sparesBoot (runWrite_sparesBoot hs hi _ bytes) h)
    | erase address length =>
      exact ⟨finish_bootPrograms (runErase_bootPrograms hs hi _ _) h, fun herase => absurd rfl (herase address length)⟩
    | writeChecksum => exact spared (finish_sparesBoot (runWriteChecksum_sparesBoot hs hi) h)
    | finalize => exact absurd rfl hne

end Sys2Proof.Machine

/-! PROOFS. The command port's decoder and encoder (R61 to R65): the fields of a command word, the rows of the opcode map by
those fields, the decoder's answer said once, and the statements that decode and encode agree and which words are illegal
(R67). -/

namespace Sys2Proof

open Laws (opOf)

/-! ### The fields of a command word (R61) -/

/-- A command word is its three fields, the reserved half first. -/
theorem commandWord_of_fields (cw : Word) : reservedOf cw ++ arg8Of cw ++ opcOf cw = cw := by
  have hhigh : reservedOf cw ++ arg8Of cw = cw.extractLsb' 8 24 :=
    BitVec.extractLsb'_append_extractLsb'_eq_extractLsb' rfl
  have hall : cw.extractLsb' 8 24 ++ opcOf cw = cw.extractLsb' 0 32 :=
    BitVec.extractLsb'_append_extractLsb'_eq_extractLsb' rfl
  rw [hhigh, hall, BitVec.extractLsb'_eq_self]

theorem word_eq_iff_fields {v w : Word} :
    v = w ↔ reservedOf v = reservedOf w ∧ arg8Of v = arg8Of w ∧ opcOf v = opcOf w := by
  constructor
  · rintro rfl
    exact ⟨rfl, rfl, rfl⟩
  · rintro ⟨hr, ha, ho⟩
    rw [← commandWord_of_fields v, hr, ha, ho, commandWord_of_fields]

@[simp] theorem reservedOf_commandWord (opc arg8 : Byte) : reservedOf (commandWord opc arg8) = 0 := by
  rw [reservedOf, commandWord, BitVec.extractLsb'_append_eq_of_le (by decide),
    BitVec.extractLsb'_append_eq_of_le (by decide), BitVec.extractLsb'_eq_self]

@[simp] theorem arg8Of_commandWord (opc arg8 : Byte) : arg8Of (commandWord opc arg8) = arg8 := by
  rw [arg8Of, commandWord, BitVec.extractLsb'_append_eq_of_le (by decide),
    BitVec.extractLsb'_append_eq_of_add_le (by decide), BitVec.extractLsb'_eq_self]

@[simp] theorem opcOf_commandWord (opc arg8 : Byte) : opcOf (commandWord opc arg8) = opc := by
  rw [opcOf, commandWord, BitVec.extractLsb'_append_eq_of_add_le (by decide), BitVec.extractLsb'_eq_self]

/-! The mask of formats B and F clears ARG8 and keeps the other two fields. -/

@[simp] theorem reservedOf_and_mask (cw : Word) : reservedOf (cw &&& 0xFFFF00FF#32) = reservedOf cw := by
  have hmask : (0xFFFF00FF#32).extractLsb' 16 16 = BitVec.allOnes 16 := by decide
  rw [reservedOf, BitVec.extractLsb'_and, hmask, BitVec.and_allOnes, reservedOf]

@[simp] theorem arg8Of_and_mask (cw : Word) : arg8Of (cw &&& 0xFFFF00FF#32) = 0 := by
  have hmask : (0xFFFF00FF#32).extractLsb' 8 8 = 0 := by decide
  rw [arg8Of, BitVec.extractLsb'_and, hmask]
  exact BitVec.and_zero

@[simp] theorem opcOf_and_mask (cw : Word) : opcOf (cw &&& 0xFFFF00FF#32) = opcOf cw := by
  have hmask : (0xFFFF00FF#32).extractLsb' 0 8 = BitVec.allOnes 8 := by decide
  rw [opcOf, BitVec.extractLsb'_and, hmask, BitVec.and_allOnes, opcOf]

/-! ### The rows of the opcode map, by the fields of the word (R62, R64) -/

/-- The OPC of an operation's row (R64). -/
def Op.opcode : Op → Byte
  | .init => 0x01
  | .write => 0x02
  | .erase => 0x03
  | .writeChecksum => 0x04
  | .verifyChecksum => 0x05
  | .finalize => 0x06
  | .noByteThisTick => 0x10
  | .byteReceived => 0x11
  | .frameReceived => 0x12
  | .resolve => 0x20

/-- The operation's format is B or F, the two that have ARG8 (R62). -/
def Op.hasArg8 (op : Op) : Bool := decide (op = .byteReceived ∨ op = .frameReceived)

/-- The word is one the operation's row stands for: its OPC, nothing in the reserved half, and ARG8 only in the formats that
have it (R61, R62, R64). -/
structure Op.Fits (op : Op) (cw : Word) : Prop where
  opc : opcOf cw = op.opcode
  reserved : reservedOf cw = 0
  arg8 : op.hasArg8 = false → arg8Of cw = 0

/-- The opcode map as formats: a row fixes every bit of the word but, in the formats that have it, ARG8. -/
theorem opcodeTable_rows : ∀ r ∈ opcodeTable,
    r.pattern = commandWord r.op.opcode 0 ∧ r.mask = if r.op.hasArg8 then 0xFFFF00FF else BitVec.allOnes 32 := by
  decide

theorem exists_row (op : Op) : ∃ r ∈ opcodeTable, r.op = op := by cases op <;> decide

theorem Op.opcode_injective : ∀ {op op' : Op}, op.opcode = op'.opcode → op = op' := by
  intro op op'
  cases op <;> cases op' <;> decide

/-- To match a row under its mask is to fit it, field by field. -/
theorem row_matches_iff_fits {r : OpcodeRow} (hr : r ∈ opcodeTable) (cw : Word) :
    cw &&& r.mask = r.pattern ↔ r.op.Fits cw := by
  obtain ⟨hpattern, hmask⟩ := opcodeTable_rows r hr
  have hfits : r.op.Fits cw ↔ reservedOf cw = 0 ∧ (r.op.hasArg8 = false → arg8Of cw = 0) ∧ opcOf cw = r.op.opcode :=
    ⟨fun ⟨ho, hres, ha⟩ => ⟨hres, ha, ho⟩, fun ⟨hres, ha, ho⟩ => ⟨ho, hres, ha⟩⟩
  rw [hfits, hpattern, hmask, word_eq_iff_fields, reservedOf_commandWord, arg8Of_commandWord, opcOf_commandWord]
  cases r.op.hasArg8 with
  | true => simp
  | false =>
    rw [if_neg Bool.false_ne_true, BitVec.and_allOnes]
    simp

theorem findOp_eq_some_iff {cw : Word} {op : Op} : findOp cw = some op ↔ op.Fits cw := by
  constructor
  · intro h
    obtain ⟨r, hfind, rfl⟩ := Option.map_eq_some_iff.1 h
    exact (row_matches_iff_fits (List.mem_of_find?_eq_some hfind) cw).1 (by simpa using List.find?_some hfind)
  · intro h
    obtain ⟨r, hr, rfl⟩ := exists_row op
    obtain ⟨r', hfind⟩ : ∃ r', (opcodeTable.find? fun r => cw &&& r.mask == r.pattern) = some r' :=
      Option.isSome_iff_exists.1 (List.find?_isSome.2 ⟨r, hr, by simpa using (row_matches_iff_fits hr cw).2 h⟩)
    have hfits := (row_matches_iff_fits (List.mem_of_find?_eq_some hfind) cw).1 (by simpa using List.find?_some hfind)
    rw [findOp, hfind, Option.map_some, Op.opcode_injective (hfits.opc.symm.trans h.opc)]

/-! ### What the decoder accepts (R63, R65) -/

theorem takeData_eq_some_iff {n : Nat} {stream bytes rest : List Byte} :
    takeData n stream = some (bytes, rest) ↔ bytes.length = n ∧ bytes ++ rest = stream := by
  unfold takeData
  constructor
  · intro h
    split_ifs at h with hn
    cases h
    exact ⟨List.length_take_of_le hn, List.take_append_drop n stream⟩
  · rintro ⟨rfl, rfl⟩
    simp

/-- Everything the decoder accepts: a word some row stands for, with the bytes its format names at the head of the stream. -/
theorem decode_eq_ok_iff {c : PortCommand} {i : Instr} {rest : List Byte} :
    decode c = .ok (i, rest) ↔
      ∃ op bytes, op.Fits c.cw ∧ bytes.length = dataCount op c.cw c.len ∧ bytes ++ rest = c.data ∧
        assemble op c.cw c.addr c.len bytes = i := by
  constructor
  · intro h
    unfold decode at h
    split at h
    · cases h
    · next op hop =>
      split at h
      · cases h
      · next bytes left htake =>
        cases h
        obtain ⟨hlen, hdata⟩ := takeData_eq_some_iff.1 htake
        exact ⟨op, bytes, findOp_eq_some_iff.1 hop, hlen, hdata, rfl⟩
  · rintro ⟨op, bytes, hfits, hlen, hdata, rfl⟩
    simp only [decode, findOp_eq_some_iff.2 hfits, takeData_eq_some_iff.2 ⟨hlen, hdata⟩]

/-! ### Decoding what the encoder presents -/

theorem uniqueRow (i : Instr) : Laws.UniqueRow.Statement i := by
  cases i with
  | init => exact Laws.UniqueRow.init
  | write address data => exact Laws.UniqueRow.write address data
  | erase address length => exact Laws.UniqueRow.erase address length
  | writeChecksum => exact Laws.UniqueRow.writeChecksum
  | verifyChecksum => exact Laws.UniqueRow.verifyChecksum
  | finalize => exact Laws.UniqueRow.finalize
  | noByteThisTick => exact Laws.UniqueRow.noByteThisTick
  | byteReceived b => exact Laws.UniqueRow.byteReceived b
  | frameReceived payload => exact Laws.UniqueRow.frameReceived payload
  | resolve clock rate => exact Laws.UniqueRow.resolve clock rate

theorem fits_encode (i : Instr) : (opOf i).Fits (encode i).cw := by
  obtain ⟨r, hr, hop⟩ := exists_row (opOf i)
  rw [← hop, ← row_matches_iff_fits hr]
  exact (uniqueRow i r hr).2 hop

theorem length_data_encode {i : Instr} (h : i.wellFormed = true) :
    (encode i).data.length = dataCount (opOf i) (encode i).cw (encode i).len := by
  cases i with
  | write address data =>
    have hlen : data.length < 2 ^ 32 := of_decide_eq_true h
    exact (Nat.mod_eq_of_lt hlen).symm
  | frameReceived payload =>
    have hlen : (payload.take 255).length < 2 ^ 8 := (List.length_take_le 255 payload).trans_lt (by decide)
    simp only [encode, opOf, dataCount, arg8Of_commandWord, BitVec.toNat_ofNat]
    exact (Nat.mod_eq_of_lt hlen).symm
  | _ => rfl

theorem assemble_encode {i : Instr} (h : i.wellFormed = true) :
    assemble (opOf i) (encode i).cw (encode i).addr (encode i).len (encode i).data = i := by
  cases i with
  | byteReceived b => exact congrArg Instr.byteReceived (arg8Of_commandWord 0x11 b)
  | frameReceived payload =>
    have hlen : payload.length < 2 ^ 8 := of_decide_eq_true h
    exact congrArg Instr.frameReceived (List.take_of_length_le (by omega))
  | _ => rfl

/-- Settles O1: the encoder's word fits the instruction's row, and the bytes that row names are the encoder's data. -/
theorem decodeOfEncodeIsTheInstruction : Obligations.DecodeOfEncodeIsTheInstruction := by
  intro i rest h
  exact decode_eq_ok_iff.2 ⟨opOf i, (encode i).data, fits_encode i, length_data_encode h, rfl, assemble_encode h⟩

/-! ### Encoding what the decoder accepts -/

/-- ARG8 of the command the encoder presents (R62). -/
def Instr.arg8 : Instr → Byte
  | .byteReceived b => b
  | .frameReceived payload => BitVec.ofNat 8 (payload.take 255).length
  | _ => 0

theorem encode_cw (i : Instr) : (encode i).cw = commandWord (opOf i).opcode i.arg8 := by cases i <;> rfl

theorem opOf_assemble (op : Op) (cw addr len : Word) (bytes : List Byte) :
    opOf (assemble op cw addr len bytes) = op := by
  cases op <;> rfl

section assemble

variable {op : Op} {cw len : Word} {bytes : List Byte}

/-- The bytes of a frame fit ARG8. -/
theorem take_255_of_length_eq_arg8 (h : bytes.length = (arg8Of cw).toNat) : bytes.take 255 = bytes :=
  List.take_of_length_le (by have := (arg8Of cw).isLt; omega)

theorem wellFormed_assemble (addr : Word) (h : bytes.length = dataCount op cw len) :
    (assemble op cw addr len bytes).wellFormed = true := by
  cases op with
  | write => exact decide_eq_true (h.trans_lt len.isLt)
  | frameReceived => exact decide_eq_true (h.trans_lt (arg8Of cw).isLt)
  | _ => rfl

theorem arg8_assemble (addr : Word) (hfits : op.Fits cw) (h : bytes.length = dataCount op cw len) :
    (assemble op cw addr len bytes).arg8 = arg8Of cw := by
  cases op with
  | byteReceived => rfl
  | frameReceived =>
    have hlen : bytes.length = (arg8Of cw).toNat := h
    rw [assemble, Instr.arg8, take_255_of_length_eq_arg8 hlen, hlen, BitVec.ofNat_toNat, BitVec.setWidth_eq]
  | _ => exact (hfits.arg8 rfl).symm

theorem cw_encode_assemble (addr : Word) (hfits : op.Fits cw) (h : bytes.length = dataCount op cw len) :
    (encode (assemble op cw addr len bytes)).cw = cw := by
  rw [encode_cw, opOf_assemble, arg8_assemble addr hfits h, word_eq_iff_fields]
  simp [hfits.opc, hfits.reserved]

theorem data_encode_assemble (addr : Word) (h : bytes.length = dataCount op cw len) :
    (encode (assemble op cw addr len bytes)).data = bytes := by
  cases op with
  | write => rfl
  | frameReceived => exact take_255_of_length_eq_arg8 h
  | _ => exact (List.eq_nil_of_length_eq_zero h).symm

theorem addr_len_encode_assemble (addr : Word) (h : bytes.length = dataCount op cw len)
    (huses : Machine.usesAddrLen (assemble op cw addr len bytes) = true) :
    (encode (assemble op cw addr len bytes)).addr = addr ∧ (encode (assemble op cw addr len bytes)).len = len := by
  cases op with
  | write =>
    have hlen : bytes.length = len.toNat := h
    exact ⟨rfl, by rw [assemble, encode, hlen, BitVec.ofNat_toNat, BitVec.setWidth_eq]⟩
  | erase => exact ⟨rfl, rfl⟩
  | resolve => exact ⟨rfl, rfl⟩
  | _ => cases huses

end assemble

/-- Settles O2: what the decoder accepts is assembled from a word that fits its row and from the bytes that row names. -/
theorem decodedCommandEncodesBack : Obligations.DecodedCommandEncodesBack := by
  intro c i rest h
  obtain ⟨op, bytes, hfits, hlen, hdata, rfl⟩ := decode_eq_ok_iff.1 h
  exact ⟨wellFormed_assemble c.addr hlen, cw_encode_assemble c.addr hfits hlen,
    by rw [data_encode_assemble c.addr hlen, hdata], addr_len_encode_assemble c.addr hlen⟩

/-! ### Illegal command words (R67) -/

theorem decode_eq_illegalWord_iff (c : PortCommand) : decode c = .error .illegalWord ↔ findOp c.cw = none := by
  unfold decode
  cases findOp c.cw with
  | none => simp
  | some op =>
    simp only [reduceCtorEq, iff_false]
    split <;> simp

/-- The OPCs of the table of R64, in its order. -/
def opcodes : List Byte := opcodeTable.map (·.op.opcode)

theorem opcodes_eq : opcodes = [0x01, 0x02, 0x03, 0x04, 0x05, 0x06, 0x10, 0x11, 0x12, 0x20] := rfl

theorem mem_opcodes_iff (opc : Byte) : opc ∈ opcodes ↔ ∃ op : Op, op.opcode = opc := by
  rw [opcodes, List.mem_map]
  constructor
  · rintro ⟨r, _, rfl⟩
    exact ⟨r.op, rfl⟩
  · rintro ⟨op, rfl⟩
    obtain ⟨r, hr, rfl⟩ := exists_row op
    exact ⟨r, hr, rfl⟩

theorem Op.hasArg8_eq_false_iff (op : Op) : op.hasArg8 = false ↔ op.opcode ≠ 0x11 ∧ op.opcode ≠ 0x12 := by
  cases op <;> decide

/-- R67's three conditions fail together exactly where the word fits a row. -/
theorem exists_fits_iff (cw : Word) : (∃ op : Op, op.Fits cw) ↔
    opcOf cw ∈ opcodes ∧ reservedOf cw = 0 ∧ (opcOf cw ≠ 0x11 ∧ opcOf cw ≠ 0x12 → arg8Of cw = 0) := by
  rw [mem_opcodes_iff]
  constructor
  · rintro ⟨op, hopc, hres, harg⟩
    rw [hopc, ← op.hasArg8_eq_false_iff]
    exact ⟨⟨op, rfl⟩, hres, harg⟩
  · rintro ⟨⟨op, hopc⟩, hres, harg⟩
    rw [← hopc, ← op.hasArg8_eq_false_iff] at harg
    exact ⟨op, hopc.symm, hres, harg⟩

theorem decode_illegalWord_iff_not_fits {c : PortCommand} :
    decode c = .error .illegalWord ↔ ¬ ∃ op : Op, op.Fits c.cw := by
  simp only [decode_eq_illegalWord_iff, Option.eq_none_iff_forall_ne_some, ne_eq, findOp_eq_some_iff, not_exists]

namespace Machine

/-- Whether a word is illegal depends on CW only, not on the bytes that wait on the stream. -/
theorem takeInput_illegalWord {s : State} {elapsed : Nat} {c : PortCommand} {rest : List PortInput}
    (hin : s.inbox = .command elapsed c :: rest) (hdec : decode c = .error .illegalWord) :
    takeInput s = .illegal .illegalWord := by
  have hlatched : decode { c with data := s.data ++ c.data } = .error .illegalWord :=
    (decode_eq_illegalWord_iff _).2 ((decode_eq_illegalWord_iff c).1 hdec)
  simp [takeInput, hin, hlatched, State.latch]

theorem step_illegalWord {s : State} {elapsed : Nat} {c : PortCommand} {rest : List PortInput} (hw : s.cfg.wf = true)
    (hin : s.inbox = .command elapsed c :: rest) (hdec : decode c = .error .illegalWord) :
    step s = .refused (.illegalCommand .illegalWord) := by
  rw [step, configured_of_wf hw, takeInput_illegalWord hin hdec]

end Machine

/-- Settles O3: a word is illegal exactly where it fits no row; under a CFG that is not well formed R9 refuses the step. -/
theorem illegalCommandWordsAreRefused : Obligations.IllegalCommandWordsAreRefused := by
  intro c
  refine ⟨?_, fun s elapsed rest hin hdec => ⟨fun hw => Machine.step_illegalWord hw hin hdec, ?_⟩⟩
  · rw [decode_illegalWord_iff_not_fits, exists_fits_iff, ← opcodes_eq]
    tauto
  · cases hw : s.cfg.wf with
    | true => exact ⟨_, Machine.step_illegalWord hw hin hdec⟩
    | false => exact ⟨_, Machine.step_of_not_wf hw⟩

/-- Settles O4: ten commands, one for each row of the table, evaluated. -/
theorem tableWordsDecodeToTheirOperations : Obligations.TableWordsDecodeToTheirOperations :=
  ⟨rfl, rfl, rfl, rfl, rfl, rfl, rfl, rfl, rfl, rfl⟩

end Sys2Proof

/-! PROOFS. The activation machine (R130 to R139): the events each transport kind allows (R68), what one presented byte does, and
the run of a whole packet. -/

namespace Sys2Proof.Machine

/-! ### The transport kind (R68) -/

theorem onTransport_of_kind {kind : TransportKind} {s : State} (hw : s.cfg.wf = true) (hk : s.cfg.transportKind = kind)
    (t : State) : onTransport kind s t = .next t := by
  rw [onTransport, configured_of_wf hw, if_pos hk]

theorem onTransport_of_ne {kind : TransportKind} {s : State} (hw : s.cfg.wf = true) (hk : s.cfg.transportKind ≠ kind)
    (t : State) : onTransport kind s t = .refused .wrongTransport := by
  rw [onTransport, configured_of_wf hw, if_neg hk]

theorem execResolve_answers {s : State} (hw : s.cfg.wf = true) (clock rate : Word) :
    ∃ t, execResolve clock rate s = .next t := by
  rw [execResolve, configured_of_wf hw]
  split
  · exact ⟨_, rfl⟩
  · exact ⟨_, rfl⟩

/-- Settles O51: the two events that only one transport kind delivers are tested for it, the other two are not. -/
theorem eventsOfTheOtherTransportAreRefused : Obligations.EventsOfTheOtherTransportAreRefused := by
  intro s hw
  refine ⟨fun hframe b => ?_, fun hstream p => ?_, ?_, fun clock rate => execResolve_answers hw clock rate⟩
  · exact onTransport_of_ne hw (by simp [hframe]) _
  · exact onTransport_of_ne hw (by simp [hstream]) _
  · exact ⟨emptyTick s, configured_of_wf hw _⟩

/-! ### A complete payload (R136, R137) -/

theorem matchConnect_iff (c : Config) (payload : List Byte) :
    matchConnect c payload = true ↔ 2 ≤ payload.length ∧ payload.take 2 = [c.sig0, c.sig1] := by
  match payload with
  | [] => simp [matchConnect]
  | [_] => simp [matchConnect]
  | b0 :: b1 :: _ => simp [matchConnect]

/-- A complete payload writes RESULT, FLAG and, where it is CONNECT, one event of the trace (R136, R137). -/
theorem inspect_eq (payload : List Byte) (s : State) :
    inspect payload s =
      { s with
        result := 0
        flag := matchConnect s.cfg payload
        trace := s.trace ++ (if matchConnect s.cfg payload then [.trigger] else []) } := by
  unfold inspect
  cases matchConnect s.cfg payload with
  | true => rfl
  | false => simp [State.setEventFlags, State.setResult, State.setFlag, codeOk]

/-! ### One presented byte (R131, R132) -/

/-- The state in which a byte is handled: the tick's time has passed, the registers hold the byte's command, and its event is no
longer to come (R31, R130). A byte's command brings nothing on the DATA stream. -/
def State.latchByte (s : State) (elapsed : Nat) (b : Byte) (rest : List PortInput) : State :=
  { s with
    inbox := rest, now := s.now + elapsed, cw := (encode (.byteReceived b)).cw, addr := 0, len := 0, data := [] }

/-- The state after a byte that completes no packet: `apm` is what the machine then is in, and FLAG and RESULT are 0 (R131,
R132). -/
def State.afterByte (s : State) (elapsed : Nat) (b : Byte) (rest : List PortInput) (apm : ApmState) : State :=
  { (s.latchByte elapsed b rest).setEventFlags false with apm := apm }

/-- A byte presented with nothing before it on the DATA stream is the next operation (R65). -/
theorem step_byte {s : State} {elapsed : Nat} {b : Byte} {rest : List PortInput} (hdata : s.data = [])
    (hin : s.inbox = .command elapsed (encode (.byteReceived b)) :: rest) :
    step s = execByteReceived b (s.latchByte elapsed b rest) := by
  have hdec : decode { encode (.byteReceived b) with data := s.data ++ (encode (.byteReceived b)).data } =
      .ok (.byteReceived b, []) := by
    rw [hdata]
    exact decodeOfEncodeIsTheInstruction (.byteReceived b) [] rfl
  exact stepRunsTheDecodedInstruction s elapsed _ rest _ [] hin hdec

theorem execByteReceived_idle {s : State} {L : Byte} (hw : s.cfg.wf = true) (hk : s.cfg.transportKind = .stream)
    (hapm : s.apm = .idle) (hpos : 0 < L.toNat) (hmax : L.toNat ≤ s.cfg.maxPayload.toNat) :
    execByteReceived L s = .next { s.setEventFlags false with apm := .receiving L s.now [] } := by
  simp only [execByteReceived, onTransport_of_kind hw hk, hapm, acceptLength, hpos, hmax, and_self, if_true]

section receiving

variable {s : State} {L b : Byte} {startTime : Nat} {received : List Byte} (hw : s.cfg.wf = true)
  (hk : s.cfg.transportKind = .stream) (hapm : s.apm = .receiving L startTime received)

include hw hk hapm

theorem execByteReceived_more (hlen : received.length + 1 ≠ L.toNat) :
    execByteReceived b s =
      .next { s.setEventFlags false with apm := .receiving L startTime (received ++ [b]) } := by
  simp only [execByteReceived, onTransport_of_kind hw hk, hapm, acceptPayload, List.length_append, List.length_singleton,
    hlen, if_false]

theorem execByteReceived_last (hlen : received.length + 1 = L.toNat) :
    execByteReceived b s = .next { inspect (received ++ [b]) s with apm := .idle } := by
  simp only [execByteReceived, onTransport_of_kind hw hk, hapm, acceptPayload, List.length_append, List.length_singleton,
    hlen, if_true]

end receiving

/-! ### A whole packet -/

theorem run_succ_of_step (M : Host.Core) {s t : M.State} (h : M.step s = .next t) (n : Nat) :
    M.run (n + 1) s = M.run n t := by
  simp only [Host.Core.run, h]

/-- The bytes of a packet on consecutive ticks, each with the time that passes before it (R130). -/
def presentBytes (times : List Nat) (bytes : List Byte) : List PortInput :=
  List.zipWith (fun t b => PortInput.command t (encode (.byteReceived b))) times bytes

/-- The state once a complete payload was inspected and dropped, `elapsed` milliseconds after `s`, with the last byte in the
registers (R132). -/
def State.afterPacket (s : State) (payload : List Byte) (elapsed : Nat) (last : Byte) (rest : List PortInput) : State :=
  { inspect payload (s.latchByte elapsed last rest) with apm := .idle }

/-- What is left at the end of a packet does not depend on the byte from which one looks. -/
theorem afterPacket_afterByte (s : State) (payload : List Byte) (apm : ApmState) (e e' : Nat) (b last : Byte)
    (inbox rest : List PortInput) :
    (s.afterByte e b inbox apm).afterPacket payload e' last rest = s.afterPacket payload (e + e') last rest := by
  have htime : (s.afterByte e b inbox apm).now + e' = s.now + (e + e') := Nat.add_assoc s.now e e'
  simp only [State.afterPacket, inspect_eq, State.latchByte, htime]
  rfl

/-- The machine has the bytes `received` of a packet's payload, and the bytes `payload` it still lacks are the next to come,
on consecutive ticks (R28, R130). -/
structure State.MidPacket (s : State) (received : List Byte) (times : List Nat) (payload : List Byte)
    (rest : List PortInput) : Prop where
  config : s.cfg.wf = true
  kind : s.cfg.transportKind = .stream
  data : s.data = []
  apm : ∃ L startTime, s.apm = .receiving L startTime received ∧ received.length + payload.length = L.toNat
  ticks : times.length = payload.length
  inbox : s.inbox = presentBytes times payload ++ rest

/-- A payload byte that is not the last leaves one byte less to come. -/
theorem State.MidPacket.step_more {s : State} {received payload : List Byte} {e : Nat} {times : List Nat} {b b' : Byte}
    {rest : List PortInput} (h : s.MidPacket received (e :: times) (b :: b' :: payload) rest) :
    ∃ inbox apm, step s = .next (s.afterByte e b inbox apm) ∧
      (s.afterByte e b inbox apm).MidPacket (received ++ [b]) times (b' :: payload) rest := by
  obtain ⟨L, startTime, hapm, hlen⟩ := h.apm
  simp only [List.length_cons] at hlen
  have hbyte := execByteReceived_more (s := s.latchByte e b (presentBytes times (b' :: payload) ++ rest)) (b := b)
    h.config h.kind hapm (by omega)
  refine ⟨_, _, (step_byte h.data h.inbox).trans hbyte, h.config, h.kind, rfl, ⟨L, startTime, rfl, ?_⟩, ?_, rfl⟩
  · simp only [List.length_append, List.length_cons, List.length_nil]
    omega
  · simpa using h.ticks

/-- The last payload byte completes the packet, whose whole payload is inspected. -/
theorem State.MidPacket.step_last {s : State} {received : List Byte} {e : Nat} {b : Byte} {rest : List PortInput}
    (h : s.MidPacket received [e] [b] rest) : step s = .next (s.afterPacket (received ++ [b]) e b rest) := by
  obtain ⟨L, startTime, hapm, hlen⟩ := h.apm
  exact (step_byte h.data h.inbox).trans
    (execByteReceived_last (s := s.latchByte e b rest) h.config h.kind hapm hlen)

/-- The rest of a packet, from any byte of its payload on: after the last one the whole payload has been inspected. -/
theorem State.MidPacket.run {payload : List Byte} (hne : payload ≠ []) {s : State} {received : List Byte}
    {times : List Nat} {rest : List PortInput} (h : s.MidPacket received times payload rest) :
    ∃ last, core.run payload.length s = .next (s.afterPacket (received ++ payload) times.sum last rest) := by
  induction payload generalizing s received times with
  | nil => exact absurd rfl hne
  | cons b payload ih =>
    obtain ⟨e, times, rfl⟩ := List.exists_cons_of_length_eq_add_one h.ticks
    cases payload with
    | nil =>
      obtain rfl : times = [] := by simpa using h.ticks
      exact ⟨b, run_succ_of_step core h.step_last 0⟩
    | cons b' payload =>
      obtain ⟨inbox, apm, hstep, hmid⟩ := h.step_more
      obtain ⟨last, hrun⟩ := ih (List.cons_ne_nil b' payload) hmid
      refine ⟨last, (run_succ_of_step core hstep _).trans (hrun.trans ?_)⟩
      rw [afterPacket_afterByte, List.append_assoc, List.singleton_append, List.sum_cons]

/-- Settles O52: the length byte starts the packet, and the run of its payload ends with the payload inspected. -/
theorem aPacketFiresTheTriggerOnce : Obligations.APacketFiresTheTriggerOnce := by
  intro s L payload times rest hw hk hapm hpos hmax hlen htimes hdata hin
  obtain ⟨e, times, rfl⟩ := List.exists_cons_of_length_eq_add_one htimes
  have hbyte := execByteReceived_idle (s := s.latchByte e L (presentBytes times payload ++ rest)) hw hk hapm hpos hmax
  have hstep : step s = .next (s.afterByte e L _ (.receiving L (s.now + e) [])) := (step_byte hdata hin).trans hbyte
  have hmid : (s.afterByte e L _ _).MidPacket [] times payload rest :=
    ⟨hw, hk, rfl, ⟨L, s.now + e, rfl, by simpa using hlen⟩, by simpa [hlen] using htimes, rfl⟩
  obtain ⟨last, hrun⟩ := hmid.run (List.ne_nil_of_length_pos (hlen ▸ hpos))
  rw [afterPacket_afterByte, List.nil_append, hlen] at hrun
  refine ⟨_, (run_succ_of_step core hstep _).trans hrun, ?_⟩
  simp only [State.afterPacket, inspect_eq, ← matchConnect_iff, Bool.decide_eq_true, List.sum_cons]
  rw [hapm, hdata]
  rfl

end Sys2Proof.Machine

/-! PROOFS. How an engine command answers where its body goes on or raises an error; requests that change nothing; and the
engine's commands that start no operation (R80, R81, R82, R85, R86). -/

namespace Sys2Proof.Machine

/-! ### The answer of an engine command -/

theorem answered_answer (s : State) (code : BitVec 8) : Answered code s (s.answer code) := rfl

/-- A body that goes on to its end is answered 0. -/
theorem engineCommand_of_ok {body : State → Run Unit} {s u : State} (hw : s.cfg.wf = true) (hi : s.initialised = true)
    (h : body s = .ok () u) : engineCommand body s = .next (u.answer codeOk) := by
  rw [engineCommand_of_init hw hi, h, finish]

/-- A body that raises an error is answered its code. -/
theorem engineCommand_of_raised {body : State → Run Unit} {s u : State} {e : EngineError} (hw : s.cfg.wf = true)
    (hi : s.initialised = true) (h : body s = .raised e u) : engineCommand body s = .next (u.takeError e) := by
  rw [engineCommand_of_init hw hi, h, finish]

theorem engineCommand_of_not_init {body : State → Run Unit} {s : State} (hw : s.cfg.wf = true)
    (hi : s.initialised = false) : engineCommand body s = .refused .notInitialised := by
  rw [engineCommand, configured_of_wf hw, hi]
  rfl

/-- Settles O19: `init` runs its body under no other test than R9's. -/
theorem initInvalidatesBothSlots : Obligations.InitInvalidatesBothSlots :=
  fun s hw => ⟨State.answer { s with generic := none, boot := none, initialised := true } codeOk, configured_of_wf hw _,
    answered_answer _ codeOk⟩

/-- Settles O20: each of the four commands is an engine command that asks for `init`. -/
theorem engineCommandsBeforeInitAreRefused : Obligations.EngineCommandsBeforeInitAreRefused := by
  intro s i hw hi h
  rcases h with rfl | rfl | ⟨address, bytes, rfl⟩ | ⟨address, length, rfl⟩
  all_goals exact engineCommand_of_not_init hw hi

/-! ### Requests of length zero (R81, R82, D6) -/

/-- An engine command whose body is the answer to a request of length zero. -/
theorem engineCommand_of_zeroLength {body : State → Run Unit} {s : State} (hw : s.cfg.wf = true)
    (hi : s.initialised = true) (h : body s = zeroLength s) :
    ∃ t, engineCommand body s = .next t ∧ Answered (if s.cfg.zeroLenResult = .ok then 0 else 1) s t := by
  cases hz : s.cfg.zeroLenResult with
  | ok =>
    have hbody : body s = .ok () s := by rw [h, zeroLength, hz]
    exact ⟨_, engineCommand_of_ok hw hi hbody, answered_answer s codeOk⟩
  | outOfRange =>
    have hbody : body s = .raised .outOfRange s := by rw [h, zeroLength, hz]
    exact ⟨_, engineCommand_of_raised hw hi hbody, answered_answer s 1⟩

/-- Settles O23: both bodies test the length first. -/
theorem zeroLengthRequestsChangeNothing : Obligations.ZeroLengthRequestsChangeNothing :=
  fun _ _ hw hi => ⟨engineCommand_of_zeroLength hw hi (if_pos rfl), engineCommand_of_zeroLength hw hi (if_pos rfl)⟩

/-! ### finalize with nothing staged (R85) -/

theorem commitSlot_of_none {S : Slot} {s : State} (h : s.slot S = none) : commitSlot S s = .ok () s := by
  simp [commitSlot, h]

theorem commitSlot_of_some {S : Slot} {s : State} {b : WriteBlock} (h : s.slot S = some b) :
    commitSlot S s = (programBlock b s).andThen fun _ t => .ok () (t.setSlot S none) := by
  simp [commitSlot, h]

/-- Settles O43: neither slot has anything to commit. -/
theorem finalizeWithNothingStagedDoesNothing : Obligations.FinalizeWithNothingStagedDoesNothing := by
  intro s hw hi hg hb
  have hbody : runFinalize s = .ok () s := by
    rw [runFinalize, commitSlot_of_none (S := .generic) hg, Run.andThen_ok, commitSlot_of_none (S := .boot) hb]
  exact ⟨_, engineCommand_of_ok hw hi hbody, answered_answer s codeOk⟩

/-! ### Valid requests (R101) -/

theorem validateWrite_of_covered {c : Config} (w : c.Wf) {a n : Nat} (hn : 0 < n) (h : c.covered a n = true) :
    validateWrite c a n = none := by
  simp [validateWrite, inRegion, w.region_of_covered hn h, h]

/-- A `write` of bytes that all lie in sectors is valid: its body is the loop. -/
theorem runWrite_of_covered {s : State} (w : s.cfg.Wf) {address : Nat} {bytes : List Byte} (hne : bytes ≠ [])
    (h : s.cfg.covered address bytes.length = true) :
    runWrite address bytes s = writeLoop bytes (route s.cfg address) address s := by
  have hpos : 0 < bytes.length := List.length_pos_iff.2 hne
  rw [runWrite, if_neg hpos.ne', validateWrite_of_covered w hpos h]

theorem validateErase_of_sectors {c : Config} (w : c.Wf) {a n kf kl : Nat} (hf : c.sectorOf a = some kf)
    (hl : c.sectorOf (a + n - 1) = some kl) : validateErase c a n = .ok (kf, kl) := by
  obtain ⟨x, hx, hxa, _⟩ := Config.sectorOf_some hf
  obtain ⟨y, hy, _, hya⟩ := Config.sectorOf_some hl
  have hlo := w.bootBase_le (List.mem_of_getElem? hx)
  have hhi := w.stop_le_addrHi (List.mem_of_getElem? hy)
  rw [Config.bootBase] at hlo
  have hin : inRegion c a n = true := by
    simp only [inRegion, Bool.and_eq_true, decide_eq_true_eq]
    omega
  simp [validateErase, hin, hf, hl]

/-- An `erase` whose ends lie in sectors `kf` and `kl` is valid: its body drops slots and runs the loop. -/
theorem runErase_of_sectors {s : State} (w : s.cfg.Wf) {address length kf kl : Nat} (hn : length ≠ 0)
    (hf : s.cfg.sectorOf address = some kf) (hl : s.cfg.sectorOf (address + length - 1) = some kl) :
    runErase address length s = eraseLoop (sectorsBetween s.cfg kf kl) (dropSlots kf kl s) := by
  rw [runErase, if_neg hn, validateErase_of_sectors w hf hl]

end Sys2Proof.Machine

/-! PROOFS. `write` (R81): inside one block it only stages, its frame, what a failed block switch keeps, and its success on a
device that meets R110. -/

namespace Sys2Proof.Machine

/-! ### A write inside one block (R102, R104, R113) -/

/-- Where the first byte's routing goes on in a state whose current slot then holds the block, the loop might as well have begun
there. -/
theorem writeLoop_from_nextSlot {bytes : List Byte} (hne : bytes ≠ []) {S S' : Slot} {a : Nat} {s t : State}
    (h : nextSlot S (s.cfg.blockBase a) s = .ok S' t) (hc : t.cfg = s.cfg)
    (hh : t.holdsBase S' (s.cfg.blockBase a) = true) : writeLoop bytes S a s = writeLoop bytes S' a t := by
  cases bytes with
  | nil => exact absurd rfl hne
  | cons v rest =>
    have ht : nextSlot S' (t.cfg.blockBase a) t = .ok S' t := by rw [nextSlot, hc, if_pos hh]
    simp only [writeLoop, h, ht, Run.andThen_ok]

/-- The routing of a byte whose block belongs to the invalid slot `S` loads that block (R103, R104). -/
theorem nextSlot_of_none {s : State} {S : Slot} {B : Nat} (hin : blockInside s.cfg B)
    (hS : S = if B = s.cfg.bootBase then .boot else .generic) (hn : s.slot S = none) :
    nextSlot S B s = .ok S (s.setSlot S (some ⟨BitVec.ofNat 32 B, s.flash.readBytes B s.cfg.blockSize⟩)) := by
  have hact : activeSlot s.cfg S B = S := (activeSlot_eq s.cfg S B).trans hS.symm
  have hno : ¬ s.holdsBase S B = true := by simp [holdsBase_iff, hn]
  rw [nextSlot, if_neg hno, target, hact, hn]
  exact load_of_covered (Config.covered_of_blockInside hin)

/-- The body of a `write` inside one block whose slot is invalid or holds that block. -/
theorem runWrite_inside {s : State} (hs : s.Inv) {address : Nat} {bytes : List Byte} {S : Slot} {old : List Byte}
    (hne : bytes ≠ []) (hc : s.cfg.covered address bytes.length = true)
    (hend : address + bytes.length ≤ s.cfg.blockBase address + s.cfg.blockSize)
    (hS : S = if s.cfg.blockBase address = s.cfg.bootBase then .boot else .generic)
    (hold : (s.slot S = none ∧ old = s.flash.readBytes (s.cfg.blockBase address) s.cfg.blockSize) ∨
      s.slot S = some ⟨BitVec.ofNat 32 (s.cfg.blockBase address), old⟩) :
    runWrite address bytes s = .ok () (s.setSlot S (some
      ⟨BitVec.ofNat 32 (s.cfg.blockBase address), old.take (address - s.cfg.blockBase address) ++ bytes ++
        old.drop (address - s.cfg.blockBase address + bytes.length)⟩)) := by
  have w := Config.wf_clauses hs.config
  have hfirst := (Config.covered_iff _ _ _).1 hc 0 (List.length_pos_iff.2 hne)
  have hin : blockInside s.cfg (s.cfg.blockBase address) := w.blockInside_of_sectorOf hfirst
  have hbase := w.toNat_blockBase hin
  have hlow := Config.Wf.blockBase_le s.cfg address
  have hmod := w.blockBase_mod address
  rw [runWrite_of_covered w hne hc, show route s.cfg address = S from hS.symm]
  rcases hold with ⟨hn, rfl⟩ | hb
  · have hload := nextSlot_of_none hin hS hn
    rw [writeLoop_from_nextSlot hne hload (by simp) (holdsBase_iff.2 ⟨_, State.slot_setSlot_same _ _ _, hbase⟩)]
    rw [writeLoop_inside bytes S address _ _ (by simpa using w) (State.slot_setSlot_same _ _ _) (by simp)
      (by simpa [hbase] using hmod) (by simpa [hbase] using hlow) (by simpa [hbase] using hend), setSlot_setSlot]
    simp only [hbase]
  · have hlen := (hs.slotOk hb).length
    rw [writeLoop_inside bytes S address s _ w hb hlen (by simpa only [hbase] using hmod) (by simpa only [hbase] using hlow)
      (by simpa only [hbase] using hend)]
    simp only [hbase]

/-- Settles O25: the block is loaded first where the slot is invalid; then the bytes replace a part of its buffer. -/
theorem writeInsideOneBlockOnlyStages : Obligations.WriteInsideOneBlockOnlyStages := by
  intro s address bytes S old hs hi hne hc hend hS hold
  exact ⟨_, engineCommand_of_ok hs.config hi (runWrite_inside hs hne hc hend hS hold), answered_answer _ codeOk⟩

/-! ### The frame of an engine command (R109) -/

/-- However the piece ends, flash has changed in the touched addresses only, and only the engine's own state changed. -/
def Run.Touches {α : Type} (touched : Nat → Prop) (s : State) (r : Run α) : Prop :=
  r.Sat (fun _ t => Ended touched s t) (fun _ t => Ended touched s t) (fun _ t => Lost touched s t)

/-- The frame of a command from that of its body: a loss of power clears the mark of `init`. -/
theorem Run.Touches.frame {touched : Nat → Prop} {s t : State} {r : Run Unit} (hr : r.Touches touched s)
    (h : finish r = .next t) :
    (∀ a, ¬ touched a → t.flash.read a = s.flash.read a) ∧ (t.initialised = true → OnlyEngine s t) := by
  refine finish_sat (P := fun t => (∀ a, ¬ touched a → t.flash.read a = s.flash.read a) ∧
    (t.initialised = true → OnlyEngine s t)) h hr ?_ ?_ ?_
  · exact fun u hu => ⟨hu.flash, fun _ => hu.only.trans (onlyEngine_answer u codeOk)⟩
  · exact fun e u hu => ⟨hu.flash, fun _ => hu.only.trans (onlyEngine_answer u e.code)⟩
  · exact fun content u hu => ⟨hu.flash content, fun hi => absurd hi (by simp)⟩

theorem runWrite_touches {s : State} (hs : s.Inv) (hi : s.initialised = true) (address : Nat) (bytes : List Byte) :
    (runWrite address bytes s).Touches (writeTouches s.cfg s.generic address bytes.length) s :=
  (runWrite_sat hs hi address bytes).mono (fun _ _ h => h.ended) (fun _ _ h => h.1) fun _ _ h => h

/-- Settles O28: the body touches the block the generic slot held and the request's generic blocks only. -/
theorem writeChangesOnlyGenericBlocks : Obligations.WriteChangesOnlyGenericBlocks := by
  intro s t address bytes hs h
  obtain ⟨_, hi, h⟩ := engineCommand_next h
  obtain ⟨hflash, honly⟩ := (runWrite_touches hs hi address.toNat bytes).frame h
  exact ⟨fun a hslot hreq => hflash a fun hx => hx.elim hslot hreq, honly⟩

/-! ### What staging a byte leaves -/

section stage
variable (S : Slot) (a : Nat) (v : Byte) (s : State)

@[simp] theorem stage_cfg : (stage S a v s).cfg = s.cfg := (onlyEngine_stage S a v s).cfg

@[simp] theorem stage_flash : (stage S a v s).flash = s.flash := by
  unfold stage
  split
  · rfl
  · exact State.setSlot_flash s S _

@[simp] theorem stage_timedOut : (stage S a v s).timedOut = s.timedOut := by
  unfold stage
  split
  · rfl
  · exact State.setSlot_timedOut s S _

@[simp] theorem stage_nvmAnswers : (stage S a v s).nvmAnswers = s.nvmAnswers := by
  unfold stage
  split
  · rfl
  · exact State.setSlot_nvmAnswers s S _

@[simp] theorem stage_physical : (stage S a v s).physical = s.physical := by
  unfold stage
  split
  · rfl
  · simp [State.physical]

@[simp] theorem stage_genericBase : (stage S a v s).genericBase = s.genericBase := by
  unfold stage
  split
  · rfl
  · next b hb =>
    cases S with
    | boot => rfl
    | generic => rw [State.slot_generic] at hb; simp [State.genericBase, hb]

end stage

/-! ### Routing the next byte, and the loop after it -/

/-- Two descriptions of the same piece hold together. -/
theorem Run.Sat.and {α : Type} {r : Run α} {ok ok' : α → State → Prop} {raised raised' : EngineError → State → Prop}
    {lost lost' : List Byte → State → Prop} (h : r.Sat ok raised lost) (h' : r.Sat ok' raised' lost') :
    r.Sat (fun a t => ok a t ∧ ok' a t) (fun e t => raised e t ∧ raised' e t) (fun c t => lost c t ∧ lost' c t) := by
  cases r with
  | ok a t => exact ⟨h, h'⟩
  | raised e t => exact ⟨h, h'⟩
  | powerLost c t => exact ⟨h, h'⟩
  | refused r => trivial
  | fault f => trivial

theorem covered_head {c : Config} {a n : Nat} (h : c.covered a (n + 1) = true) : (c.sectorOf a).isSome = true := by
  simp only [Config.covered, Bool.and_eq_true] at h
  exact h.1

theorem covered_tail {c : Config} {a n : Nat} (h : c.covered a (n + 1) = true) : c.covered (a + 1) n = true := by
  simp only [Config.covered, Bool.and_eq_true] at h
  exact h.2

/-- The byte `v` at `a` was routed and staged: `s` became `t`, in which the loop of `write` goes on. -/
structure ByteStaged (a : Nat) (v : Byte) (s t : State) : Prop where
  inv : t.Inv
  only : OnlyEngine s t
  view : ∀ x, t.view x = if x = a then v else s.view x
  routed : Routed a s t

theorem Switched.byteStaged {a : Nat} {v : Byte} {S : Slot} {s t : State} (h : Switched a s S t) (hr : Routed a s t)
    (hi : s.initialised = true) : ByteStaged a v s (stage S a v t) := by
  obtain ⟨b, hb, hbase⟩ := h.slot
  obtain ⟨hinv, hview, _⟩ := stage_spec (v := v) h.inv (h.only.initialised.trans hi) hb (h.only.cfg.symm ▸ hbase)
    (h.only.cfg.symm ▸ h.isSlot)
  exact ⟨hinv, h.only.trans (onlyEngine_stage S a v t), fun x => by rw [hview, h.view],
    ⟨by simpa using hr.stays, by simpa using hr.moves⟩⟩

/-! ### A write that fails (D11, R163 to R165) -/

theorem genericBases_of_stays {s : State} {a : Nat} (h : StaysIn s a) (n : Nat) :
    s.genericBases a (n + 1) = genericBases s.cfg s.genericBase (a + 1) n :=
  if_pos h

theorem genericBases_of_moves {s : State} {a : Nat} (h : ¬ StaysIn s a) (n : Nat) :
    s.genericBases a (n + 1) =
      s.genericBase.toList ++ genericBases s.cfg (some (s.cfg.blockBase a)) (a + 1) n :=
  if_neg h

/-- The program of the block at each base. -/
def programsOf (l : List Nat) : List Event := l.map fun B => Event.program (BitVec.ofNat 32 B)

theorem programsOf_append (l m : List Nat) : programsOf (l ++ m) = programsOf l ++ programsOf m := List.map_append

/-- The loop of `write` failed at byte `n` of the bytes, in the program of the outgoing block `b` (R81, D11, R103). -/
structure WriteFailed (bytes : List Byte) (a : Nat) (e : EngineError) (s t : State) (n : Nat) (b : WriteBlock) : Prop where
  code : e = .timeout ∨ e = .hardwareFault ∨ e = .verifyMismatch
  mark : t.timedOut = decide (e = .timeout)
  busy : t.nvmBusy = decide (e = .timeout)
  index : n < bytes.length
  generic : t.generic = some b
  notBoot : s.cfg.blockBase (a + n) ≠ s.cfg.bootBase
  other : s.cfg.blockBase (a + n) ≠ b.base.toNat
  last : (s.genericBases a n).getLast? = some b.base.toNat
  physical : t.physical = s.physical ++ programsOf (s.genericBases a n)
  view : ∀ x, t.view x = if a ≤ x then ((bytes.take n)[x - a]?).getD (s.view x) else s.view x

/-- The failure of the first byte's routing. -/
theorem SwitchFailed.writeFailed {a : Nat} {b : WriteBlock} {e : EngineError} {s t : State} {v : Byte} {rest : List Byte}
    (h : SwitchFailed a b e s t) : WriteFailed (v :: rest) a e s t 0 b where
  code := h.code
  mark := h.mark
  busy := h.busy
  index := Nat.succ_pos _
  generic := h.generic.trans h.outgoing
  notBoot := h.notBoot
  other := h.other
  last := by simp [State.genericBases, genericBases, State.genericBase, h.outgoing]
  physical := by simp [programsOf, State.genericBases, genericBases, State.genericBase, h.outgoing, h.physical]
  view := by simp [h.view]

/-- The bases held and the programs started up to byte `n` after the first, from those after the first byte was routed. -/
theorem Routed.genericBases_succ {a : Nat} {s t : State} (h : Routed a s t) (hc : t.cfg = s.cfg) (n : Nat) :
    (∀ B, (t.genericBases (a + 1) n).getLast? = some B → (s.genericBases a (n + 1)).getLast? = some B) ∧
      t.physical ++ programsOf (t.genericBases (a + 1) n) = s.physical ++ programsOf (s.genericBases a (n + 1)) := by
  by_cases hst : StaysIn s a
  · obtain ⟨hbase, hphys⟩ := h.stays hst
    have heq : t.genericBases (a + 1) n = s.genericBases a (n + 1) := by
      rw [genericBases_of_stays hst, State.genericBases, hc, hbase]
    exact ⟨fun B hB => heq ▸ hB, by rw [heq, hphys]⟩
  · obtain ⟨hbase, hphys⟩ := h.moves hst
    have heq : s.genericBases a (n + 1) = s.genericBase.toList ++ t.genericBases (a + 1) n := by
      rw [genericBases_of_moves hst, State.genericBases, hc, hbase]
    have hout : programsOf s.genericBase.toList = s.generic.toList.map fun b => Event.program b.base := by
      cases hg : s.generic <;> simp [programsOf, State.genericBase, hg]
    refine ⟨fun B hB => by rw [heq, List.getLast?_append, hB, Option.some_or], ?_⟩
    rw [heq, hphys, programsOf_append, hout, List.append_assoc]

/-- A failure in the rest of the bytes, after the first was staged. -/
theorem WriteFailed.cons {a n : Nat} {b : WriteBlock} {e : EngineError} {s t u : State} {v : Byte} {rest : List Byte}
    (h : WriteFailed rest (a + 1) e t u n b) (hst : ByteStaged a v s t) :
    WriteFailed (v :: rest) a e s u (n + 1) b := by
  have hc := hst.only.cfg
  obtain ⟨hlast, hphys⟩ := hst.routed.genericBases_succ hc n
  have hadd : a + (n + 1) = a + 1 + n := by omega
  exact {
    code := h.code
    mark := h.mark
    busy := h.busy
    index := Nat.succ_lt_succ h.index
    generic := h.generic
    notBoot := by rw [hadd, ← hc]; exact h.notBoot
    other := by rw [hadd, ← hc]; exact h.other
    last := hlast _ h.last
    physical := h.physical.trans hphys
    view := fun x => by rw [h.view, hst.view, List.take_succ_cons, view_cons] }

/-- Every way the loop of `write` can fail (R81). -/
theorem writeLoop_fails (bytes : List Byte) : ∀ (S : Slot) (a : Nat) (s : State), s.Inv → s.initialised = true →
    s.cfg.covered a bytes.length = true →
    (writeLoop bytes S a s).Sat (fun _ _ => True) (fun e t => ∃ n b, WriteFailed bytes a e s t n b) (fun _ _ => True) := by
  induction bytes with
  | nil => exact fun _ _ _ _ _ _ => trivial
  | cons v rest ih =>
    intro S a s hs hi hc
    have ha := covered_head hc
    refine Run.Sat.andThen (((nextSlot_sat hs hi ha).and (nextSlot_switches hs ha)).mono (fun _ _ h => h) ?_
      fun _ _ _ => trivial) ?_
    · rintro e t ⟨_, b, hb⟩
      exact ⟨0, b, hb.writeFailed⟩
    · rintro S' t ⟨hsw, hr⟩
      have hst := hsw.byteStaged (v := v) hr hi
      refine (ih S' (a + 1) _ hst.inv (hst.only.initialised.trans hi) (hst.only.cfg.symm ▸ covered_tail hc)).mono
        (fun _ _ _ => trivial) ?_ fun _ _ _ => trivial
      rintro e u ⟨n, b, h⟩
      exact ⟨n + 1, b, h.cons hst⟩

theorem validateWrite_code {c : Config} {a n : Nat} {e : EngineError} (h : validateWrite c a n = some e) :
    e.code.toNat ≤ 2 := by
  unfold validateWrite at h
  split_ifs at h <;> cases h <;> decide

/-- Every error the body of `write` raises: one of a request that is not valid, or the failure of a block switch. -/
theorem runWrite_fails {s : State} (hs : s.Inv) (hi : s.initialised = true) (address : Nat) (bytes : List Byte) :
    (runWrite address bytes s).Sat (fun _ _ => True)
      (fun e t => e.code.toNat ≤ 2 ∨ ∃ n b, WriteFailed bytes address e s t n b) (fun _ _ => True) := by
  unfold runWrite
  split_ifs
  · rcases zeroLength_cases s with h | h <;> rw [h]
    · trivial
    · exact .inl (by decide)
  · split
    · next e hv => exact .inl (validateWrite_code hv)
    · next hv =>
      exact (writeLoop_fails bytes _ address s hs hi (covered_of_validateWrite hv)).mono (fun _ _ h => h)
        (fun _ _ h => .inr h) fun _ _ h => h

/-- The codes of the three errors of a physical operation (R66). -/
theorem EngineError.code_of_operation {e : EngineError} (h : e = .timeout ∨ e = .hardwareFault ∨ e = .verifyMismatch) :
    e.code.toNat ≤ 5 ∧ decide (e.code = 3) = decide (e = .timeout) := by
  rcases h with rfl | rfl | rfl <;> decide

/-- Settles O29: a result above 2 is an error of the loop, which only a block switch raises. -/
theorem aFailedWriteKeepsWhatIsStaged : Obligations.AFailedWriteKeepsWhatIsStaged := by
  intro s t address bytes hs h hres
  obtain ⟨_, hi, h⟩ := engineCommand_next h
  have hfails := runWrite_fails hs hi address.toNat bytes
  have honly := runWrite_touches hs hi address.toNat bytes
  rcases finish_next h with ⟨u, _, rfl⟩ | ⟨e, u, hrun, rfl⟩ | ⟨c, u, _, rfl⟩
  · exact absurd hres (by simp [codeOk])
  · rw [hrun] at hfails honly
    obtain ⟨n, b, hf⟩ := hfails.resolve_left (by simpa using hres)
    obtain ⟨hcode, htimeout⟩ := EngineError.code_of_operation hf.code
    refine ⟨honly.only.initialised.trans hi, hcode, ?_, ?_, n, hf.index, b, hf.generic, hf.notBoot, hf.other, hf.last,
      hf.physical, hf.view⟩
    · exact hf.mark.trans htimeout.symm
    · exact hf.busy.trans htimeout.symm
  · exact absurd hres (by simp)

/-! ### A write on a device that meets R110 -/

theorem State.BlockErased.of_flash {s t : State} {B : Nat} (h : s.BlockErased B) (hc : t.cfg = s.cfg)
    (hf : ∀ x, inBlock s.cfg B x → t.flash.read x = s.flash.read x) : t.BlockErased B := by
  intro x hx
  rw [hc] at hx ⊢
  rw [hf x hx, h x hx]

theorem State.Dependable.mono {s : State} {m n : Nat} (h : s.Dependable n) (hmn : m ≤ n) : s.Dependable m :=
  fun k hk => h k (hk.trans_le hmn)

theorem State.Dependable.of_answers {s t : State} {n : Nat} (h : s.Dependable n) (ht : t.nvmAnswers = s.nvmAnswers) :
    t.Dependable n := by
  intro k hk
  rw [ht]
  exact h k hk

theorem startable_program {s : State} {S : Slot} {b : WriteBlock} (hs : s.Inv) (ht : s.timedOut = false)
    (hb : s.slot S = some b) : Startable (.program b) s :=
  ⟨ht, hs.idle ht, Config.covered_of_blockInside (hs.slotOk hb).inside⟩

/-- The routing of a byte on a device that meets R110 goes on, where the block the generic slot holds is erased: it uses at most
one answer, and none where the generic slot is not switched. -/
theorem nextSlot_sound {s : State} {a n : Nat} {S : Slot} (hs : s.Inv) (ht : s.timedOut = false)
    (ha : (s.cfg.sectorOf a).isSome = true) (hd : s.Dependable (n + 1))
    (he : ∀ b, s.generic = some b → s.BlockErased b.base.toNat) :
    ∃ S' t, nextSlot S (s.cfg.blockBase a) s = .ok S' t ∧ t.timedOut = false ∧ t.Dependable n ∧
      (StaysIn s a → t.flash = s.flash) := by
  have hcov := Config.covered_of_blockInside ((Config.wf_clauses hs.config).blockInside_of_sectorOf ha)
  have hact := activeSlot_eq s.cfg S (s.cfg.blockBase a)
  have same : ∀ S', ∃ S'' t, (Run.ok S' s : Run Slot) = .ok S'' t ∧ t.timedOut = false ∧ t.Dependable n ∧
      (StaysIn s a → t.flash = s.flash) := fun S' => ⟨S', s, rfl, ht, hd.mono (Nat.le_succ n), fun _ => rfl⟩
  unfold nextSlot
  split_ifs with hh
  · exact same S
  rcases target_cases S (s.cfg.blockBase a) s with ⟨_, htg⟩ | ⟨_, _, _, htg⟩ | ⟨b, hb, hne, htg⟩ <;> rw [htg]
  · rw [load_of_covered hcov]
    exact ⟨_, _, rfl, by simpa using ht, (hd.mono (Nat.le_succ n)).of_answers (by simp), fun _ => by simp⟩
  · exact same _
  · have hnb : s.cfg.blockBase a ≠ s.cfg.bootBase := by
      intro hboot
      rw [hact, if_pos hboot] at hb
      exact hne ((hs.boot b hb).2.trans hboot.symm)
    rw [hact, if_neg hnb] at hb ⊢
    have hok := hs.slotOk hb
    obtain ⟨d, r, hn⟩ := hd.cons
    obtain ⟨t, hp, hran, _, hmark, _⟩ := programBlock_sound (startable_program hs ht hb) hok.length hs.flash hn (he b hb)
    rw [hp, Run.andThen_ok, load_of_covered (hran.only.cfg.symm ▸ hcov)]
    refine ⟨_, _, rfl, by simpa using hmark, hd.after (by simpa using hran.answers), fun hst => ?_⟩
    have hbase : s.genericBase = some b.base.toNat := by
      rw [State.slot_generic] at hb
      simp [State.genericBase, hb]
    rcases hst with hst | hst
    · exact absurd hst hnb
    · rw [hbase, Option.some.injEq] at hst
      exact absurd hst hne

/-- What a `write` of `n` bytes from `a` on needs to succeed (R110): the hardware may be used, and every program it may start is
of an erased block, since the blocks are erased and it does not return to the block the generic slot holds after another one. -/
structure Writable (a n : Nat) (s : State) : Prop where
  inv : s.Inv
  initialised : s.initialised = true
  notTimedOut : s.timedOut = false
  covered : s.cfg.covered a n = true
  dependable : s.Dependable n
  held : ∀ B, s.genericBase = some B → s.BlockErased B
  blocks : ∀ i < n, s.cfg.blockBase (a + i) ≠ s.cfg.bootBase → s.BlockErased (s.cfg.blockBase (a + i))
  noReturn : ∀ B, s.genericBase = some B → ∀ i < n, s.cfg.blockBase (a + i) = B →
    ∀ j < i, s.cfg.blockBase (a + j) = B ∨ s.cfg.blockBase (a + j) = s.cfg.bootBase

/-- The block of byte `i + 1` of the request is not the one that the first byte displaced. -/
theorem Writable.not_displaced {a n B : Nat} {s : State} (h : Writable a (n + 1) s) (hst : ¬ StaysIn s a)
    (hB : s.genericBase = some B) {i : Nat} (hi : i < n + 1) : s.cfg.blockBase (a + i) ≠ B := by
  intro hback
  have hfirst : ¬ (s.cfg.blockBase a = B ∨ s.cfg.blockBase a = s.cfg.bootBase) := by
    rintro (h1 | h1)
    · exact hst (.inr (h1 ▸ hB))
    · exact hst (.inl h1)
  cases i with
  | zero => exact hfirst (.inl hback)
  | succ i => exact hfirst (h.noReturn B hB (i + 1) hi hback 0 (Nat.succ_pos i))

/-- Routing the first byte leaves the request's generic blocks erased: it programs none of them. -/
theorem Writable.blockErased_after {a n : Nat} {S : Slot} {s t : State} (h : Writable a (n + 1) s)
    (hsw : Switched a s S t) (hstay : StaysIn s a → t.flash = s.flash) {i : Nat} (hi : i < n + 1)
    (hnb : s.cfg.blockBase (a + i) ≠ s.cfg.bootBase) : t.BlockErased (s.cfg.blockBase (a + i)) := by
  have w := Config.wf_clauses h.inv.config
  refine (h.blocks i hi hnb).of_flash hsw.only.cfg fun x hx => ?_
  by_cases hst : StaysIn s a
  · rw [hstay hst]
  · refine hsw.flash x ?_
    rintro ⟨b, hb, hbx⟩
    have hbase : s.genericBase = some b.base.toNat := by simp [State.genericBase, hb]
    exact h.not_displaced hst hbase hi (w.block_unique (w.blockBase_mod _) (h.inv.generic b hb).1.aligned hx hbx)

/-- After the first byte the rest of the request may still be written. -/
theorem Writable.tail {a n : Nat} {v : Byte} {S : Slot} {s t : State} (h : Writable a (n + 1) s) (hsw : Switched a s S t)
    (hr : Routed a s t) (ht : t.timedOut = false) (hd : t.Dependable n) (hstay : StaysIn s a → t.flash = s.flash) :
    Writable (a + 1) n (stage S a v t) := by
  have w := Config.wf_clauses h.inv.config
  have hst := hsw.byteStaged (v := v) hr h.initialised
  have hc := hst.only.cfg
  have hadd : ∀ i, a + 1 + i = a + (i + 1) := fun i => by omega
  have erased : ∀ B, t.BlockErased B → (stage S a v t).BlockErased B :=
    fun B hB => hB.of_flash (stage_cfg S a v t) fun x _ => by rw [stage_flash]
  refine ⟨hst.inv, hst.only.initialised.trans h.initialised, by simpa using ht, hc.symm ▸ covered_tail h.covered,
    hd.of_answers (by simp), ?_, ?_, ?_⟩
  · intro B hB
    rw [stage_genericBase] at hB
    refine erased B ?_
    by_cases hs : StaysIn s a
    · rw [(hr.stays hs).1] at hB
      exact (h.held B hB).of_flash hsw.only.cfg fun x _ => by rw [hstay hs]
    · rw [(hr.moves hs).1] at hB
      cases hB
      exact h.blockErased_after hsw hstay (i := 0) (Nat.succ_pos n) fun hb => hs (.inl hb)
  · intro i hi hnb
    rw [hadd, hc] at hnb ⊢
    exact erased _ (h.blockErased_after hsw hstay (Nat.succ_lt_succ hi) hnb)
  · intro B hB i hi hbase j hj
    rw [stage_genericBase] at hB
    rw [hadd, hc] at hbase ⊢
    by_cases hs : StaysIn s a
    · rw [(hr.stays hs).1] at hB
      exact h.noReturn B hB (i + 1) (Nat.succ_lt_succ hi) hbase (j + 1) (Nat.succ_lt_succ hj)
    · rw [(hr.moves hs).1] at hB
      cases hB
      have hlow := w.blockBase_mono (show a ≤ a + (j + 1) by omega)
      have hhigh := w.blockBase_mono (show a + (j + 1) ≤ a + (i + 1) by omega)
      exact .inl (le_antisymm (hhigh.trans hbase.le) hlow)

/-- NVM_PROGRAM_ERASED_OK (R110) over the loop of `write`: it goes on to the end. -/
theorem writeLoop_sound (bytes : List Byte) : ∀ (S : Slot) (a : Nat) (s : State), Writable a bytes.length s →
    ∃ t, writeLoop bytes S a s = .ok () t := by
  induction bytes with
  | nil => exact fun _ _ s _ => ⟨s, rfl⟩
  | cons v rest ih =>
    intro S a s h
    have ha := covered_head h.covered
    have hheld : ∀ b, s.generic = some b → s.BlockErased b.base.toNat :=
      fun b hb => h.held _ (by simp [State.genericBase, hb])
    obtain ⟨S', t, hnext, ht, hd, hstay⟩ := nextSlot_sound (S := S) h.inv h.notTimedOut ha h.dependable hheld
    have hsat := (nextSlot_sat (S := S) h.inv h.initialised ha).and (nextSlot_switches h.inv ha)
    rw [hnext] at hsat
    obtain ⟨u, hu⟩ := ih S' (a + 1) _ (h.tail (v := v) hsat.1 hsat.2 ht hd hstay)
    exact ⟨u, by rw [writeLoop, hnext, Run.andThen_ok, hu]⟩

/-- Settles O27: the request is `Writable`, so the loop goes on to the end, where all bytes are staged. -/
theorem writeSucceedsOnADependableDevice : Obligations.WriteSucceedsOnADependableDevice := by
  intro s address bytes hr hne hc hd hheld hblocks hret
  obtain ⟨hs, hi, ht⟩ := hr
  have hgen : ∀ B, s.genericBase = some B → ∃ b, s.generic = some b ∧ b.base.toNat = B :=
    fun _ hB => Option.map_eq_some_iff.1 hB
  have hw : Writable address.toNat bytes.length s := by
    refine ⟨hs, hi, ht, hc, hd, fun B hB => ?_, hblocks, fun B hB => ?_⟩ <;> obtain ⟨b, hb, rfl⟩ := hgen B hB
    · exact hheld b hb
    · exact hret b hb
  have hbody := runWrite_of_covered (Config.wf_clauses hs.config) hne hc
  obtain ⟨u, hu⟩ := writeLoop_sound bytes (route s.cfg address.toNat) address.toNat s hw
  have hstaged := writeLoop_sat bytes (route s.cfg address.toNat) address.toNat s hs hi hc
  rw [hu] at hstaged
  have hend := engineCommand_of_ok (body := runWrite address.toNat bytes) hs.config hi (hbody.trans hu)
  exact ⟨_, hend, hstaged.only.initialised.trans hi, rfl, hstaged.only.trans (onlyEngine_answer u codeOk), hstaged.view⟩

end Sys2Proof.Machine

/-! PROOFS. `erase` (R82): its frame, its success on a device that meets R110, and its stop at the first sector whose erase
fails. -/

namespace Sys2Proof.Machine

/-! ### The frame of erase -/

/-- The addresses whose flash byte an `erase` may change: those of the sectors from its first byte's to its last byte's. -/
def eraseTouches (c : Config) (address length a : Nat) : Prop :=
  ∃ kf kl k, length ≠ 0 ∧ c.sectorOf address = some kf ∧ c.sectorOf (address + length - 1) = some kl ∧
    c.sectorOf a = some k ∧ kf ≤ k ∧ k ≤ kl

/-- An address lies in the sectors of certain indices exactly where the index of its own sector is one of them (R100). -/
theorem inSectors_iff {c : Config} (w : c.Wf) {l : List Sector} {P : Nat → Prop}
    (hl : ∀ x, x ∈ l ↔ ∃ k, P k ∧ c.sectors[k]? = some x) {a : Nat} :
    inSectors l a ↔ ∃ k, c.sectorOf a = some k ∧ P k := by
  constructor
  · rintro ⟨x, hx, hxa⟩
    obtain ⟨k, hP, hk⟩ := (hl x).1 hx
    obtain ⟨h1, h2⟩ := (x.has_iff a).1 hxa
    exact ⟨k, w.sectorOf_eq hk h1 h2, hP⟩
  · rintro ⟨k, hk, hP⟩
    obtain ⟨x, hx, hxa⟩ := Config.sectorOf_some hk
    exact ⟨x, (hl x).2 ⟨k, hP, hx⟩, (x.has_iff a).2 hxa⟩

theorem inSectors_sectorsBetween {c : Config} (w : c.Wf) {kf kl a : Nat} :
    inSectors (sectorsBetween c kf kl) a ↔ ∃ k, c.sectorOf a = some k ∧ kf ≤ k ∧ k ≤ kl :=
  inSectors_iff w fun x => by simp only [mem_sectorsBetween, and_assoc]

theorem mem_sectors_of_between {c : Config} {kf kl : Nat} : ∀ x ∈ sectorsBetween c kf kl, x ∈ c.sectors := by
  intro x hx
  obtain ⟨k, _, _, hk⟩ := mem_sectorsBetween.1 hx
  exact List.mem_of_getElem? hk

theorem validateErase_ok {c : Config} {a n kf kl : Nat} (h : validateErase c a n = .ok (kf, kl)) :
    c.sectorOf a = some kf ∧ c.sectorOf (a + n - 1) = some kl := by
  unfold validateErase at h
  split_ifs at h
  split at h
  · next hf hl => cases h; exact ⟨hf, hl⟩
  · cases h

section dropSlots
variable (kf kl : Nat) (s : State)

@[simp] theorem dropSlots_flash : (dropSlots kf kl s).flash = s.flash := by rw [dropSlots_rest]

@[simp] theorem dropSlots_now : (dropSlots kf kl s).now = s.now := by rw [dropSlots_rest]

@[simp] theorem dropSlots_timedOut : (dropSlots kf kl s).timedOut = s.timedOut := by rw [dropSlots_rest]

@[simp] theorem dropSlots_nvmAnswers : (dropSlots kf kl s).nvmAnswers = s.nvmAnswers := by rw [dropSlots_rest]

@[simp] theorem dropSlots_physical : (dropSlots kf kl s).physical = s.physical := by rw [dropSlots_rest]; rfl

end dropSlots

/-- Every slot that is valid in `t` is valid in `s`, with the same content. -/
def KeepsSlots (s t : State) : Prop := ∀ S b, t.slot S = some b → s.slot S = some b

theorem slot_congr {s t : State} (hg : t.generic = s.generic) (hb : t.boot = s.boot) (S : Slot) : t.slot S = s.slot S := by
  cases S with
  | generic => exact hg
  | boot => exact hb

theorem KeepsSlots.refl (s : State) : KeepsSlots s s := fun _ _ h => h

/-- Which slots are valid where nothing but the drop of slots changed them (R82, D12). -/
theorem slot_of_dropSlots {s t : State} {kf kl : Nat} (hg : t.generic = (dropSlots kf kl s).generic)
    (hb : t.boot = (dropSlots kf kl s).boot) (S : Slot) (b : WriteBlock) :
    t.slot S = some b ↔ s.slot S = some b ∧
      ¬ (s.cfg.eraseDropsBuffers = true ∧ ∃ k, s.cfg.sectorOf b.base.toNat = some k ∧ kf ≤ k ∧ k ≤ kl) := by
  rw [slot_congr hg hb, dropSlots_slot]

theorem keepsSlots_dropSlots {s t : State} {kf kl : Nat} (hg : t.generic = (dropSlots kf kl s).generic)
    (hb : t.boot = (dropSlots kf kl s).boot) : KeepsSlots s t :=
  fun S b h => ((slot_of_dropSlots hg hb S b).1 h).1

/-- Everything the body of `erase` can do: a request of length zero and one that is not valid change nothing, and any other runs
the loop after slots were dropped (R82). -/
theorem runErase_sat {s : State} (hs : s.Inv) (hi : s.initialised = true) (address length : Nat) :
    (runErase address length s).Sat
      (fun _ t => Ended (eraseTouches s.cfg address length) s t ∧ KeepsSlots s t)
      (fun _ t => Ended (eraseTouches s.cfg address length) s t ∧ KeepsSlots s t)
      (fun _ t => Lost (eraseTouches s.cfg address length) s t) := by
  have hsame := And.intro (Ended.refl hs (eraseTouches s.cfg address length)) (KeepsSlots.refl s)
  unfold runErase
  split_ifs with hlen
  · rcases zeroLength_cases s with h | h <;> rw [h] <;> exact hsame
  · split
    · exact hsame
    · next kf kl hv =>
      obtain ⟨hkf, hkl⟩ := validateErase_ok hv
      have hin : ∀ a, inSectors (sectorsBetween s.cfg kf kl) a → eraseTouches s.cfg address length a := by
        intro a ha
        obtain ⟨k, hk⟩ := (inSectors_sectorsBetween (Config.wf_clauses hs.config)).1 ha
        exact ⟨kf, kl, k, hlen, hkf, hkl, hk⟩
      have hdrop := ended_dropSlots hs hi kf kl (eraseTouches s.cfg address length)
      have hc := hdrop.only.cfg
      refine (eraseLoop_sat (sectorsBetween s.cfg kf kl) _ hdrop.inv (hdrop.only.initialised.trans hi)
        (hc.symm ▸ mem_sectors_of_between)).mono ?_ ?_ ?_
      · exact fun _ t h => ⟨(h.ended.mono hin).after hdrop.only hdrop.time hdrop.flash,
          keepsSlots_dropSlots h.generic h.boot⟩
      · rintro _ t ⟨h, hg, hb, _⟩
        exact ⟨(h.mono hin).after hdrop.only hdrop.time hdrop.flash, keepsSlots_dropSlots hg hb⟩
      · exact fun _ t h => (h.mono hin).after hdrop.only hdrop.time hdrop.flash

/-- Settles O33: the body touches its sectors only, and a slot is at most dropped. -/
theorem eraseChangesOnlyItsSectors : Obligations.EraseChangesOnlyItsSectors := by
  intro s t address length hs h
  obtain ⟨_, hi, h⟩ := engineCommand_next h
  have hsat := runErase_sat hs hi address.toNat length.toNat
  have htouch : (runErase address.toNat length.toNat s).Touches (eraseTouches s.cfg address.toNat length.toNat) s :=
    hsat.mono (fun _ _ h => h.1) (fun _ _ h => h.1) fun _ _ h => h
  obtain ⟨hflash, honly⟩ := htouch.frame h
  refine ⟨fun a ha => hflash a ?_, fun hti => ⟨honly hti, ?_⟩⟩
  · rintro ⟨kf, kl, k, h1, h2, h3, h4, h5, h6⟩
    have := ha kf kl k h1 h2 h3 h4
    omega
  · exact finish_sat (P := fun t => t.initialised = true → KeepsSlots s t) h hsat (fun _ h _ => h.2) (fun _ _ h _ => h.2)
      (fun _ _ _ h => absurd h (by simp)) hti

/-! ### The loop of erase, as far as its erases succeed -/

theorem eraseLoop_append (l m : List Sector) : ∀ s : State,
    eraseLoop (l ++ m) s = (eraseLoop l s).andThen fun _ t => eraseLoop m t := by
  induction l with
  | nil => exact fun _ => rfl
  | cons x rest ih =>
    intro s
    simp only [List.cons_append, eraseLoop]
    cases eraseSector x s with
    | ok a t => exact ih t
    | raised e t => rfl
    | powerLost c t => rfl
    | refused r => rfl
    | fault f => rfl

theorem State.ErasesWell.after {s t : State} {m n : Nat} (h : s.ErasesWell (m + n))
    (ht : t.nvmAnswers = s.nvmAnswers.drop m) : t.ErasesWell n := by
  obtain ⟨d, hd⟩ := h
  exact ⟨d, by rwa [ht, List.getElem?_drop]⟩

theorem startable_erase {s : State} {x : Sector} (hs : s.Inv) (ht : s.timedOut = false) (hx : x ∈ s.cfg.sectors) :
    Startable (.erase x) s :=
  ⟨ht, hs.idle ht, Config.covered_of_sector hx le_rfl le_rfl⟩

/-- Where its erases are answered well the loop goes on to the end; it has used one answer for each sector. -/
theorem eraseLoop_goes (l : List Sector) : ∀ s : State, s.Inv → s.initialised = true → s.timedOut = false →
    (∀ x ∈ l, x ∈ s.cfg.sectors) → (∀ n < l.length, s.ErasesWell n) →
    ∃ t, eraseLoop l s = .ok () t ∧ Erased l s t ∧ t.timedOut = false ∧ t.nvmAnswers = s.nvmAnswers.drop l.length := by
  intro s hs hi
  suffices h : s.timedOut = false → (∀ x ∈ l, x ∈ s.cfg.sectors) → (∀ n < l.length, s.ErasesWell n) →
      ∃ t, eraseLoop l s = .ok () t ∧ t.timedOut = false ∧ t.nvmAnswers = s.nvmAnswers.drop l.length by
    intro ht hl hw
    obtain ⟨t, hrun, hrest⟩ := h ht hl hw
    have hsat := eraseLoop_sat l s hs hi hl
    rw [hrun] at hsat
    exact ⟨t, hrun, hsat, hrest⟩
  induction l generalizing s with
  | nil => exact fun ht _ _ => ⟨s, rfl, ht, rfl⟩
  | cons x rest ih =>
    intro ht hl hw
    have hx := hl x List.mem_cons_self
    obtain ⟨t, hrun, hran, hidle, hmark⟩ := eraseSector_goes (startable_erase hs ht hx) (hw 0 (Nat.succ_pos _))
    have hdrop : t.nvmAnswers = s.nvmAnswers.drop 1 := by rw [hran.answers, List.drop_one]
    obtain ⟨u, hu, humark, huans⟩ := ih t (hran.inv hs hi ⟨x, hx, rfl⟩ (.inl hidle)) (hran.only.initialised.trans hi) hmark
      (fun y hy => hran.only.cfg.symm ▸ hl y (List.mem_cons_of_mem _ hy)) fun n hn =>
        (Nat.add_comm n 1 ▸ hw (n + 1) (Nat.succ_lt_succ hn)).after hdrop
    refine ⟨u, by rw [eraseLoop, hrun, Run.andThen_ok, hu], humark, ?_⟩
    rw [huans, hdrop, List.drop_drop, List.length_cons, Nat.add_comm]

/-- After its slots were dropped an `erase` still runs in a ready state. -/
theorem State.Ready.dropSlots {s : State} (hr : s.Ready) (kf kl : Nat) : (dropSlots kf kl s).Ready :=
  ⟨hr.inv.dropSlots hr.initialised kf kl, (onlyEngine_dropSlots kf kl s).initialised.trans hr.initialised,
    (dropSlots_timedOut kf kl s).trans hr.notTimedOut⟩

theorem length_sectorsBetween_le (c : Config) (kf kl : Nat) : (sectorsBetween c kf kl).length ≤ kl + 1 - kf :=
  List.length_take_le _ _

theorem State.Dependable.erasesWell {s : State} {n : Nat} (h : s.Dependable n) : ∀ k < n, s.ErasesWell k :=
  fun k hk => let ⟨d, hd⟩ := h k hk; ⟨d, .inl hd⟩

/-- Settles O32: every erase is answered well, so the loop goes on to the end. -/
theorem eraseErasesWholeSectors : Obligations.EraseErasesWholeSectors := by
  intro s address length kf kl hr hn hkf hkl hd
  have w := Config.wf_clauses hr.inv.config
  have ho := onlyEngine_dropSlots kf kl s
  have hdr := hr.dropSlots kf kl
  have hdd : (dropSlots kf kl s).Dependable (kl + 1 - kf) := hd.of_answers (dropSlots_nvmAnswers kf kl s)
  obtain ⟨t, hrun, herased, _⟩ := eraseLoop_goes (sectorsBetween s.cfg kf kl) _ hdr.inv hdr.initialised hdr.notTimedOut
    (ho.cfg.symm ▸ mem_sectors_of_between) fun n hn => hdd.erasesWell n (hn.trans_le (length_sectorsBetween_le s.cfg kf kl))
  have hend := engineCommand_of_ok (body := runErase address.toNat length.toNat) hr.inv.config hr.initialised
    ((runErase_of_sectors w hn hkf hkl).trans hrun)
  refine ⟨_, hend, herased.only.initialised.trans hdr.initialised, rfl,
    ho.trans (herased.only.trans (onlyEngine_answer t codeOk)), fun k x a h1 h2 hx h3 h4 => ?_, fun a ha => ?_,
    herased.physical.trans (by rw [dropSlots_physical]), slot_of_dropSlots herased.generic herased.boot⟩
  · have hin := (inSectors_sectorsBetween w).2 ⟨k, w.sectorOf_eq hx h3 h4, h1, h2⟩
    exact (herased.inside a hin).trans (congrArg Config.erasedByte ho.cfg)
  · refine (herased.flash a fun hin => ?_).trans (by rw [dropSlots_flash])
    obtain ⟨k, hk, h1, h2⟩ := (inSectors_sectorsBetween w).1 hin
    have := ha k hk
    omega

/-! ### An erase that fails (R163, R164, R168) -/

/-- The sectors from `kf` up to, and not with, the one of index `k`. -/
def sectorsUpTo (c : Config) (kf k : Nat) : List Sector := (c.sectors.drop kf).take (k - kf)

theorem mem_sectorsUpTo {c : Config} {kf k : Nat} {x : Sector} :
    x ∈ sectorsUpTo c kf k ↔ ∃ j, kf ≤ j ∧ j < k ∧ c.sectors[j]? = some x := by
  cases k with
  | zero => simp [sectorsUpTo]
  | succ k =>
    rw [sectorsUpTo, ← sectorsBetween, mem_sectorsBetween]
    simp only [Nat.lt_succ_iff]

theorem inSectors_sectorsUpTo {c : Config} (w : c.Wf) {kf k a : Nat} :
    inSectors (sectorsUpTo c kf k) a ↔ ∃ j, c.sectorOf a = some j ∧ kf ≤ j ∧ j < k :=
  inSectors_iff w fun x => by simp only [mem_sectorsUpTo, and_assoc]

theorem getElem?_drop_sectors {c : Config} {kf k : Nat} {x : Sector} (h : kf ≤ k) (hx : c.sectors[k]? = some x) :
    (c.sectors.drop kf)[k - kf]? = some x := by
  rw [List.getElem?_drop, Nat.add_sub_cancel' h, hx]

theorem length_sectorsUpTo {c : Config} {kf k : Nat} {x : Sector} (hx : c.sectors[k]? = some x) :
    (sectorsUpTo c kf k).length = k - kf := by
  have := (List.getElem?_eq_some_iff.1 hx).1
  rw [sectorsUpTo, List.length_take, List.length_drop]
  omega

/-- The sectors `kf` to `kl` are those before the one of index `k`, that one, and some more. -/
theorem sectorsBetween_split {c : Config} {kf k kl : Nat} {x : Sector} (h1 : kf ≤ k) (h2 : k ≤ kl)
    (hx : c.sectors[k]? = some x) : ∃ post, sectorsBetween c kf kl = sectorsUpTo c kf k ++ x :: post := by
  obtain ⟨hlt, hget⟩ := List.getElem?_eq_some_iff.1 (getElem?_drop_sectors h1 hx)
  refine ⟨((c.sectors.drop kf).drop (k - kf + 1)).take (kl - k), ?_⟩
  rw [sectorsBetween, sectorsUpTo, show kl + 1 - kf = (k - kf) + (kl - k + 1) by omega, List.take_add,
    List.drop_eq_getElem_cons hlt, hget, List.take_succ_cons]

theorem sectorsBetween_last {c : Config} {kf k : Nat} {x : Sector} (h : kf ≤ k) (hx : c.sectors[k]? = some x) :
    sectorsBetween c kf k = sectorsUpTo c kf k ++ [x] := by
  rw [sectorsBetween, sectorsUpTo, show k + 1 - kf = k - kf + 1 by omega, List.take_add_one, getElem?_drop_sectors h hx]
  rfl

/-- The loop of `erase` stops at the first sector whose erase fails: those before it are erased. -/
theorem eraseLoop_stops {pre post : List Sector} {x : Sector} {s : State} {d : NvmDraw} (hr : s.Ready)
    (hmem : ∀ y ∈ pre, y ∈ s.cfg.sectors) (hx : x ∈ s.cfg.sectors) (hw : ∀ n < pre.length, s.ErasesWell n)
    (hd : s.nvmAnswers[pre.length]? = some (.outcome d)) (hf : d.fin = .late ∨ d.status = .fault) :
    ∃ e t u, eraseLoop (pre ++ x :: post) s = .raised e u ∧ Erased pre s t ∧ Failed (.erase x) d e t u := by
  obtain ⟨t, hrun, herased, hmark, hans⟩ := eraseLoop_goes pre s hr.inv hr.initialised hr.notTimedOut hmem hw
  have hd' : t.nvmAnswers[0]? = some (.outcome d) := by rw [hans, List.getElem?_drop, Nat.add_zero, hd]
  obtain ⟨e, u, hu, hfail⟩ := eraseSector_fails (startable_erase herased.inv hmark (herased.only.cfg.symm ▸ hx)) hd' hf
  exact ⟨e, t, u, by rw [eraseLoop_append, hrun, Run.andThen_ok, eraseLoop, hu, Run.andThen_raised], herased, hfail⟩

section failed
variable {c : Config} (w : c.Wf) {kf k a : Nat} {x : Sector} (hx : c.sectors[k]? = some x) {s t u : State} (hc : t.cfg = c)
  {d : NvmDraw} {e : EngineError} (he : Erased (sectorsUpTo c kf k) s t) (hf : Failed (.erase x) d e t u)

include w hx hc hf

/-- The failed erase of the sector of index `k` may have changed that sector only (R109). -/
theorem Failed.flash_other_sector (ha : c.sectorOf a ≠ some k) : u.flash.read a = t.flash.read a := by
  refine hf.ran.flash_out fun h => ha ?_
  rw [hc] at h
  exact w.sectorOf_eq hx h.1 h.2

include he

/-- The sectors before the one that failed are erased. -/
theorem Failed.flash_before {j : Nat} (ha : c.sectorOf a = some j) (h1 : kf ≤ j) (h2 : j < k) :
    u.flash.read a = c.erasedByte := by
  rw [hf.flash_other_sector w hx hc (ha ▸ fun h => h2.ne (Option.some.inj h)),
    he.inside a ((inSectors_sectorsUpTo w).2 ⟨j, ha, h1, h2⟩), ← hc, he.only.cfg]

/-- The sectors after the one that failed, and every byte outside the request, are untouched. -/
theorem Failed.flash_untouched (hk : kf ≤ k) (ha : ∀ j, c.sectorOf a = some j → j < kf ∨ k < j) :
    u.flash.read a = s.flash.read a := by
  rw [hf.flash_other_sector w hx hc fun h => by have := ha k h; omega]
  refine he.flash a fun hin => ?_
  obtain ⟨j, hj, h1, h2⟩ := (inSectors_sectorsUpTo w).1 hin
  have := ha j hj
  omega

end failed

/-- Settles O34: the loop stops at the sector of index `k`, with the sectors before it erased. -/
theorem eraseStopsAtTheFirstFailure : Obligations.EraseStopsAtTheFirstFailure := by
  intro s address length kf kl k d hr hn hkf hkl h1 h2 hwell hans hbad
  have w := Config.wf_clauses hr.inv.config
  have ho := onlyEngine_dropSlots kf kl s
  obtain ⟨y, hy, _⟩ := Config.sectorOf_some hkl
  obtain ⟨x, hx⟩ : ∃ x, s.cfg.sectors[k]? = some x :=
    ⟨_, List.getElem?_eq_getElem (h2.trans_lt (List.getElem?_eq_some_iff.1 hy).1)⟩
  have hlen := length_sectorsUpTo (kf := kf) hx
  obtain ⟨post, hsplit⟩ := sectorsBetween_split h1 h2 hx
  have hmem : ∀ z ∈ sectorsUpTo s.cfg kf k, z ∈ (dropSlots kf kl s).cfg.sectors := by
    intro z hz
    obtain ⟨j, _, _, hj⟩ := mem_sectorsUpTo.1 hz
    exact ho.cfg.symm ▸ List.mem_of_getElem? hj
  have hwell' : ∀ n < (sectorsUpTo s.cfg kf k).length, (dropSlots kf kl s).ErasesWell n := fun n hn =>
    (Nat.zero_add n ▸ hwell n (hlen ▸ hn)).after (m := 0) (dropSlots_nvmAnswers kf kl s)
  obtain ⟨e, t, u, hrun, herased, hfail⟩ := eraseLoop_stops (post := post) (hr.dropSlots kf kl) hmem
    (ho.cfg.symm ▸ List.mem_of_getElem? hx) hwell' (by rw [dropSlots_nvmAnswers, hlen]; exact hans) hbad
  have hend := engineCommand_of_raised (body := runErase address.toNat length.toNat) hr.inv.config hr.initialised
    ((runErase_of_sectors w hn hkf hkl).trans (hsplit ▸ hrun))
  have hran := hfail.ran
  have hct : t.cfg = s.cfg := herased.only.cfg.trans ho.cfg
  refine ⟨_, hend, ho.trans (herased.only.trans (hran.only.trans (onlyEngine_answer u e.code))), hfail.code.trans ?_,
    hran.physical.trans ?_, hfail.status, hfail.busy, hfail.mark, fun hlate => ?_, fun j z a h3 h4 hz h5 h6 => ?_,
    fun a ha => ?_, slot_of_dropSlots (hran.generic.trans herased.generic) (hran.boot.trans herased.boot)⟩
  · rcases hbad with hbad | hbad <;> simp [hbad]
  · rw [herased.physical, dropSlots_physical, sectorsBetween_last h1 hx]
    simp [NvmOp.event]
  · have hlong := hfail.time hlate
    have hbefore := herased.time
    rw [hct] at hlong
    rw [dropSlots_now] at hbefore
    exact (Nat.add_le_add_right hbefore _).trans_lt hlong
  · exact Failed.flash_before (u := u) w hx hct herased hfail (w.sectorOf_eq hz h5 h6) h3 h4
  · exact (hfail.flash_untouched w hx hct herased h1 ha).trans (by rw [dropSlots_flash])

end Sys2Proof.Machine

/-! PROOFS. The checksum (R87), the command that stages it (R83) and the one that tests it (R84). -/

namespace Sys2Proof.Machine

/-! ### The checksum function (R87) -/

theorem toNat_vectorSum (w : Nat → Word) :
    (vectorSum w).toNat =
      ((w 0).toNat + (w 1).toNat + (w 2).toNat + (w 3).toNat + (w 4).toNat + (w 5).toNat) % 2 ^ 32 := by
  simp only [vectorSum, BitVec.toNat_add, Nat.mod_add_mod]

theorem vectorSum_add_checksum (w : Nat → Word) : vectorSum w + checksum w = 0 := BitVec.add_right_neg _

/-- Settles O35: the checksum is the negation of the sum. -/
theorem checksumIsTheTwosComplementOfTheSum : Obligations.ChecksumIsTheTwosComplementOfTheSum := by
  intro w
  exact ⟨by rw [checksum, BitVec.toNat_neg, toNat_vectorSum], vectorSum_add_checksum w⟩

theorem vectorSum_eq_sum (w : Nat → Word) : vectorSum w = ∑ j ∈ Finset.range 6, w j := by
  simp [vectorSum, Finset.sum_range_succ]

theorem vectorSum_congr {w w' : Nat → Word} (h : ∀ j < 6, w j = w' j) : vectorSum w = vectorSum w' := by
  rw [vectorSum_eq_sum, vectorSum_eq_sum]
  exact Finset.sum_congr rfl fun j hj => h j (Finset.mem_range.1 hj)

/-- Words of the same sum that agree but for one of the six agree there too. -/
theorem eq_of_vectorSum_eq {w w' : Nat → Word} {j : Nat} (hj : j < 6) (h : ∀ i < 6, i ≠ j → w i = w' i)
    (hsum : vectorSum w = vectorSum w') : w j = w' j := by
  have hmem := Finset.mem_range.2 hj
  have hrest : ∑ i ∈ (Finset.range 6).erase j, w i = ∑ i ∈ (Finset.range 6).erase j, w' i := by
    refine Finset.sum_congr rfl fun i hi => ?_
    obtain ⟨hne, hi⟩ := Finset.mem_erase.1 hi
    exact h i (Finset.mem_range.1 hi) hne
  rw [vectorSum_eq_sum, vectorSum_eq_sum, ← Finset.add_sum_erase _ w hmem, ← Finset.add_sum_erase _ w' hmem, hrest] at hsum
  exact add_right_cancel hsum

/-! ### Words in flash and in a buffer (R10, R41) -/

theorem wordInFlash_congr {f g : Flash} {x : Nat} (order : WordOrder) (h : ∀ k < 4, f.read (x + k) = g.read (x + k)) :
    wordInFlash order f x = wordInFlash order g x := by
  rw [wordInFlash, wordInFlash, h 1 (by decide), h 2 (by decide), h 3 (by decide), show f.read x = g.read x from h 0 (by decide)]

/-- Equal words are of equal bytes. -/
theorem read_eq_of_wordInFlash_eq {f g : Flash} {x : Nat} {order : WordOrder}
    (h : wordInFlash order f x = wordInFlash order g x) : ∀ k < 4, f.read (x + k) = g.read (x + k) := by
  have hbytes := congrArg (bytesOf order) h
  simp only [wordInFlash, bytesOf_wordOf, List.cons.injEq, and_true] at hbytes
  obtain ⟨h0, h1, h2, h3⟩ := hbytes
  intro k hk
  interval_cases k
  · exact h0
  · exact h1
  · exact h2
  · exact h3

theorem wordInBuffer_congr {l m : List Byte} {i j : Nat} (order : WordOrder) (h : ∀ k < 4, l[i + k]? = m[j + k]?) :
    wordInBuffer order l i = wordInBuffer order m j := by
  have hget : ∀ k < 4, l.getD (i + k) 0 = m.getD (j + k) 0 := fun k hk => by
    rw [List.getD_eq_getElem?_getD, List.getD_eq_getElem?_getD, h k hk]
  rw [wordInBuffer, wordInBuffer, hget 1 (by decide), hget 2 (by decide), hget 3 (by decide),
    show l.getD i 0 = m.getD j 0 from hget 0 (by decide)]

/-- Where flash reads as a buffer, the words in flash are those of the buffer. -/
theorem wordInFlash_of_readBytes {f : Flash} {B n i : Nat} {buffer : List Byte} (order : WordOrder)
    (h : f.readBytes B n = buffer) (hi : i + 4 ≤ n) : wordInFlash order f (B + i) = wordInBuffer order buffer i := by
  have hget : ∀ k < 4, buffer.getD (i + k) 0 = f.read (B + i + k) := fun k hk => by
    rw [List.getD_eq_getElem?_getD, ← h, Flash.getElem?_readBytes, if_pos (by omega), Nat.add_assoc, Option.getD_some]
  rw [wordInFlash, wordInBuffer, hget 1 (by decide), hget 2 (by decide), hget 3 (by decide),
    show buffer.getD i 0 = f.read (B + i) from hget 0 (by decide)]

@[simp] theorem length_bytesOf (order : WordOrder) (w : Word) : (bytesOf order w).length = 4 := by
  cases order <;> rfl

/-! ### write_checksum (R83) -/

/-- The boot block with the checksum of its six vector words at CHECKSUM_OFFSET. -/
def WriteBlock.withChecksum (c : Config) (b : WriteBlock) : WriteBlock :=
  ⟨b.base, b.buffer.take c.checksumOffset ++ bytesOf c.wordOrder (bufferChecksum c.wordOrder b.buffer) ++
    b.buffer.drop (c.checksumOffset + 4)⟩

/-- A part of the boot block lies in a sector (R21, R23(d)). -/
theorem covered_boot {c : Config} (w : c.Wf) {a n : Nat} (h1 : c.bootBase ≤ a)
    (h2 : a + n ≤ c.bootBase + c.blockSize) : c.covered a n = true := by
  obtain ⟨x, hx, h3, h4⟩ := w.bootBlock_inside
  exact Config.covered_of_sector hx (h3.trans h1) (h2.trans h4)

theorem runWriteChecksum_of_boot {s : State} (hs : s.Inv) {b : WriteBlock} (hb : s.boot = some b) :
    runWriteChecksum s = .ok () { s with boot := some (b.withChecksum s.cfg) } := by
  have w := Config.wf_clauses hs.config
  have hlow := w.offsetLow
  have hhigh := w.offsetHigh
  have hchk : s.cfg.chkAddr = s.cfg.bootBase + s.cfg.checksumOffset := rfl
  have hblock : s.cfg.blockBase s.cfg.chkAddr = s.cfg.bootBase :=
    w.blockBase_of_inBlock w.bootBase_mod (by omega) (by omega)
  have hbase : BitVec.ofNat 32 s.cfg.bootBase = b.base := by rw [← (hs.boot b hb).2, BitVec.ofNat_toNat, BitVec.setWidth_eq]
  have hrun := runWrite_inside (S := .boot) (old := b.buffer) hs
    (bytes := bytesOf s.cfg.wordOrder (bufferChecksum s.cfg.wordOrder b.buffer)) (address := s.cfg.chkAddr)
    (List.ne_nil_of_length_eq_add_one (length_bytesOf _ _))
    (covered_boot w (by omega) (by rw [length_bytesOf]; omega)) (by rw [length_bytesOf, hblock]; omega)
    (by rw [hblock, if_pos rfl]) (.inr (by rw [hblock, hbase]; exact hb))
  rw [hblock, hbase, length_bytesOf, show s.cfg.chkAddr - s.cfg.bootBase = s.cfg.checksumOffset by omega] at hrun
  rw [runWriteChecksum, hb]
  exact hrun

/-- Settles O37: with a valid boot slot `write_checksum` is a `write` inside the block it holds. -/
theorem writeChecksumStagesTheChecksum : Obligations.WriteChecksumStagesTheChecksum := by
  intro s hs hi
  refine ⟨fun hb => ?_, fun b hb => ?_⟩
  · have hbody : runWriteChecksum s = .ok () s := by rw [runWriteChecksum, hb]
    exact ⟨_, engineCommand_of_ok hs.config hi hbody, answered_answer s codeOk⟩
  · exact ⟨_, engineCommand_of_ok hs.config hi (runWriteChecksum_of_boot hs hb), answered_answer _ codeOk⟩

section withChecksum
variable {c : Config} {b : WriteBlock} (hl : b.buffer.length = c.blockSize) (w : c.Wf)

include hl w

/-- The vector words stay as they were. -/
theorem wordInBuffer_withChecksum_vector {j : Nat} (hj : j < 6) :
    wordInBuffer c.wordOrder (b.withChecksum c).buffer (4 * j) = wordInBuffer c.wordOrder b.buffer (4 * j) := by
  have hlow := w.offsetLow
  have hhigh := w.offsetHigh
  refine wordInBuffer_congr _ fun k hk => ?_
  rw [WriteBlock.withChecksum, List.append_assoc, List.getElem?_append_left (by rw [List.length_take]; omega),
    List.getElem?_take, if_pos (by omega)]

/-- The word at CHECKSUM_OFFSET is the checksum. -/
theorem wordInBuffer_withChecksum_checksum :
    wordInBuffer c.wordOrder (b.withChecksum c).buffer c.checksumOffset = bufferChecksum c.wordOrder b.buffer := by
  have hhigh := w.offsetHigh
  have hlen : (b.buffer.take c.checksumOffset).length = c.checksumOffset := by rw [List.length_take]; omega
  conv_rhs => rw [← wordInBuffer_bytesOf c.wordOrder (bufferChecksum c.wordOrder b.buffer)]
  refine wordInBuffer_congr _ fun k hk => ?_
  rw [WriteBlock.withChecksum, List.append_assoc, List.getElem?_append_right (by omega), hlen, Nat.add_sub_cancel_left,
    List.getElem?_append_left (by rw [length_bytesOf]; exact hk), Nat.zero_add]

/-- Flash that holds a boot block with its checksum sums to zero (R84, R87). -/
theorem flashSum_withChecksum {f : Flash} (h : f.readBytes c.bootBase c.blockSize = (b.withChecksum c).buffer) :
    flashSum c f = 0 := by
  have hlow := w.offsetLow
  have hhigh := w.offsetHigh
  have hvec : ∀ j < 6, wordInFlash c.wordOrder f (c.vec j) = wordInBuffer c.wordOrder b.buffer (4 * j) := fun j hj =>
    (wordInFlash_of_readBytes c.wordOrder h (by omega)).trans (wordInBuffer_withChecksum_vector hl w hj)
  have hchk : wordInFlash c.wordOrder f c.chkAddr = bufferChecksum c.wordOrder b.buffer :=
    (wordInFlash_of_readBytes c.wordOrder h hhigh).trans (wordInBuffer_withChecksum_checksum hl w)
  rw [flashSum, vectorSum_congr hvec, hchk]
  exact vectorSum_add_checksum _

end withChecksum

/-! ### verify_checksum (R84) -/

theorem exec_verifyChecksum {s : State} (hw : s.cfg.wf = true) :
    exec .verifyChecksum s = .next ((s.setResult codeOk).setFlag (decide (flashSum s.cfg s.flash = 0))) := by
  have w := Config.wf_clauses hw
  have hlow := w.offsetLow
  have hhigh := w.offsetHigh
  have hvec : s.cfg.covered s.cfg.bootBase 24 = true := covered_boot w le_rfl (by omega)
  have hchk : s.cfg.covered s.cfg.chkAddr 4 = true := covered_boot w (Nat.le_add_right _ _) (by rw [Config.chkAddr]; omega)
  show execVerifyChecksum s = _
  rw [execVerifyChecksum, configured_of_wf hw, hvec, hchk]
  rfl

theorem flashSum_eq_zero_iff (c : Config) (f : Flash) :
    flashSum c f = 0 ↔
      ((wordInFlash c.wordOrder f c.bootBase).toNat + (wordInFlash c.wordOrder f (c.bootBase + 4)).toNat +
        (wordInFlash c.wordOrder f (c.bootBase + 8)).toNat + (wordInFlash c.wordOrder f (c.bootBase + 12)).toNat +
        (wordInFlash c.wordOrder f (c.bootBase + 16)).toNat + (wordInFlash c.wordOrder f (c.bootBase + 20)).toNat +
        (wordInFlash c.wordOrder f (c.bootBase + c.checksumOffset)).toNat) % 2 ^ 32 = 0 := by
  rw [← BitVec.toNat_inj, flashSum, BitVec.toNat_add, toNat_vectorSum, Nat.mod_add_mod]
  rfl

/-- Settles O38: the sum of words is the sum of their values modulo 2^32. -/
theorem verifyChecksumTestsTheSumInFlash : Obligations.VerifyChecksumTestsTheSumInFlash := by
  intro s hw
  rw [exec_verifyChecksum hw]
  simp only [flashSum_eq_zero_iff]
  rfl

/-- One changed byte of the six vector words changes the sum. -/
theorem flashSum_write_ne {c : Config} (w : c.Wf) {f : Flash} (hf : f.wf = true) {a : Nat} {v : Byte}
    (h1 : c.bootBase ≤ a) (h2 : a < c.bootBase + 24) (hv : v ≠ f.read a) : flashSum c (f.write a v) ≠ flashSum c f := by
  have hlow := w.offsetLow
  intro hsum
  obtain ⟨i, hi, rfl⟩ : ∃ i < 24, a = c.bootBase + i := ⟨a - c.bootBase, by omega, by omega⟩
  have hother : ∀ x, (∀ k < 4, x + k ≠ c.bootBase + i) →
      wordInFlash c.wordOrder (f.write (c.bootBase + i) v) x = wordInFlash c.wordOrder f x :=
    fun x hx => wordInFlash_congr _ fun k hk => Flash.read_write_ne f v (hx k hk)
  have hchk := hother c.chkAddr fun k _ => by rw [Config.chkAddr]; omega
  rw [flashSum, flashSum, hchk] at hsum
  have hword := eq_of_vectorSum_eq (j := i / 4) (by omega)
    (fun j _ hj => hother (c.vec j) fun k hk => by rw [Config.vec]; omega) (add_right_cancel hsum)
  have hbyte := read_eq_of_wordInFlash_eq hword (i % 4) (by omega)
  rw [show c.vec (i / 4) + i % 4 = c.bootBase + i by rw [Config.vec]; omega, Flash.read_write_same _ v hf] at hbyte
  exact hv hbyte

/-- Settles O39: the sum was zero before and differs after. -/
theorem aMutatedVectorByteFailsVerification : Obligations.AMutatedVectorByteFailsVerification := by
  intro s a v t hs h1 h2 hv h hflag
  rw [exec_verifyChecksum hs.config] at h
  cases h
  have hzero : flashSum s.cfg s.flash = 0 := of_decide_eq_true hflag
  refine ⟨_, exec_verifyChecksum hs.config, decide_eq_false ?_⟩
  exact hzero ▸ flashSum_write_ne (Config.wf_clauses hs.config) hs.flash h1 h2 hv

end Sys2Proof.Machine

/-! PROOFS. `finalize` (R85): what it commits, its frame, its success on a device that meets R110, the failures it reports, and
what a loss of power in it spares; and a session that ends with it (R193). -/

namespace Sys2Proof.Machine

/-! ### What finalize commits -/

/-- A body that goes on to its end committed the generic slot first and the boot slot last (R85, D14). -/
theorem runFinalize_ok {s u : State} (hs : s.Inv) (hi : s.initialised = true) (h : runFinalize s = .ok () u) :
    ∃ t, Committed .generic s t ∧ Committed .boot t u := by
  obtain ⟨_, t, hgen, hboot⟩ := Run.andThen_eq_ok.1 h
  have hg := commitSlot_sat (S := .generic) hs hi
  rw [hgen] at hg
  have hb := commitSlot_sat (S := .boot) hg.inv (hg.only.initialised.trans hi)
  rw [hboot] at hb
  exact ⟨t, hg, hb⟩

/-- The boot slot is as it was once the generic one is committed. -/
theorem Committed.boot_of_generic {s t : State} (h : Committed .generic s t) : t.boot = s.boot := h.other .boot (by decide)

/-- Once both slots are committed they are invalid, and flash is the staged view. -/
theorem Committed.both {s t u : State} (hg : Committed .generic s t) (hb : Committed .boot t u) :
    u.generic = none ∧ u.boot = none ∧ (∀ a, u.flash.read a = s.view a) := by
  have hgen : u.generic = none := (hb.other .generic (by decide)).trans hg.slot
  refine ⟨hgen, hb.slot, fun a => ?_⟩
  rw [← u.view_of_empty hgen hb.slot, hb.view, hg.view]

theorem Committed.physical_both {s t u : State} (hg : Committed .generic s t) (hb : Committed .boot t u) :
    u.physical = s.physical ++ (s.generic.toList ++ s.boot.toList).map fun b => Event.program b.base := by
  rw [hb.physical, hg.physical, State.slot_generic, State.slot_boot, hg.boot_of_generic, List.map_append, List.append_assoc]

/-- Settles O41: an Ok answer means that both commits went on. -/
theorem finalizeCommitsTheStagedView : Obligations.FinalizeCommitsTheStagedView := by
  intro s t hs h hti hok
  obtain ⟨_, hi, h⟩ := engineCommand_next h
  obtain ⟨u, hrun, rfl⟩ := finish_answersOk h hti hok
  obtain ⟨t, hg, hb⟩ := runFinalize_ok hs hi hrun
  obtain ⟨h1, h2, h3⟩ := hg.both hb
  exact ⟨h1, h2, h3, hg.physical_both (u := u) hb⟩

/-! ### The frame of finalize (R109) -/

theorem runFinalize_touches {s : State} (hs : s.Inv) (hi : s.initialised = true) :
    (runFinalize s).Touches (fun a => inSlot s.cfg s.generic a ∨ inSlot s.cfg s.boot a) s := by
  refine Run.Sat.andThen ((commitSlot_sat (S := .generic) hs hi).mono (fun _ _ h => h) (fun _ _ h => h.mono fun _ => .inl)
    fun _ _ h => h.mono fun _ => .inl) ?_
  intro _ t ht
  have hin : ∀ a, inSlot t.cfg (t.slot .boot) a → inSlot s.cfg s.generic a ∨ inSlot s.cfg s.boot a := by
    rw [State.slot_boot, ht.boot_of_generic, ht.only.cfg]
    exact fun _ => .inr
  have hflash : ∀ a, ¬ (inSlot s.cfg s.generic a ∨ inSlot s.cfg s.boot a) → t.flash.read a = s.flash.read a :=
    fun a ha => ht.flash a fun h => ha (.inl h)
  refine (commitSlot_sat (S := .boot) ht.inv (ht.only.initialised.trans hi)).mono ?_ ?_ ?_
  · exact fun _ _ h => (h.ended.mono hin).after ht.only ht.time hflash
  · exact fun _ _ h => (h.mono hin).after ht.only ht.time hflash
  · exact fun _ _ h => (h.mono hin).after ht.only ht.time hflash

/-- Settles O45: each commit touches the block of its own slot. -/
theorem finalizeChangesOnlyTheStagedBlocks : Obligations.FinalizeChangesOnlyTheStagedBlocks := by
  intro s t hs h
  obtain ⟨_, hi, h⟩ := engineCommand_next h
  obtain ⟨hflash, honly⟩ := (runFinalize_touches hs hi).frame h
  exact ⟨fun a hg hb => hflash a fun hx => hx.elim hg hb, honly⟩

/-! ### A finalize that succeeds, and one that fails (R110, R163 to R165, R168) -/

/-- No byte of BOOT_RANGE lies in the block of the generic slot (R23). -/
theorem State.Inv.not_inSlot_generic {s : State} (hs : s.Inv) {a : Nat} (ha : inBootRange s.cfg a) :
    ¬ inSlot s.cfg s.generic a :=
  fun h => hs.not_inBootRange_of_writeTouches (a := 0) (n := 0) (.inl h) ha

/-- The commit of the generic slot leaves BOOT_RANGE as it was. -/
theorem Committed.flash_boot {s t : State} (h : Committed .generic s t) (hs : s.Inv) {a : Nat} (ha : inBootRange s.cfg a) :
    t.flash.read a = s.flash.read a :=
  h.flash a (hs.not_inSlot_generic ha)

/-- The boot block is erased after the commit of the generic slot exactly where it was before. -/
theorem Committed.blockErased_boot_iff {s t : State} (h : Committed .generic s t) (hs : s.Inv) :
    t.BlockErased s.cfg.bootBase ↔ s.BlockErased s.cfg.bootBase := by
  refine ⟨fun he => he.of_flash h.only.cfg.symm fun a ha => ?_, fun he => he.of_flash h.only.cfg fun a ha => ?_⟩
  · rw [h.only.cfg] at ha
    exact (h.flash_boot hs ha).symm
  · exact h.flash_boot hs ha

/-- Settles O42: each of the two programs is of an erased block, the boot block being untouched by the first. -/
theorem finalizeSucceedsOnADependableDevice : Obligations.FinalizeSucceedsOnADependableDevice := by
  intro s hr hd he
  obtain ⟨hs, hi, ht⟩ := hr
  obtain ⟨t, hgen, htt, hdt⟩ := commitSlot_sound (S := .generic) hs ht hd (he .generic)
  have hg := commitSlot_sat (S := .generic) hs hi
  rw [hgen] at hg
  have heb : ∀ b, t.slot .boot = some b → t.BlockErased b.base.toNat := by
    intro b hb
    rw [State.slot_boot, hg.boot_of_generic] at hb
    have hbase := (hs.boot b hb).2
    exact hbase ▸ (hg.blockErased_boot_iff hs).2 (hbase ▸ he .boot b hb)
  obtain ⟨u, hboot, _⟩ := commitSlot_sound (S := .boot) hg.inv htt hdt heb
  have hb := commitSlot_sat (S := .boot) hg.inv (hg.only.initialised.trans hi)
  rw [hboot] at hb
  have hbody : runFinalize s = .ok () u := by rw [runFinalize, hgen, Run.andThen_ok, hboot]
  have honly := hg.only.trans hb.only
  exact ⟨_, engineCommand_of_ok hs.config hi hbody, honly.initialised.trans hi, rfl, honly.trans (onlyEngine_answer u codeOk),
    hg.both (u := u) hb⟩

/-- The commit of a slot whose program is answered well goes on, and uses one answer where the slot is valid. -/
theorem commitSlot_goes {S : Slot} {s : State} (hr : s.Ready) (hw : ∀ b, s.slot S = some b → s.ProgramsWell 0 b) :
    ∃ t, commitSlot S s = .ok () t ∧ Committed S s t ∧ t.timedOut = false ∧
      t.nvmAnswers = s.nvmAnswers.drop (s.slot S).toList.length := by
  obtain ⟨hs, hi, ht⟩ := hr
  have hsat := commitSlot_sat (S := S) hs hi
  cases hb : s.slot S with
  | none =>
    rw [commitSlot_of_none hb] at hsat ⊢
    exact ⟨s, rfl, hsat, ht, rfl⟩
  | some b =>
    obtain ⟨t, hrun, hran, _, hmark⟩ := programBlock_goes (startable_program hs ht hb) (hs.slotOk hb).length hs.flash (hw b hb)
    rw [commitSlot_of_some hb, hrun, Run.andThen_ok] at hsat ⊢
    exact ⟨_, rfl, hsat, by simpa using hmark, by simp [hran.answers]⟩

/-- How a failed program ends the commit of its slot. -/
theorem commitSlot_fails {S : Slot} {s : State} {b : WriteBlock} {d : NvmDraw} (hs : s.Inv) (ht : s.timedOut = false)
    (hb : s.slot S = some b) (hd : s.Draws 0 b.base.toNat d) (hf : failsProgram s.cfg b d) :
    ∃ e t, commitSlot S s = .raised e t ∧ Failed (.program b) d e s t := by
  obtain ⟨e, t, hrun, hfail⟩ := programBlock_fails (startable_program hs ht hb) (hs.slotOk hb).length hs.flash hd hf
  exact ⟨e, t, by rw [commitSlot_of_some hb, hrun, Run.andThen_raised], hfail⟩

/-- A `finalize` that a failed program of `b` ends, started in a state `t` that `finalize` reached from `s`. -/
theorem finalize_of_failed {s t u : State} {b : WriteBlock} {d : NvmDraw} {e : EngineError} (hr : s.Ready)
    (hrun : runFinalize s = .raised e u) (ho : OnlyEngine s t) (hn : s.now ≤ t.now) (hf : Failed (.program b) d e t u) :
    ∃ v, exec .finalize s = .next v ∧ OnlyEngine s v ∧
      v.result = (if d.fin = .late then 3 else if d.status = .fault then 4 else 5) ∧
      v.generic = t.generic ∧ v.boot = t.boot ∧ v.physical = t.physical ++ [.program b.base] ∧
      v.nvmStatus = d.status ∧ v.nvmBusy = decide (d.fin = .late) ∧ v.timedOut = decide (d.fin = .late) ∧
      (d.fin = .late → s.now + s.cfg.programTimeout < v.now) ∧
      ∀ a, ¬ inBlock s.cfg b.base.toNat a → v.flash.read a = t.flash.read a := by
  have hran := hf.ran
  refine ⟨u.takeError e, engineCommand_of_raised hr.inv.config hr.initialised hrun,
    ho.trans (hran.only.trans (onlyEngine_answer u e.code)), hf.code, hran.generic, hran.boot, hran.physical, hf.status,
    hf.busy, hf.mark, fun hlate => ?_, fun a ha => hran.flash_out ?_⟩
  · have ht := hf.time hlate
    rw [ho.cfg] at ht
    exact (Nat.add_le_add_right hn _).trans_lt ht
  · rw [ho.cfg]
    exact ha

/-- The answer for the boot block's program is still to come after the commit of the generic slot. -/
theorem Committed.draws {s t : State} {b : WriteBlock} {d : NvmDraw} (h : Committed .generic s t) (hs : s.Inv)
    (hb : s.boot = some b) (ha : t.nvmAnswers = s.nvmAnswers.drop s.generic.toList.length)
    (hd : s.Draws s.generic.toList.length b.base.toNat d) : t.Draws 0 b.base.toNat d := by
  have hget : t.nvmAnswers[0]? = s.nvmAnswers[s.generic.toList.length]? := by rw [ha, List.getElem?_drop, Nat.add_zero]
  rw [State.Draws, hget, (hs.boot b hb).2, h.blockErased_boot_iff hs]
  exact (hs.boot b hb).2 ▸ hd

/-- Outside the boot slot's block, with the generic slot invalid, flash is the staged view. -/
theorem view_outside_boot {s : State} {b : WriteBlock} (hs : s.Inv) (hg : s.generic = none) (hb : s.boot = some b) {a : Nat}
    (ha : ¬ inBlock s.cfg b.base.toNat a) : s.view a = s.flash.read a := by
  simp [State.view, State.staged, hg, hb, WriteBlock.byteAt_none (hs.boot b hb).1.length ha]

/-- Settles O44: the generic block's program fails the first commit; the boot block's the second, which starts where the first
left off. -/
theorem finalizeReportsTheFirstFailure : Obligations.FinalizeReportsTheFirstFailure := by
  intro s b d hr hf
  refine ⟨fun hg hd => ?_, fun hb hw hd => ?_⟩
  · obtain ⟨e, u, hrun, hfail⟩ := commitSlot_fails (S := .generic) hr.inv hr.notTimedOut hg hd hf
    exact finalize_of_failed hr (by rw [runFinalize, hrun, Run.andThen_raised]) (OnlyEngine.refl s) le_rfl hfail
  · obtain ⟨t, hgen, hc, htt, hans⟩ := commitSlot_goes (S := .generic) hr hw
    have htb : t.boot = some b := hc.boot_of_generic.trans hb
    obtain ⟨e, u, hrun, hfail⟩ := commitSlot_fails (S := .boot) hc.inv htt htb (hc.draws hr.inv hb hans hd)
      (hc.only.cfg.symm ▸ hf)
    obtain ⟨v, hv, honly, hres, hvg, hvb, hphys, hst, hbusy, hmark, htime, hflash⟩ := finalize_of_failed hr
      (by rw [runFinalize, hgen, Run.andThen_ok, hrun]) hc.only hc.time hfail
    refine ⟨v, hv, honly, hres, hvg.trans hc.slot, hvb.trans hc.boot_of_generic, ?_, hst, hbusy, hmark, htime, fun a ha => ?_⟩
    · rw [hphys, hc.physical, State.slot_generic, List.map_append, List.append_assoc, List.map_singleton]
    · rw [hflash a ha, ← view_outside_boot hc.inv hc.slot htb (hc.only.cfg.symm ▸ ha), hc.view]

/-! ### Power lost before the boot block's program (R192, R194) -/

/-- An operation whose answer cuts the power ends in a loss of power; flash is as it was, and idle, if it is cut before. -/
theorem physicalOp_cut {op : NvmOp} {s : State} {x : NvmAnswer} (hx : s.nvmAnswers[0]? = some x) (hk : keepsPower x = false) :
    (physicalOp op s).Sat (fun _ _ => False) (fun _ _ => False)
      fun _ t => x = .cutBefore → t.flash = s.flash ∧ t.inFlight = none := by
  rcases physicalOp_cases op s with ⟨r, h⟩ | ⟨f, h⟩ | hs
  · rw [h]; trivial
  · rw [h]; trivial
  · rw [physicalOp_of_startable hs]
    cases hn : s.nvmAnswers with
    | nil => rw [hn] at hx; cases hx
    | cons y rest =>
      rw [hn] at hx
      cases hx
      cases x with
      | outcome d => cases hk
      | sound d => cases hk
      | cutBefore =>
        simp only [State.nextAnswer, hn]
        exact fun _ => ⟨rfl, hs.idle⟩
      | cutDuring content =>
        simp only [State.nextAnswer, hn]
        exact nofun

theorem commitSlot_cut {S : Slot} {s : State} {b : WriteBlock} {x : NvmAnswer} (hb : s.slot S = some b)
    (hx : s.nvmAnswers[0]? = some x) (hk : keepsPower x = false) :
    (commitSlot S s).Sat (fun _ _ => False) (fun _ _ => False)
      fun _ t => x = .cutBefore → t.flash = s.flash ∧ t.inFlight = none := by
  rw [commitSlot_of_some hb]
  refine Run.Sat.andThen (ok := fun _ _ => False) ?_ fun _ _ h => h.elim
  exact Run.Sat.andThen (physicalOp_cut hx hk) fun _ _ h => h.elim

/-- However the command that ends with this piece ends, BOOT_RANGE in flash is as in `s`. -/
def Run.SparesBootRange (s : State) (r : Run Unit) : Prop :=
  r.Sat (fun _ t => ∀ a, inBootRange s.cfg a → t.flash.read a = s.flash.read a)
    (fun _ t => ∀ a, inBootRange s.cfg a → t.flash.read a = s.flash.read a)
    fun c t => ∀ a, inBootRange s.cfg a → (t.powerReset c).flash.read a = s.flash.read a

/-- Power lost before or in the generic block's program: at most its block is changed. -/
theorem runFinalize_cut_generic {s : State} {x : NvmAnswer} (hs : s.Inv) (hi : s.initialised = true)
    (hg : s.generic ≠ none) (hx : s.nvmAnswers[0]? = some x) (hk : keepsPower x = false) :
    (runFinalize s).SparesBootRange s := by
  obtain ⟨b, hb⟩ := Option.ne_none_iff_exists'.1 hg
  refine Run.Sat.andThen (ok := fun _ _ => False) ?_ fun _ _ h => h.elim
  refine ((commitSlot_sat (S := .generic) hs hi).and (commitSlot_cut (S := .generic) hb hx hk)).mono
    (fun _ _ h => h.2) (fun _ _ h => h.2.elim) ?_
  exact fun c t h a ha => h.1.flash c a (hs.not_inSlot_generic ha)

/-- A commit that goes on used one answer where the slot is valid. -/
theorem commitSlot_answers {S : Slot} {s : State} (hs : s.Inv) :
    (commitSlot S s).Sat (fun _ t => t.nvmAnswers = s.nvmAnswers.drop (s.slot S).toList.length) (fun _ _ => True)
      fun _ _ => True := by
  cases hb : s.slot S with
  | none => rw [commitSlot_of_none hb]; exact rfl
  | some b =>
    rw [commitSlot_of_some hb]
    refine Run.Sat.andThen ((programBlock_sat (hs.slotOk hb).length).mono (fun _ _ h => h.1) (fun _ _ _ => trivial)
      fun _ _ _ => trivial) fun _ t h => ?_
    show (t.setSlot S none).nvmAnswers = _
    simp [h.answers]

/-- Power lost before the boot block's program, or nothing to program there: BOOT_RANGE is as it was. -/
theorem commitBoot_cutBefore {s : State} (hx : s.nvmAnswers[0]? = some .cutBefore) :
    (commitSlot .boot s).SparesBootRange s := by
  cases hb : s.boot with
  | none => rw [commitSlot_of_none (S := .boot) hb]; exact fun _ _ => rfl
  | some b =>
    refine (commitSlot_cut (S := .boot) hb hx rfl).mono (fun _ _ h => h.elim) (fun _ _ h => h.elim) fun c t h a _ => ?_
    obtain ⟨hflash, hidle⟩ := h rfl
    rw [State.powerReset_flash, State.read_flashSettled c (by simp [hidle]), hflash]

/-- Power lost before the boot block's program: only the generic block was programmed. -/
theorem runFinalize_cut_boot {s : State} (hs : s.Inv) (hi : s.initialised = true)
    (hx : s.nvmAnswers[s.generic.toList.length]? = some .cutBefore) : (runFinalize s).SparesBootRange s := by
  refine Run.Sat.andThen (((commitSlot_sat (S := .generic) hs hi).and (commitSlot_answers hs)).mono (fun _ _ h => h)
    (fun _ t h a ha => h.1.flash a (hs.not_inSlot_generic ha))
    fun c t h a ha => h.1.flash c a (hs.not_inSlot_generic ha)) ?_
  rintro _ t ⟨hc, hans⟩
  have hx' : t.nvmAnswers[0]? = some .cutBefore := by rw [hans, List.getElem?_drop, Nat.add_zero]; exact hx
  have hboot := commitBoot_cutBefore hx'
  rw [Run.SparesBootRange, hc.only.cfg] at hboot
  exact hboot.mono (fun _ _ h a ha => (h a ha).trans (hc.flash_boot hs ha))
    (fun _ _ h a ha => (h a ha).trans (hc.flash_boot hs ha)) fun _ _ h a ha => (h a ha).trans (hc.flash_boot hs ha)

/-- Settles O46: in either case the boot block is not programmed. -/
theorem powerLossBeforeTheBootCommitSparesTheBootBlock : Obligations.PowerLossBeforeTheBootCommitSparesTheBootBlock := by
  intro s t hs h hcut
  obtain ⟨_, hi, h⟩ := engineCommand_next h
  have hspares : (runFinalize s).SparesBootRange s := by
    rcases hcut with ⟨hg, x, hx, hk⟩ | hx
    · exact runFinalize_cut_generic hs hi hg hx hk
    · exact runFinalize_cut_boot hs hi hx
  exact finish_sat (P := fun t => ∀ a, inBootRange s.cfg a → t.flash.read a = s.flash.read a) h hspares
    (fun _ h => h) (fun _ _ h => h) fun _ _ h => h

/-! ### A session that ends with write_checksum and finalize (R193) -/

/-- Where the boot slot is valid the staged view of its block is its buffer. -/
theorem view_of_boot {s : State} {b : WriteBlock} (hb : s.boot = some b) {a : Nat} {v : Byte} (hv : b.byteAt a = some v) :
    s.view a = v := by
  simp [State.view, State.staged, hb, hv]

/-- Flash that is the staged view holds the boot slot's buffer. -/
theorem readBytes_of_view {s : State} {b : WriteBlock} {f : Flash} (hs : s.Inv) (hb : s.boot = some b)
    (hf : ∀ a, f.read a = s.view a) : f.readBytes s.cfg.bootBase s.cfg.blockSize = b.buffer := by
  obtain ⟨hok, hbase⟩ := hs.boot b hb
  refine List.ext_getElem? fun i => ?_
  rw [Flash.getElem?_readBytes]
  split_ifs with hi
  · obtain ⟨v, hv⟩ : ∃ v, b.buffer[i]? = some v := ⟨_, List.getElem?_eq_getElem (hok.length.symm ▸ hi)⟩
    have hbyte : b.byteAt (s.cfg.bootBase + i) = some v := by
      rw [WriteBlock.byteAt, hbase, if_pos (Nat.le_add_right _ _), Nat.add_sub_cancel_left, hv]
    rw [hf, view_of_boot hb hbyte, hv]
  · rw [List.getElem?_eq_none]
    have := hok.length
    omega

/-- Settles O40: `finalize` commits the boot block with the checksum that `write_checksum` staged. -/
theorem aCompletedSessionVerifies : Obligations.ACompletedSessionVerifies := by
  intro s t u hs hboot hw _ hf hui hres
  obtain ⟨_, hi, _⟩ := engineCommand_next hw
  obtain ⟨b, hb⟩ := Option.ne_none_iff_exists'.1 hboot
  have hend := engineCommand_of_ok hs.config hi (runWriteChecksum_of_boot hs hb)
  cases hw.symm.trans hend
  have ht := exec_inv hs .writeChecksum hend
  obtain ⟨_, _, hflash, _⟩ := finalizeCommitsTheStagedView _ u ht hf hui hres
  have hcfg : u.cfg = s.cfg := (exec_onward hf).cfg
  have hread := readBytes_of_view ht (b := b.withChecksum s.cfg) rfl hflash
  have hzero := flashSum_withChecksum (hs.boot b hb).1.length (Config.wf_clauses hs.config) hread
  refine ⟨_, exec_verifyChecksum (hcfg.symm ▸ hs.config), decide_eq_true ?_⟩
  rw [hcfg]
  exact hzero

end Sys2Proof.Machine

/-! PROOFS. Sector lookup (R100), and the block switch against the pure function that plans it (R103, R112). -/

namespace Sys2Proof

open Sys2Proof.Machine

/-! ### The sector of an address, and the order of the sectors' numbers (R9(d), R100) -/

/-- Adjacent numbers rise (R9(d)), so the whole list of them does. -/
theorem sortedLT_numbers {l : List Sector} (h : sectorsOrdered l = true) : (l.map (·.number.toNat)).SortedLT := by
  rw [List.sortedLT_iff_isChain]
  induction l with
  | nil => exact .nil
  | cons x rest ih =>
    have hrest := ih (sectorsOrdered_tail h)
    cases rest with
    | nil => exact .singleton _
    | cons y rest =>
      simp only [sectorsOrdered, Bool.and_eq_true, decide_eq_true_eq] at h
      exact .cons_cons h.1.2 hrest

namespace Config.Wf

variable {c : Config}

/-- Sectors are numbered in the order of their indices. -/
theorem number_le_iff (w : c.Wf) {i j : Nat} {x y : Sector} (hx : c.sectors[i]? = some x) (hy : c.sectors[j]? = some y) :
    x.number.toNat ≤ y.number.toNat ↔ i ≤ j := by
  obtain ⟨hi, rfl⟩ := List.getElem?_eq_some_iff.1 hx
  obtain ⟨hj, rfl⟩ := List.getElem?_eq_some_iff.1 hy
  have h := (sortedLT_numbers w.ordered).getElem_le_getElem_iff (i := i) (j := j)
    (hi := by rwa [List.length_map]) (hj := by rwa [List.length_map])
  rwa [List.getElem_map, List.getElem_map] at h

theorem sectorOf_eq_some_iff (w : c.Wf) {a k : Nat} :
    c.sectorOf a = some k ↔ ∃ x, c.sectors[k]? = some x ∧ x.start.toNat ≤ a ∧ a < x.stop :=
  ⟨Config.sectorOf_some, fun ⟨_, hx, h1, h2⟩ => w.sectorOf_eq hx h1 h2⟩

end Config.Wf

theorem Config.sectorOf_eq_none_iff (c : Config) (a : Nat) :
    c.sectorOf a = none ↔ ∀ x ∈ c.sectors, ¬ (x.start.toNat ≤ a ∧ a < x.stop) := by
  rw [← Option.not_isSome_iff_eq_none, c.sectorOf_isSome_iff]
  simp only [not_exists, not_and]

/-- Settles O24: no two sectors overlap, and their numbers rise with their indices. -/
theorem sectorOfIsTheUniqueSector : Obligations.SectorOfIsTheUniqueSector := by
  intro c a hwf
  have w := Config.wf_clauses hwf
  refine ⟨fun _ => w.sectorOf_eq_some_iff, c.sectorOf_eq_none_iff a, fun kf kl k x y z hx hy hz => ?_⟩
  rw [w.number_le_iff hx hz, w.number_le_iff hz hy]

namespace Machine

/-! ### The plan of the block switch (R112) -/

theorem switchPlan_of_boot {c : Config} {S : Slot} {B : Nat} (g : Option WriteBlock) (h : activeSlot c S B = .boot) :
    switchPlan c S B g = (none, .boot) := by
  unfold switchPlan
  rw [h]

theorem switchPlan_of_generic {c : Config} {S : Slot} {B : Nat} (g : Option WriteBlock) (h : activeSlot c S B = .generic) :
    switchPlan c S B g = (if ∃ b, g = some b ∧ b.base.toNat ≠ B then some .generic else none, .generic) := by
  unfold switchPlan
  rw [h]
  cases g with
  | none => simp
  | some b => by_cases hb : b.base.toNat = B <;> simp [hb]

/-- Settles O30: the new base alone decides the active slot. -/
theorem switchPlanFollowsTheTable : Obligations.SwitchPlanFollowsTheTable := by
  intro c S B g
  exact ⟨fun hB => switchPlan_of_boot g ((activeSlot_eq c S B).trans (if_pos hB)),
    fun hB => switchPlan_of_generic g ((activeSlot_eq c S B).trans (if_neg hB))⟩

/-- Nothing is flushed where the new active slot is invalid or holds the base. -/
theorem switchPlan_keeps {s : State} {S : Slot} {B : Nat}
    (h : ∀ b, s.slot (activeSlot s.cfg S B) = some b → b.base.toNat = B) :
    switchPlan s.cfg S B s.generic = (none, activeSlot s.cfg S B) := by
  cases ha : activeSlot s.cfg S B with
  | boot => exact switchPlan_of_boot _ ha
  | generic =>
    rw [ha] at h
    rw [switchPlan_of_generic _ ha, if_neg]
    rintro ⟨b, hb, hne⟩
    exact hne (h b hb)

/-! ### The switch follows its plan (R103) -/

/-- What follows a piece matters only where the piece goes on. -/
theorem Run.andThen_congr {α β : Type} {r : Run α} {k k' : α → State → Run β} (h : ∀ a t, r = .ok a t → k a t = k' a t) :
    r.andThen k = r.andThen k' := by
  cases r with
  | ok a t => exact h a t rfl
  | raised e t => rfl
  | powerLost c t => rfl
  | refused r => rfl
  | fault f => rfl

/-- The program of a block that goes on leaves the slots as they were. -/
theorem slot_of_programBlock {b : WriteBlock} {s t : State} {u : Unit} (hb : b.buffer.length = s.cfg.blockSize)
    (h : programBlock b s = .ok u t) (S : Slot) : t.slot S = s.slot S := by
  have hsat := programBlock_sat hb
  rw [h] at hsat
  obtain ⟨hran, _⟩ := hsat
  cases S with
  | generic => exact hran.generic
  | boot => exact hran.boot

/-- A slot that the switch displaces is the generic one: the boot slot holds no base but BOOT_BASE (R23). -/
theorem State.Inv.activeSlot_of_displaced {s : State} {S : Slot} {B : Nat} {b : WriteBlock} (hs : s.Inv)
    (hb : s.slot (activeSlot s.cfg S B) = some b) (hne : b.base.toNat ≠ B) : activeSlot s.cfg S B = .generic := by
  rw [activeSlot_eq] at hb ⊢
  split_ifs at hb ⊢ with hB
  · exact absurd ((hs.boot b hb).2.trans hB.symm) hne
  · rfl

/-- Settles O31: an invalid slot is loaded, one that holds the base is kept, and one that holds another is flushed first, after
which it still holds the other base. -/
theorem targetFollowsTheSwitchPlan : Obligations.TargetFollowsTheSwitchPlan := by
  intro s S B hs
  rcases target_cases S B s with ⟨hn, ht⟩ | ⟨b, hb, hbase, ht⟩ | ⟨b, hb, hne, ht⟩
  · rw [ht, switchPlan_keeps (by simp [hn]), Run.andThen_ok, if_neg (by simp [holdsBase_iff, hn])]
  · rw [ht, switchPlan_keeps (by simp [hb, hbase]), Run.andThen_ok, if_pos (holdsBase_iff.2 ⟨b, hb, hbase⟩)]
  · have ha := hs.activeSlot_of_displaced hb hne
    rw [ha] at hb ht
    have hg : s.generic = some b := hb
    rw [ht, switchPlan_of_generic _ ha, if_pos ⟨b, hg, hne⟩]
    simp only [hb]
    refine Run.andThen_congr fun u t hrun => ?_
    rw [if_neg]
    simp [holdsBase_iff, slot_of_programBlock (hs.slotOk hb).length hrun, hg, hne]

end Machine

end Sys2Proof

/-! PROOFS. One event of the activation machine in each of its states: a byte in Idle (R131) and in Receiving (R132), a tick with
nothing available (R133, R134), and a whole frame (R135). -/

namespace Sys2Proof.Machine

/-! ### The inspection of a complete payload, byte by byte (R136, R137) -/

theorem matchConnect_iff_getElem? (c : Config) (payload : List Byte) :
    matchConnect c payload = true ↔ payload[0]? = some c.sig0 ∧ payload[1]? = some c.sig1 := by
  match payload with
  | [] => simp [matchConnect]
  | [_] => simp [matchConnect]
  | b0 :: b1 :: _ => simp [matchConnect]

theorem inspect_of_connect {s : State} {payload : List Byte}
    (h : payload[0]? = some s.cfg.sig0 ∧ payload[1]? = some s.cfg.sig1) :
    inspect payload s = { s with result := 0, flag := true, trace := s.trace ++ [.trigger] } := by
  have hmatch : matchConnect s.cfg payload = true := (matchConnect_iff_getElem? _ _).2 h
  rw [inspect_eq, hmatch, if_pos rfl]

theorem inspect_of_not_connect {s : State} {payload : List Byte}
    (h : ¬ (payload[0]? = some s.cfg.sig0 ∧ payload[1]? = some s.cfg.sig1)) :
    inspect payload s = { s with result := 0, flag := false } := by
  have hmatch : matchConnect s.cfg payload = false := by
    rw [← Bool.not_eq_true, matchConnect_iff_getElem?]
    exact h
  rw [inspect_eq, hmatch, if_neg Bool.false_ne_true, List.append_nil]

/-! ### A byte (R131, R132) -/

theorem execByteReceived_discarded {s : State} {b : Byte} (hw : s.cfg.wf = true) (hk : s.cfg.transportKind = .stream)
    (hapm : s.apm = .idle) (hb : ¬ (0 < b.toNat ∧ b.toNat ≤ s.cfg.maxPayload.toNat)) :
    execByteReceived b s = .next (s.setEventFlags false) := by
  simp only [execByteReceived, onTransport_of_kind hw hk, hapm, acceptLength, hb, if_false]

/-- Settles O48: a byte that leaves the packet incomplete is stored; the last one hands the payload to the inspection. -/
theorem aByteInReceivingIsAppended : Obligations.AByteInReceivingIsAppended := by
  intro s b length startTime payload hw hk hapm
  refine ⟨execByteReceived_more hw hk hapm, fun hlen => ?_⟩
  have hlast : exec (.byteReceived b) s = .next { inspect (payload ++ [b]) s with apm := .idle } :=
    execByteReceived_last hw hk hapm hlen
  refine ⟨fun hsig => ?_, fun hsig => ?_⟩
  · rw [hlast, inspect_of_connect hsig]
  · rw [hlast, inspect_of_not_connect hsig]

/-- Settles O47: a length in range starts a packet; any other byte leaves the machine in Idle. -/
theorem aByteInIdleIsALength : Obligations.AByteInIdleIsALength := by
  intro s b hw hk hapm
  by_cases hb : 0 < b.toNat ∧ b.toNat ≤ s.cfg.maxPayload.toNat
  · rw [if_pos hb]
    exact execByteReceived_idle hw hk hapm hb.1 hb.2
  · rw [if_neg hb, ← hapm]
    exact execByteReceived_discarded hw hk hapm hb

/-! ### A tick with nothing available (R133, R134) -/

theorem emptyTick_of_idle {s : State} (hapm : s.apm = .idle) : emptyTick s = s.setEventFlags false := by
  simp only [emptyTick, hapm]

theorem emptyTick_of_receiving {s : State} {length : Byte} {startTime : Nat} {payload : List Byte}
    (hapm : s.apm = .receiving length startTime payload) :
    emptyTick s = { s.setEventFlags false with
      apm := if startTime + s.cfg.rxTimeout < s.now then .idle else s.apm } := by
  simp only [emptyTick, hapm]
  split_ifs
  · rfl
  · rw [← hapm]
    rfl

/-- Settles O49: the tick is legal under either transport kind, and only in Receiving does it look at the time. -/
theorem anEmptyTickAbandonsAStalledPacket : Obligations.AnEmptyTickAbandonsAStalledPacket := by
  intro s hw
  have htick : exec .noByteThisTick s = .next (emptyTick s) := configured_of_wf hw _
  refine ⟨fun hapm => ?_, fun length startTime payload hapm => ?_⟩
  · rw [htick, emptyTick_of_idle hapm]
    rfl
  · rw [htick, emptyTick_of_receiving hapm]
    rfl

/-! ### A frame (R135) -/

/-- Settles O50: under a frame transport the event is the inspection of its payload and nothing else. -/
theorem aFrameIsInspectedAtOnce : Obligations.AFrameIsInspectedAtOnce := by
  intro s payload hw hk
  have hframe : exec (.frameReceived payload) s = .next (inspect payload s) := onTransport_of_kind hw hk _
  refine ⟨fun hsig => ?_, fun hsig => ?_⟩
  · rw [hframe, inspect_of_connect hsig]
  · rw [hframe, inspect_of_not_connect hsig]

end Sys2Proof.Machine

/-! PROOFS. The CAN bit-timing resolver (R150 to R153): the search of the table, what `resolve` answers by its result, and that a
timing found is exact and in range. -/

namespace Sys2Proof.Machine

/-! ### The search of the table (R150) -/

theorem canCandidate_iff (c : Config) (clock rate : Nat) (e : CanEntry) :
    canCandidate c clock rate e = true ↔
      rate * e.quanta ≠ 0 ∧ clock % (rate * e.quanta) = 0 ∧ c.prescalerMin ≤ clock / (rate * e.quanta) ∧
        clock / (rate * e.quanta) ≤ c.prescalerMax := by
  simp only [canCandidate, Bool.and_eq_true, decide_eq_true_eq, and_assoc]

/-- What the search found is a candidate of the table, with the prescaler it divides the clock by. -/
theorem resolveTiming_some {c : Config} {clock rate p : Nat} {e : CanEntry}
    (h : resolveTiming c clock rate = some (p, e)) :
    e ∈ c.canTable ∧ canCandidate c clock rate e = true ∧ p = clock / (rate * e.quanta) := by
  obtain ⟨f, hfind, hpair⟩ := Option.map_eq_some_iff.1 h
  cases hpair
  exact ⟨List.mem_of_find?_eq_some hfind, List.find?_some hfind, rfl⟩

/-- The search stops at a candidate that has none before it. -/
theorem resolveTiming_of_first {c : Config} {clock rate k : Nat} {e : CanEntry} (hk : c.canTable[k]? = some e)
    (he : canCandidate c clock rate e = true)
    (hfirst : ∀ j < k, ∀ f, c.canTable[j]? = some f → ¬ canCandidate c clock rate f = true) :
    resolveTiming c clock rate = some (clock / (rate * e.quanta), e) := by
  obtain ⟨hlt, hget⟩ := List.getElem?_eq_some_iff.1 hk
  have hfind : c.canTable.find? (canCandidate c clock rate) = some e := by
    refine List.find?_eq_some_iff_getElem.2 ⟨he, k, hlt, hget, fun j hj => ?_⟩
    simpa using hfirst j hj _ (List.getElem?_eq_getElem (hj.trans hlt))
  rw [resolveTiming, hfind, Option.map_some]

theorem resolveTiming_of_no_candidate {c : Config} {clock rate : Nat}
    (h : ∀ f ∈ c.canTable, ¬ canCandidate c clock rate f = true) : resolveTiming c clock rate = none := by
  rw [resolveTiming, List.find?_eq_none.2 h, Option.map_none]

/-- A candidate's prescaler times the rate and the quanta gives back the clock (R150 corner case 7). -/
theorem clock_eq_of_canCandidate {c : Config} {clock rate : Nat} {e : CanEntry}
    (h : canCandidate c clock rate e = true) : clock = rate * (clock / (rate * e.quanta)) * e.quanta := by
  obtain ⟨_, hmod, _⟩ := (canCandidate_iff ..).1 h
  calc clock = rate * e.quanta * (clock / (rate * e.quanta)) := (Nat.mul_div_cancel' (Nat.dvd_of_mod_eq_zero hmod)).symm
    _ = rate * (clock / (rate * e.quanta)) * e.quanta := Nat.mul_right_comm ..

/-! ### What `resolve` answers (R150, R66) -/

theorem execResolve_of_some {s : State} {clock rate : Word} {p : Nat} {e : CanEntry} (hw : s.cfg.wf = true)
    (h : resolveTiming s.cfg clock.toNat rate.toNat = some (p, e)) :
    execResolve clock rate s = .next (s.setTiming p e) := by
  rw [execResolve, configured_of_wf hw, h]

theorem execResolve_of_none {s : State} {clock rate : Word} (hw : s.cfg.wf = true)
    (h : resolveTiming s.cfg clock.toNat rate.toNat = none) :
    execResolve clock rate s = .next s.setTimingFailed := by
  rw [execResolve, configured_of_wf hw, h]

/-- FLAG is set only where the search found an entry, and the state then holds its timing. -/
theorem execResolve_success {s t : State} {clock rate : Word} (h : execResolve clock rate s = .next t)
    (hflag : t.flag = true) :
    s.cfg.wf = true ∧ ∃ p e, resolveTiming s.cfg clock.toNat rate.toNat = some (p, e) ∧ t = s.setTiming p e := by
  obtain ⟨hw, _⟩ := configured_next h
  refine ⟨hw, ?_⟩
  cases hfound : resolveTiming s.cfg clock.toNat rate.toNat with
  | none =>
    rw [execResolve_of_none hw hfound] at h
    cases h
    exact absurd hflag Bool.false_ne_true
  | some timing =>
    rw [execResolve_of_some hw hfound] at h
    cases h
    exact ⟨_, _, rfl, rfl⟩

/-- Settles O53: the first entry that will do is the one the search finds; where none will do it finds none. -/
theorem resolveReportsTheFirstExactEntry : Obligations.ResolveReportsTheFirstExactEntry := by
  intro s clock rate hw
  refine ⟨fun k e hk he hfirst => ?_, fun hnone => ?_⟩
  · exact execResolve_of_some hw (resolveTiming_of_first hk ((canCandidate_iff ..).2 he) fun j hj f hf hcand =>
      hfirst j hj f hf ((canCandidate_iff ..).1 hcand))
  · exact ⟨s.setTimingFailed, execResolve_of_none hw (resolveTiming_of_no_candidate fun f hf hcand =>
      hnone f hf ((canCandidate_iff ..).1 hcand)), rfl⟩

/-- Settles O54: a success reports a candidate of the table, and R9 bounds the quanta of every entry. -/
theorem aResolvedTimingIsExact : Obligations.AResolvedTimingIsExact := by
  intro s t clock rate h hflag
  obtain ⟨hw, p, e, hfound, rfl⟩ := execResolve_success h hflag
  obtain ⟨hmem, hcand, rfl⟩ := resolveTiming_some hfound
  obtain ⟨_, _, hmin, hmax⟩ := (canCandidate_iff ..).1 hcand
  obtain ⟨hquantaMin, hquantaMax⟩ := (Config.wf_clauses hw).quanta e hmem
  exact ⟨clock_eq_of_canCandidate hcand, hmin, hmax, ⟨e, hmem, rfl, rfl⟩, hquantaMin, hquantaMax,
    fun hfits => Nat.lt_succ_of_le (hmax.trans hfits)⟩

/-- Settles O55: the search reads only CFG, so both states get its one result. -/
theorem resolveReadsNoMutableState : Obligations.ResolveReadsNoMutableState := by
  intro s s' clock rate hw hcfg
  have hw' : s'.cfg.wf = true := hcfg ▸ hw
  cases hfound : resolveTiming s.cfg clock.toNat rate.toNat with
  | none =>
    have hfound' : resolveTiming s'.cfg clock.toNat rate.toNat = none := hcfg ▸ hfound
    exact ⟨_, _, execResolve_of_none hw hfound, execResolve_of_none hw' hfound', rfl,
      fun hflag => absurd hflag Bool.false_ne_true⟩
  | some timing =>
    have hfound' : resolveTiming s'.cfg clock.toNat rate.toNat = some timing := hcfg ▸ hfound
    exact ⟨_, _, execResolve_of_some hw hfound, execResolve_of_some hw' hfound', rfl, fun _ => ⟨rfl, rfl, rfl⟩⟩

end Sys2Proof.Machine

/-! PROOFS. Requests that R101 does not admit: a `write` or `erase` that leaves the addressable region (R161) or lies in a gap of
the sector table (R162) raises its error before it does anything. -/

namespace Sys2Proof.Machine

/-! ### What R101 does not admit -/

theorem inRegion_iff (c : Config) (a n : Nat) : inRegion c a n = true ↔ c.addrLo ≤ a ∧ a + n ≤ c.addrHi := by
  rw [inRegion, Bool.and_eq_true, decide_eq_true_eq, decide_eq_true_eq]

theorem inRegion_eq_false_iff (c : Config) (a n : Nat) : inRegion c a n = false ↔ a < c.addrLo ∨ c.addrHi < a + n := by
  rw [← Bool.not_eq_true, inRegion_iff]
  omega

section request
variable {c : Config} {a n : Nat}

theorem validateWrite_of_not_inRegion (h : inRegion c a n = false) : validateWrite c a n = some .outOfRange := by
  simp [validateWrite, h]

theorem validateErase_of_not_inRegion (h : inRegion c a n = false) : validateErase c a n = .error .outOfRange := by
  simp [validateErase, h]

theorem covered_eq_false_of_gap {i : Nat} (hi : i < n) (h : c.sectorOf (a + i) = none) : c.covered a n = false := by
  refine Bool.eq_false_iff.2 fun hc => ?_
  have hsome := (Config.covered_iff c a n).1 hc i hi
  rw [h] at hsome
  exact Bool.false_ne_true hsome

theorem validateWrite_of_not_covered (hr : inRegion c a n = true) (h : c.covered a n = false) :
    validateWrite c a n = some .unknownSector := by
  simp [validateWrite, hr, h]

theorem validateErase_of_gap (hr : inRegion c a n = true) (h : c.sectorOf a = none ∨ c.sectorOf (a + n - 1) = none) :
    validateErase c a n = .error .unknownSector := by
  rcases h with hfirst | hlast
  · simp [validateErase, hr, hfirst]
  · simp [validateErase, hr, hlast]

end request

/-! ### A request that is not admitted changes nothing (R161, R162, R167) -/

section command
variable {s : State} {e : EngineError}

/-- A body that raises an error in the state it began in changes nothing but the answer. -/
theorem engineCommand_answers_raised {body : State → Run Unit} (hw : s.cfg.wf = true) (hi : s.initialised = true)
    (h : body s = .raised e s) : ∃ t, engineCommand body s = .next t ∧ Answered e.code s t :=
  ⟨_, engineCommand_of_raised hw hi h, answered_answer s e.code⟩

theorem exec_write_of_invalid {address : Address} {bytes : List Byte} (hw : s.cfg.wf = true) (hi : s.initialised = true)
    (hne : bytes ≠ []) (h : validateWrite s.cfg address.toNat bytes.length = some e) :
    ∃ t, exec (.write address bytes) s = .next t ∧ Answered e.code s t := by
  have hbody : runWrite address.toNat bytes s = .raised e s := by
    rw [runWrite, if_neg (mt List.eq_nil_of_length_eq_zero hne), h]
  exact engineCommand_answers_raised hw hi hbody

theorem exec_erase_of_invalid {address : Address} {length : Word} (hw : s.cfg.wf = true) (hi : s.initialised = true)
    (hn : length.toNat ≠ 0) (h : validateErase s.cfg address.toNat length.toNat = .error e) :
    ∃ t, exec (.erase address length) s = .next t ∧ Answered e.code s t := by
  have hbody : runErase address.toNat length.toNat s = .raised e s := by rw [runErase, if_neg hn, h]
  exact engineCommand_answers_raised hw hi hbody

end command

/-- Settles O21: the range test comes first in both validations. -/
theorem outOfRangeRequestsChangeNothing : Obligations.OutOfRangeRequestsChangeNothing := by
  intro s hw hi
  refine ⟨fun address bytes hne hout => ?_, fun address length hn hout => ?_⟩
  · exact exec_write_of_invalid hw hi hne (validateWrite_of_not_inRegion ((inRegion_eq_false_iff ..).2 hout))
  · exact exec_erase_of_invalid hw hi hn (validateErase_of_not_inRegion ((inRegion_eq_false_iff ..).2 hout))

/-- Settles O22: with the range test passed, a byte in no sector leaves a `write` not covered, and an `erase` looks up the
sectors of its two ends. -/
theorem requestsInAGapChangeNothing : Obligations.RequestsInAGapChangeNothing := by
  intro s hw hi
  refine ⟨fun address bytes hne hlo hhi ⟨i, hlt, hgap⟩ => ?_, fun address length hn hlo hhi hgap => ?_⟩
  · exact exec_write_of_invalid hw hi hne
      (validateWrite_of_not_covered ((inRegion_iff ..).2 ⟨hlo, hhi⟩) (covered_eq_false_of_gap hlt hgap))
  · exact exec_erase_of_invalid hw hi hn (validateErase_of_gap ((inRegion_iff ..).2 ⟨hlo, hhi⟩) hgap)

end Sys2Proof.Machine

/-! PROOFS. Where nothing has arrived (R190), a reset between two commands and a loss of power inside one (R36, R190, R192), and
what the block does and refuses after a Timeout (R86(d), R199). -/

namespace Sys2Proof.Machine

/-! ### No input, and a reset (R36, R190, R192) -/

/-- Settles O6: the port takes nothing. -/
theorem nothingHappensWithoutInput : Obligations.NothingHappensWithoutInput := by
  intro s hw hin
  simp only [step, configured_of_wf hw, takeInput, hin]

theorem step_reset {s : State} {content : List Byte} {rest : List PortInput} (hw : s.cfg.wf = true)
    (hin : s.inbox = .reset content :: rest) : step s = .next ({ s with inbox := rest }.powerReset content) := by
  simp only [step, configured_of_wf hw, takeInput, hin]

/-- Settles O7: the step is the reset itself, which settles flash inside the range of the operation in flight only. -/
theorem resetKeepsOnlyFlash : Obligations.ResetKeepsOnlyFlash :=
  fun _ content _ hw hin => ⟨_, step_reset hw hin, afterReset_powerReset (OnlyEngine.refl _) content, rfl, rfl,
    fun _ ha => State.read_flashSettled content ha⟩

/-! ### Power lost inside a command (R192) -/

theorem OnlyPort.initialised {s t : State} (h : OnlyPort s t) : t.initialised = s.initialised := by
  unfold OnlyPort at h
  rw [h]

theorem OnlyPort.timedOut {s t : State} (h : OnlyPort s t) : t.timedOut = s.timedOut := by
  unfold OnlyPort at h
  rw [h]

theorem engineRel_onlyEngine : EngineRel OnlyEngine where
  refl := OnlyEngine.refl
  trans _ _ _ := OnlyEngine.trans
  setSlot := onlyEngine_setSlot
  operation := physicalOp_frame

/-- Settles O18: the port's operations and the body of an engine command keep the mark of `init`, and `init` sets it, so only a
loss of power clears it. -/
theorem powerLossInsideACommandIsAReset : Obligations.PowerLossInsideACommandIsAReset := by
  intro s t i hi h
  have kept : ∀ {u : State}, u.initialised = s.initialised → u.initialised = false → AfterReset s u :=
    fun hu hf => absurd (hf.symm.trans (hu.trans hi)) Bool.false_ne_true
  rcases exec_next h with hport | ⟨_, hinit⟩ | ⟨body, hbody, _, hend⟩
  · exact kept hport.initialised
  · cases hinit
    exact kept hi.symm
  · exact finish_sat (P := fun t => t.initialised = false → AfterReset s t) hend (engineRel_onlyEngine.engineBody hbody s)
      (fun _ hu => kept hu.initialised) (fun _ _ hu => kept hu.initialised)
      fun content _ hu _ => afterReset_powerReset hu content

/-! ### After a Timeout only the slots change (R86(d), R199) -/

/-- `t` differs from `s` in the slots only: what a command may still change before it starts a physical operation. -/
def OnlySlots (s t : State) : Prop := t = { s with generic := t.generic, boot := t.boot }

theorem OnlySlots.refl (s : State) : OnlySlots s s := rfl

theorem OnlySlots.trans {s t u : State} (h1 : OnlySlots s t) (h2 : OnlySlots t u) : OnlySlots s u := by
  unfold OnlySlots at *
  rw [h2, h1]

theorem OnlySlots.timedOut {s t : State} (h : OnlySlots s t) : t.timedOut = s.timedOut := by
  unfold OnlySlots at h
  rw [h]

theorem OnlySlots.flash {s t : State} (h : OnlySlots s t) : t.flash = s.flash := by
  unfold OnlySlots at h
  rw [h]

theorem OnlySlots.physical {s t : State} (h : OnlySlots s t) : t.physical = s.physical := by
  unfold OnlySlots at h
  rw [h]
  rfl

theorem onlySlots_setSlot (s : State) (S : Slot) (b : Option WriteBlock) : OnlySlots s (s.setSlot S b) := by
  cases S <;> rfl

theorem onlySlots_stage (S : Slot) (a : Nat) (v : Byte) (s : State) : OnlySlots s (stage S a v s) := by
  unfold stage
  split
  · exact OnlySlots.refl s
  · exact onlySlots_setSlot s S _

theorem onlySlots_dropSlots (kf kl : Nat) (s : State) : OnlySlots s (dropSlots kf kl s) := dropSlots_rest kf kl s

/-- The piece goes on or raises with the slots changed only, and loses no power: it started no physical operation. -/
def Run.OnlySlots {α : Type} (s : State) (r : Run α) : Prop :=
  r.Sat (fun _ t => Machine.OnlySlots s t) (fun _ t => Machine.OnlySlots s t) (fun _ _ => False)

theorem Run.OnlySlots.from {α : Type} {s t : State} {r : Run α} (ht : Machine.OnlySlots s t) (h : r.OnlySlots t) :
    r.OnlySlots s :=
  Run.Sat.mono h (fun _ _ => ht.trans) (fun _ _ => ht.trans) fun _ _ => id

theorem zeroLength_onlySlots (s : State) : (zeroLength s).OnlySlots s := by
  rcases zeroLength_cases s with h | h <;> rw [h] <;> exact OnlySlots.refl s

section afterTimeout
variable {s : State} (ht : s.timedOut = true)
include ht

theorem physicalOp_afterTimeout (op : NvmOp) : physicalOp op s = .refused .afterTimeout := if_pos ht

theorem programBlock_afterTimeout (b : WriteBlock) : programBlock b s = .refused .afterTimeout := by
  rw [programBlock, physicalOp_afterTimeout ht, Run.andThen_refused]

theorem eraseLoop_afterTimeout (x : Sector) (l : List Sector) : eraseLoop (x :: l) s = .refused .afterTimeout := by
  rw [eraseLoop, eraseSector, physicalOp_afterTimeout ht, Run.andThen_refused]

theorem commitSlot_afterTimeout {S : Slot} (h : s.slot S ≠ none) : commitSlot S s = .refused .afterTimeout := by
  obtain ⟨b, hb⟩ := Option.ne_none_iff_exists'.1 h
  rw [commitSlot_of_some hb, programBlock_afterTimeout ht, Run.andThen_refused]

/-- Between two bytes of a `write` the block is found or loaded without a physical operation, or the switch is refused; a load
faults only where the block is not wholly in sectors (R81, R103, R104). -/
theorem nextSlot_afterTimeout (S : Slot) (B : Nat) :
    (∃ S' t, nextSlot S B s = .ok S' t ∧ OnlySlots s t) ∨ nextSlot S B s = .refused .afterTimeout ∨
      (s.cfg.covered B s.cfg.blockSize = false ∧ ∃ f, nextSlot S B s = .fault f) := by
  unfold nextSlot
  split_ifs with hheld
  · exact .inl ⟨S, s, rfl, OnlySlots.refl s⟩
  rcases target_cases S B s with ⟨_, htarget⟩ | ⟨b, _, _, htarget⟩ | ⟨b, _, _, htarget⟩ <;> rw [htarget]
  · cases hc : s.cfg.covered B s.cfg.blockSize with
    | true => exact .inl ⟨_, _, load_of_covered hc, onlySlots_setSlot s _ _⟩
    | false => exact .inr (.inr ⟨rfl, .noDevice B, by simp [load, hc]⟩)
  · exact .inl ⟨_, s, rfl, OnlySlots.refl s⟩
  · rw [programBlock_afterTimeout ht, Run.andThen_refused]
    exact .inr (.inl rfl)

theorem runErase_onlySlots (address length : Nat) : (runErase address length s).OnlySlots s := by
  unfold runErase
  split_ifs
  · exact zeroLength_onlySlots s
  split
  · exact OnlySlots.refl s
  · next kf kl _ =>
    have hdrop := onlySlots_dropSlots kf kl s
    cases sectorsBetween s.cfg kf kl with
    | nil => exact hdrop
    | cons x l => rw [eraseLoop_afterTimeout (hdrop.timedOut.trans ht)]; trivial

theorem runFinalize_afterTimeout (h : s.generic ≠ none ∨ s.boot ≠ none) : runFinalize s = .refused .afterTimeout := by
  rw [runFinalize]
  by_cases hg : s.slot .generic = none
  · rw [commitSlot_of_none hg, Run.andThen_ok]
    exact commitSlot_afterTimeout ht (h.resolve_left (not_not_intro hg))
  · rw [commitSlot_afterTimeout ht hg, Run.andThen_refused]

theorem runFinalize_onlySlots : (runFinalize s).OnlySlots s := by
  by_cases h : s.generic ≠ none ∨ s.boot ≠ none
  · rw [runFinalize_afterTimeout ht h]
    trivial
  · rw [not_or, not_not, not_not] at h
    rw [runFinalize, commitSlot_of_none (S := .generic) h.1, Run.andThen_ok, commitSlot_of_none (S := .boot) h.2]
    exact OnlySlots.refl s

end afterTimeout

theorem writeLoop_onlySlots (bytes : List Byte) :
    ∀ (S : Slot) (a : Nat) (s : State), s.timedOut = true → (writeLoop bytes S a s).OnlySlots s := by
  induction bytes with
  | nil => exact fun _ _ s _ => OnlySlots.refl s
  | cons v rest ih =>
    intro S a s ht
    rw [writeLoop]
    rcases nextSlot_afterTimeout ht S (s.cfg.blockBase a) with ⟨S', t, hnext, hslots⟩ | hnext | ⟨_, f, hnext⟩ <;> rw [hnext]
    · have hstaged := hslots.trans (onlySlots_stage S' a v t)
      exact .from hstaged (ih S' (a + 1) _ (hstaged.timedOut.trans ht))
    · trivial
    · trivial

theorem runWrite_onlySlots {s : State} (ht : s.timedOut = true) (address : Nat) (bytes : List Byte) :
    (runWrite address bytes s).OnlySlots s := by
  unfold runWrite
  split_ifs
  · exact zeroLength_onlySlots s
  split
  · exact OnlySlots.refl s
  · exact writeLoop_onlySlots bytes _ address s ht

theorem EngineBody.onlySlots {i : Instr} {body : State → Run Unit} (h : EngineBody i body) {s : State}
    (ht : s.timedOut = true) : (body s).OnlySlots s := by
  cases h with
  | write address bytes => exact runWrite_onlySlots ht _ bytes
  | erase address length => exact runErase_onlySlots ht _ _
  | writeChecksum =>
    unfold runWriteChecksum
    split
    · exact OnlySlots.refl s
    · exact runWrite_onlySlots ht _ _
  | finalize => exact runFinalize_onlySlots ht

/-- Settles O16: the port's operations and `init` start no operation, and the body of an engine command changes the slots only
and loses no power. -/
theorem nothingReachesFlashAfterATimeout : Obligations.NothingReachesFlashAfterATimeout := by
  intro s t i ht h
  have engine : (∃ body, EngineBody i body ∧ s.initialised = true ∧ finish (body s) = .next t) →
      t.flash = s.flash ∧ t.physical = s.physical ∧ t.timedOut = true := by
    rintro ⟨body, hbody, _, hend⟩
    exact finish_sat (P := fun t => t.flash = s.flash ∧ t.physical = s.physical ∧ t.timedOut = true) hend
      (hbody.onlySlots ht) (fun _ hu => ⟨hu.flash, hu.physical, hu.timedOut.trans ht⟩)
      (fun _ _ hu => ⟨hu.flash, hu.physical, hu.timedOut.trans ht⟩) fun _ _ => False.elim
  rcases exec_next h with hport | ⟨_, hinit⟩ | hengine
  · rcases exec_physical h with hphys | hengine
    · exact ⟨hport.flash, hphys, hport.timedOut.trans ht⟩
    · exact engine hengine
  · cases hinit
    exact ⟨rfl, rfl, ht⟩
  · exact engine hengine

/-! ### The bases a request makes the generic slot hold (R102, R103) -/

/-- The base the generic slot holds at first is the first of them. -/
theorem mem_genericBases_of_held {c : Config} {B : Nat} {n : Nat} :
    ∀ {g : Option Nat} {a : Nat}, B ∈ g.toList → B ∈ genericBases c g a n := by
  induction n with
  | zero => exact id
  | succ n ih =>
    intro g a hB
    rw [genericBases]
    split_ifs
    · exact ih hB
    · exact List.mem_append_left _ hB

/-- Every generic block of which the request names a byte is one of them. -/
theorem mem_genericBases {c : Config} {n : Nat} :
    ∀ {g : Option Nat} {a i : Nat}, i < n → c.blockBase (a + i) ≠ c.bootBase →
      c.blockBase (a + i) ∈ genericBases c g a n := by
  induction n with
  | zero => exact fun hi => absurd hi (Nat.not_lt_zero _)
  | succ n ih =>
    intro g a i hi hboot
    rw [genericBases]
    cases i with
    | zero =>
      split_ifs with hstays
      · exact mem_genericBases_of_held (by rw [hstays.resolve_left hboot]; exact List.mem_singleton_self _)
      · exact List.mem_append_right _ (mem_genericBases_of_held (List.mem_singleton_self _))
    | succ i =>
      rw [show a + (i + 1) = a + 1 + i by omega] at hboot ⊢
      have hrest := fun g => ih (g := g) (Nat.lt_of_succ_lt_succ hi) hboot
      split_ifs
      · exact hrest g
      · exact List.mem_append_right _ (hrest _)

theorem one_lt_length_of_mem_of_ne {α : Type} {l : List α} {x y : α} (hx : x ∈ l) (hy : y ∈ l) (hne : x ≠ y) :
    1 < l.length := by
  obtain ⟨i, hi, rfl⟩ := List.mem_iff_getElem.1 hx
  obtain ⟨j, hj, rfl⟩ := List.mem_iff_getElem.1 hy
  have hij : i ≠ j := by rintro rfl; exact hne rfl
  omega

/-! ### What is refused after a Timeout (R86(d), R199) -/

/-- Where routing a byte changed the slots only, it programmed nothing, so as many bases are held from there on. -/
theorem Routed.length_genericBases {a : Nat} {s t : State} (h : Routed a s t) (hc : t.cfg = s.cfg)
    (hp : t.physical = s.physical) (n : Nat) :
    (t.genericBases (a + 1) n).length = (s.genericBases a (n + 1)).length := by
  have hprograms := (h.genericBases_succ hc n).2
  rw [hp, List.append_cancel_left_eq] at hprograms
  simpa [programsOf] using congrArg List.length hprograms

/-- A request that makes the generic slot hold two bases in turn must program the first of them. -/
theorem writeLoop_afterTimeout (bytes : List Byte) : ∀ (S : Slot) (a : Nat) (s : State), s.Inv → s.initialised = true →
    s.timedOut = true → s.cfg.covered a bytes.length = true → 1 < (s.genericBases a bytes.length).length →
    writeLoop bytes S a s = .refused .afterTimeout := by
  induction bytes with
  | nil =>
    intro S a s _ _ _ _ hbases
    cases hg : s.genericBase <;> simp [State.genericBases, genericBases, hg] at hbases
  | cons v rest ih =>
    intro S a s hs hi ht hc hbases
    have ha := covered_head hc
    have hin := (Config.wf_clauses hs.config).blockInside_of_sectorOf ha
    rw [writeLoop]
    rcases nextSlot_afterTimeout ht S (s.cfg.blockBase a) with ⟨S', t, hnext, hslots⟩ | hnext | ⟨hcov, _⟩
    · have hsat := (nextSlot_sat (S := S) hs hi ha).and (nextSlot_switches hs ha)
      rw [hnext] at hsat ⊢
      obtain ⟨hswitched, hrouted⟩ := hsat
      have hst := hswitched.byteStaged (v := v) hrouted hi
      have hstaged := hslots.trans (onlySlots_stage S' a v t)
      refine ih S' (a + 1) _ hst.inv (hst.only.initialised.trans hi) (hstaged.timedOut.trans ht)
        (hst.only.cfg.symm ▸ covered_tail hc) ?_
      rwa [hst.routed.length_genericBases hst.only.cfg hstaged.physical]
    · rw [hnext, Run.andThen_refused]
    · rw [Config.covered_of_blockInside hin] at hcov
      exact absurd hcov.symm Bool.false_ne_true

/-- An `erase` of a valid range names at least the sector of its first byte. -/
theorem runErase_afterTimeout {s : State} (w : s.cfg.Wf) (ht : s.timedOut = true) {address length kf kl : Nat}
    (hn : 0 < length) (hf : s.cfg.sectorOf address = some kf) (hl : s.cfg.sectorOf (address + length - 1) = some kl) :
    runErase address length s = .refused .afterTimeout := by
  obtain ⟨x, hx, _⟩ := Config.sectorOf_some hf
  have hmem := mem_sectorsBetween.2 ⟨kf, le_rfl, w.sectorOf_mono (by omega) hf hl, hx⟩
  obtain ⟨y, l, hlist⟩ := List.exists_cons_of_ne_nil (List.ne_nil_of_mem hmem)
  rw [runErase_of_sectors w hn.ne' hf hl, hlist, eraseLoop_afterTimeout ((onlySlots_dropSlots kf kl s).timedOut.trans ht)]

theorem engineCommand_of_refused {body : State → Run Unit} {s : State} {r : Refusal} (hw : s.cfg.wf = true)
    (hi : s.initialised = true) (h : body s = .refused r) : engineCommand body s = .refused r := by
  rw [engineCommand_of_init hw hi, h, finish]

/-- Settles O17: a `finalize` and an `erase` come to a physical operation at once, and the `write` makes the generic slot hold
two different bases in turn. -/
theorem physicalOperationsAfterATimeoutAreRefused : Obligations.PhysicalOperationsAfterATimeoutAreRefused := by
  intro s hs hi ht
  have w := Config.wf_clauses hs.config
  refine ⟨fun hslot => ?_, fun address length hn _ _ hf hl => ?_, fun address bytes i hc hlt hboot hdisplaced => ?_⟩
  · exact engineCommand_of_refused hs.config hi (runFinalize_afterTimeout ht hslot)
  · obtain ⟨kf, hf⟩ := Option.ne_none_iff_exists'.1 hf
    obtain ⟨kl, hl⟩ := Option.ne_none_iff_exists'.1 hl
    exact engineCommand_of_refused hs.config hi (runErase_afterTimeout w ht hn hf hl)
  · have hnamed : ∀ j < bytes.length, s.cfg.blockBase (address.toNat + j) ≠ s.cfg.bootBase →
        s.cfg.blockBase (address.toNat + j) ∈ s.genericBases address.toNat bytes.length := fun j hj => mem_genericBases hj
    have hbases : 1 < (s.genericBases address.toNat bytes.length).length := by
      rcases hdisplaced with ⟨b, hb, hne⟩ | ⟨_, j, hj, hbootj, hne⟩
      · have hheld : b.base.toNat ∈ s.genericBase.toList := by simp [State.genericBase, hb]
        exact one_lt_length_of_mem_of_ne (mem_genericBases_of_held hheld) (hnamed i hlt hboot) hne
      · exact one_lt_length_of_mem_of_ne (hnamed j (hj.trans hlt) hbootj) (hnamed i hlt hboot) hne
    have hne : bytes ≠ [] := List.length_pos_iff.1 (Nat.zero_lt_of_lt hlt)
    refine engineCommand_of_refused hs.config hi ?_
    rw [runWrite_of_covered w hne hc, writeLoop_afterTimeout bytes _ _ s hs hi ht hc hbases]

end Sys2Proof.Machine
